-- ==== Sys2Proof/Word.lean ====
section
/-! DEFINITION. The words of the block: the host word, the micro code, and the signed and unsigned
element types of the spaces (00_scope.md R14, 10_state.md R30, 30_encoding.md R100). -/

namespace Sys2Proof

/-- A host command word of format H (R100, R101). -/
abbrev HostWord := BitVec 32

/-- A micro-operation code of format U (R100, R102). -/
abbrev MicroCode := BitVec 8

/-- A signed 16-bit sample, "signed 16-bit PCM samples" (R30, R106). Its number is `toInt`. -/
abbrev Sample := BitVec 16

/-- The 64-bit data word of the command port (R100). -/
abbrev DataWord := BitVec 64

end Sys2Proof
end

