-- ==== Sys2Proof/Config.lean ====
section
/-! DEFINITION. What the spec leaves to the implementation or to the collaborator, as constants with no
body: the capacities (00_scope.md R12), the transform `Xfm` and the predicate `XfmInit`
(42_transform_port.md R166, R167), the two open parameters with two admissible values each (R162, R285), and the
free values of notes/assumptions/10.md and 25.md. Nothing in Lean
can evaluate them, so a statement about the machine holds for every choice the spec admits. -/

namespace Sys2Proof.Config

/-- The four capacity parameters of R12. -/
structure Caps where
  maxSize   : Nat
  maxFft    : Nat
  maxChan   : Nat
  maxWeight : Nat
deriving DecidableEq, Repr

/-- DESIGN CHOICE (notes/assumptions/5.md): `MAX_SIZE` − 1, open; "other admissible values 1 .. 32767". -/
opaque maxSizeLess : Fin 32767

/-- DESIGN CHOICE (notes/assumptions/5.md): `MAX_FFT` is 2 to this power plus one; a power of two in 2 .. 32768. -/
opaque maxFftLog : Fin 15

/-- DESIGN CHOICE (notes/assumptions/5.md): `MAX_CHAN` − 1, open; 1 .. 32766. -/
opaque maxChanLess : Fin 32766

/-- DESIGN CHOICE (notes/assumptions/5.md): `MAX_WEIGHT`, open; 0 .. 32767. -/
opaque maxWeightRaw : Fin 32768

/-- The capacities of this block: unknown, inside the bounds R12 gives. -/
def caps : Caps where
  maxSize   := maxSizeLess.val + 1
  maxFft    := 2 ^ (maxFftLog.val + 1)
  maxChan   := maxChanLess.val + 1
  maxWeight := maxWeightRaw.val

/-- `Xfm(n, frame, s)`, bin k (R166): the real and the imaginary part, each s16. One answer for every
bin index, of which `X.REQ` takes the first n/2 + 1 ("exactly n/2 + 1 pairs"). Uninterpreted, a function
of its arguments alone (notes/assumptions/8.md). -/
opaque xfm (n : Nat) (frame : List Sample) (shift : Nat) (bin : Nat) : BitVec 16 × BitVec 16

/-- `XfmInit(n)` (R167): whether the collaborator could be prepared for the transform size n.
Uninterpreted (notes/assumptions/9.md). -/
opaque xfmInit (n : Nat) : Bool

/-- DESIGN CHOICE (notes/assumptions/6.md): whether the open parameter `SHIFT_BASE` stands at the document's literal,
15, and not at the spec's default, 14 (R162). -/
opaque shiftBaseLiteral : Bool

/-- DESIGN CHOICE (notes/assumptions/7.md): whether the open parameter `LOG_INTERP_SHIFT` is the segment width's 9,
and not the spec's default, 16 (R285). -/
opaque logInterpBySegment : Bool

/-- DESIGN CHOICE (notes/assumptions/25.md): the gain the host's construction gives an estimate x at which R269's power
has no real value: r + offset negative under a strength that is no integer, or 0 under a positive one. No rule states
one. -/
opaque freeGain (gainBits : Nat) (inputBits : Int) (strength offset : Rat) (x : Nat) : BitVec 16

/-- DESIGN CHOICE (notes/assumptions/10.md): the value of a sample the host counted in `ARG` and did not
present. R387 (a) assumes there is none; the spec states no value. -/
opaque freeSample (index : Nat) : Sample

end Sys2Proof.Config
end

