-- ==== Sys2Proof/Syntax.lean ====
section
/-! DEFINITION. The instructions: one constructor per row of spec/opcode_table.json, eight host commands
and twelve micro-operations (30_encoding.md R103, R104), the two word formats (R100), and a command as
the host presents it on the port (R100, R106). -/

namespace Sys2Proof

/-- The operations of the block. `ARG` and `SPACE` are zero-extended numbers (R106); `wdata` and the
samples of `PROC` are not in the word, they stand on the command port. -/
inductive Instr where
  | nop
  | cfgwr (index : Nat)
  | tblwr (space index : Nat)
  | commit
  | proc (count : Nat)
  | rst
  | rd (space index : Nat)
  | clr
  | wFill
  | wApply
  | wSlide
  | shCalc
  | xReq
  | fbEnergy
  | fbAcc
  | fbSqrt
  | nrApply
  | gcApply
  | lsApply
  | seqEnd
deriving DecidableEq, Repr

/-- The mnemonics of the opcode map (R103, R104). -/
def Instr.mnemonic : Instr → String
  | .nop => "NOP"
  | .cfgwr _ => "CFGWR"
  | .tblwr _ _ => "TBLWR"
  | .commit => "COMMIT"
  | .proc _ => "PROC"
  | .rst => "RST"
  | .rd _ _ => "RD"
  | .clr => "CLR"
  | .wFill => "W.FILL"
  | .wApply => "W.APPLY"
  | .wSlide => "W.SLIDE"
  | .shCalc => "SH.CALC"
  | .xReq => "X.REQ"
  | .fbEnergy => "FB.ENERGY"
  | .fbAcc => "FB.ACC"
  | .fbSqrt => "FB.SQRT"
  | .nrApply => "NR.APPLY"
  | .gcApply => "GC.APPLY"
  | .lsApply => "LS.APPLY"
  | .seqEnd => "SEQ.END"

/-- An instruction's code with the place it comes from: "A decoder tells the two apart by where the word
comes from (port or ROM), never by its bits" (R100). -/
inductive Code where
  | host (w : HostWord)
  | micro (c : MicroCode)
deriving DecidableEq, Repr

/-- A command as the host presents it: the word, the data word `wdata` and, for `PROC`, the samples in
time order, oldest first (R100, R106). -/
structure HostCmd where
  word    : HostWord
  wdata   : DataWord
  samples : List Sample
deriving DecidableEq, Repr

end Sys2Proof
end

