-- ==== Sys2Proof/Machine/State.lean ====
section
/-! DEFINITION. The state of the block as plain data (10_state.md R20 to R60), its reset value
(10_state.md R60, 70_reset_and_hazards.md R380), and the reasons a step can stop. -/

namespace Sys2Proof.Machine

/-- `PHASE` (R21): a 2-bit register whose four values are all named. -/
inductive Phase where
  | unconfigured
  | awaitingFrame
  | frameReady
  | failed
deriving DecidableEq, Repr

/-- The result codes `ERR` can hold (R25, R350); "Codes 7 .. 255 are never written". -/
inductive ErrCode where
  | ok
  | config
  | capacity
  | state
  | illegal
  | range
  | xform
deriving DecidableEq, Repr

/-- The names of the 18 spaces (R30). -/
inductive Space where
  | cfg
  | reg
  | coef
  | inp
  | out
  | spec
  | energy
  | fstart
  | wstart
  | width
  | weight
  | unweight
  | work
  | sig
  | est
  | glut
  | llut
  | feat
deriving DecidableEq, Repr

/-- A space of elements of w bits: (index, element) pairs, indices strictly rising, no element 0; an
unlisted element reads 0, its power-on value (R380; notes/assumptions/18.md). -/
abbrev Memory (w : Nat) := List (Nat × BitVec w)

/-- The scalar registers (R24), space REG. `STATUS` is not stored: its bits 0 and 1 are functions of
`PHASE` (R23, Flags.lean); `featureValid` is its bit 2. -/
structure Regs where
  phase        : Phase
  seq          : BitVec 4
  featureValid : Bool
  err          : ErrCode
  inputUsed    : BitVec 16
  peak         : BitVec 16
  scaleShift   : BitVec 5
  consumed     : BitVec 16
  nfeat        : BitVec 16
deriving DecidableEq, Repr

/-- The configuration registers (R40), space CFG, in index order. -/
structure Cfg where
  size       : BitVec 16
  step       : BitVec 16
  fftSize    : BitVec 16
  nchan      : BitVec 16
  startIndex : BitVec 16
  endIndex   : BitVec 16
  nweight    : BitVec 16
  fbOutShift : BitVec 8
  smoothBits : BitVec 8
  evenSmooth : BitVec 16
  oddSmooth  : BitVec 16
  minRemain  : BitVec 16
  gcEnable   : BitVec 1
  snrShift   : BitVec 8
  logEnable  : BitVec 1
  logShift   : BitVec 8
  corrBits   : BitVec 8
  specSize   : BitVec 16
deriving DecidableEq, Repr

/-- The table spaces the host loads (R30, kind `cfg`). LLUT is a ROM, a constant of Rom.lean. -/
structure Tables where
  coef     : Memory 16
  fstart   : Memory 16
  wstart   : Memory 16
  width    : Memory 16
  weight   : Memory 16
  unweight : Memory 16
  glut     : Memory 16
deriving DecidableEq, Repr

/-- The buffer spaces (R30, kind `buf`). -/
structure Bufs where
  inp    : Memory 16
  out    : Memory 16
  spec   : Memory 16
  energy : Memory 32
  work   : Memory 64
  sig    : Memory 32
  est    : Memory 32
  feat   : Memory 16
deriving DecidableEq, Repr

/-- The command port (R100, R106): the commands the host has still to issue, the data word and the
samples presented with the command being executed, the answer `rdata`, and the count of the `PROC` that
is being executed (none between commands). -/
structure Port where
  queue   : List HostCmd
  wdata   : DataWord
  samples : List Sample
  rdata   : DataWord
  active  : Option Nat
deriving DecidableEq, Repr

/-- Everything the spec gives the block, its command port, and the model's own counter of free values. -/
structure State where
  regs    : Regs
  cfg     : Cfg
  tables  : Tables
  bufs    : Bufs
  port    : Port
  freeCtr : Nat
deriving DecidableEq, Repr

/-- The model's faults. The block itself has none: its error codes are ordinary next states (R350, R359). -/
inductive Fault where
  /-- A register or an element would be written with a value outside its range, "an error of the spec,
  never a silent truncation" (00_scope.md R15). Raised by W.FILL, W.SLIDE, FB.ACC and NR.APPLY in states no
  run reaches (notes/assumptions/13.md). Safe: the model stops where the spec gives no value. -/
  | valueOutside
deriving DecidableEq, Repr

/-- The model's refusals. -/
inductive Refusal where
  /-- An instruction without a meaning yet; raised by no arm of exec. Safe: it stops. -/
  | notModelled (mnemonic : String)
  /-- W.APPLY meets a window product that does not fit 16 bits, which needs a coefficient TBLWR never accepts:
  "must refuse the frame, not pick saturate or wrap" (93_implementation_defined.md U1, 41_window.md R139;
  notes/assumptions/14.md). Safe. -/
  | windowRange
  /-- Raised by the sequencer's fetch: the ROM holds no micro-operation at this SEQ (30_encoding.md R107;
  notes/assumptions/15.md). Safe. -/
  | noMicroOp (seq : Nat)
deriving DecidableEq, Repr

/-- The outcome of a meaning. -/
abbrev Result := Host.Outcome State Fault Refusal

/-- The scalar registers at power-on: 0 (R60, R380). -/
def Regs.reset : Regs where
  phase        := .unconfigured
  seq          := 0
  featureValid := false
  err          := .ok
  inputUsed    := 0
  peak         := 0
  scaleShift   := 0
  consumed     := 0
  nfeat        := 0

/-- The configuration registers at power-on: 0 (R60, R380). -/
def Cfg.reset : Cfg where
  size       := 0
  step       := 0
  fftSize    := 0
  nchan      := 0
  startIndex := 0
  endIndex   := 0
  nweight    := 0
  fbOutShift := 0
  smoothBits := 0
  evenSmooth := 0
  oddSmooth  := 0
  minRemain  := 0
  gcEnable   := 0
  snrShift   := 0
  logEnable  := 0
  logShift   := 0
  corrBits   := 0
  specSize   := 0

/-- The tables at power-on: every element 0 (R60, R380). -/
def Tables.reset : Tables where
  coef     := []
  fstart   := []
  wstart   := []
  width    := []
  weight   := []
  unweight := []
  glut     := []

/-- The buffers at power-on, and after COMMIT: every element 0 (R60, R315, R380). -/
def Bufs.reset : Bufs where
  inp    := []
  out    := []
  spec   := []
  energy := []
  work   := []
  sig    := []
  est    := []
  feat   := []

/-- The command port with nothing presented. DESIGN CHOICE (notes/assumptions/11.md). -/
def Port.reset : Port where
  queue   := []
  wdata   := 0
  samples := []
  rdata   := 0
  active  := none

/-- The machine right after reset: power-on (R380). -/
def State.reset : State where
  regs    := Regs.reset
  cfg     := Cfg.reset
  tables  := Tables.reset
  bufs    := Bufs.reset
  port    := Port.reset
  freeCtr := 0

end Sys2Proof.Machine
end

