-- ==== Sys2Proof/Machine/Ops.lean ====
section
/-! DEFINITION. The shared operations: reading and writing the elements of a space (20_memory.md R74, R78),
the arithmetic primitives of 00_scope.md R14 and R15, the rounded square root of 43_filterbank.md R191, and the
two ways a command ends, by `raise` or carried out (00_scope.md R15, 60_exceptions.md R350 to R359). -/

namespace Sys2Proof.Machine

/-! ### Elements of a space -/

/-- `S[i]`: an element nothing has written holds its power-on value 0 (R15, R380). -/
def Memory.read {w : Nat} : Memory w → Nat → BitVec w
  | [], _ => 0
  | (a, v) :: m, i => if i = a then v else Memory.read m i

/-- Puts a listed element at its place in the rising order, replacing the one at the same index. -/
def Memory.insert {w : Nat} : Memory w → Nat → BitVec w → Memory w
  | [], i, v => [(i, v)]
  | (a, x) :: m, i, v =>
    if i < a then (i, v) :: (a, x) :: m
    else if i = a then (i, v) :: m
    else (a, x) :: Memory.insert m i v

/-- Removes the element at an index from the list. -/
def Memory.erase {w : Nat} : Memory w → Nat → Memory w
  | [], _ => []
  | (a, x) :: m, i => if i = a then Memory.erase m i else (a, x) :: Memory.erase m i

/-- `S[i] <- v` (R15). Writing 0, what an unlisted element reads as, removes the entry. -/
def Memory.write {w : Nat} (m : Memory w) (i : Nat) (v : BitVec w) : Memory w :=
  if v = 0 then Memory.erase m i else Memory.insert m i v

/-- `for k = 0 .. n-1: S[base + k] <- f k`, in ascending order (R77). -/
def Memory.writeRange {w : Nat} (m : Memory w) (base : Nat) : Nat → (Nat → BitVec w) → Memory w
  | 0, _ => m
  | n + 1, f => Memory.write (Memory.writeRange m base n f) (base + n) (f n)

/-- The canonical form above a bound: every index at or above it, rising, no element 0. -/
def Memory.wfFrom {w : Nat} : Nat → Memory w → Bool
  | _, [] => true
  | lo, (a, v) :: m => decide (lo ≤ a) && decide (v ≠ 0) && Memory.wfFrom (a + 1) m

/-- The canonical form: indices strictly rising, no listed element 0. Equal contents are then equal data. -/
def Memory.wf {w : Nat} (m : Memory w) : Bool :=
  Memory.wfFrom 0 m

/-- Every listed element lies inside the space's capacity (R75). -/
def Memory.within {w : Nat} (m : Memory w) (cap : Nat) : Bool :=
  m.all fun c => decide (c.1 < cap)

/-! ### Arithmetic primitives -/

/-- `msb1(x)`: 0 if x = 0, else the 1-based position of the highest set bit (R15). -/
def msb1 (x : Nat) : Nat :=
  if x = 0 then 0 else Nat.log2 x + 1

/-- `flog2(x)` = msb1(x) − 1 for x ≥ 1 (R15). -/
def flog2 (x : Nat) : Nat :=
  msb1 x - 1

/-- `wrap32(v)` = v mod 2^32 (R14). -/
def wrap32 (v : Nat) : Nat :=
  v % 2 ^ 32

/-- Whether a number is in the range of `uN` (R14). -/
def fitsUnsigned (n : Nat) (v : Int) : Bool :=
  decide (0 ≤ v) && decide (v < 2 ^ n)

/-- Whether a number is in the range of `sN` (R14). -/
def fitsSigned (n : Nat) (v : Int) : Bool :=
  decide (-(2 ^ (n - 1)) ≤ v) && decide (v < 2 ^ (n - 1))

/-- Adds to r, from bit k − 1 down to bit 0, each bit with which `ok` still holds: for a downward closed `ok` the
largest number below r + 2^k that satisfies it. -/
def searchBits (ok : Nat → Bool) : Nat → Nat → Nat
  | 0, r => r
  | j + 1, r => searchBits ok j (if ok (r + 2 ^ j) then r + 2 ^ j else r)

/-- floor(√n) for 0 ≤ n < 2^64: the largest 32-bit number whose square is at most n (R191). -/
def isqrt (n : Nat) : Nat :=
  searchBits (fun r => decide (r * r ≤ n)) 32 0

/-- `isqrt_r(n)`, the rounded integer square root with its caps (R191). -/
def isqrtRounded (n : Nat) : Nat :=
  let r := isqrt n
  let cap := if n < 2 ^ 32 then 0xFFFF else 0xFFFFFFFF
  if r < n - r * r ∧ r ≠ cap then r + 1 else r

/-! ### How a command ends -/

/-- The construction failures, codes 1, 2 and 6, "the only failure with a lasting effect" (R351 (a)). -/
def ErrCode.isConstruction : ErrCode → Bool
  | .config => true
  | .capacity => true
  | .xform => true
  | .ok => false
  | .state => false
  | .illegal => false
  | .range => false

/-- The number `ERR` holds (R350). -/
def ErrCode.code : ErrCode → BitVec 8
  | .ok => 0
  | .config => 1
  | .capacity => 2
  | .state => 3
  | .illegal => 4
  | .range => 5
  | .xform => 6

/-- `raise <E>`: `ERR <- E`; for a construction failure `PHASE <- FAILED`; nothing else changes (R15, R350,
R356, R359). The answer `rdata` is 0 (R106, R353, R355). There is no return operation: the next command is
decoded as usual (R362). -/
def raise (e : ErrCode) (s : State) : State :=
  { s with
    regs := { s.regs with
      err := e
      phase := if e.isConstruction then .failed else s.regs.phase }
    port := { s.port with rdata := 0 } }

/-- A command was carried out: `ERR <- OK`, with its answer; "`rdata` of every other command is 0" (R106, R350). -/
def finish (answer : DataWord) (s : State) : State :=
  { s with
    regs := { s.regs with err := .ok }
    port := { s.port with rdata := answer } }

/-- `seq <- k` (R15, R22). -/
def goSeq (k : BitVec 4) (s : State) : State :=
  { s with regs := { s.regs with seq := k } }

/-- The port takes the next command of the host: its data word and its samples are presented (R100, R106). -/
def takeCommand (c : HostCmd) (rest : List HostCmd) (s : State) : State :=
  { s with port := { s.port with queue := rest, wdata := c.wdata, samples := c.samples } }

end Sys2Proof.Machine
end

