-- ==== Sys2Proof/Machine/Flags.lean ====
section
/-! DEFINITION. The flags of the block: the three of `STATUS`, and no other condition code (10_state.md R23). -/

namespace Sys2Proof.Machine

/-- `CONFIGURED` = 1 exactly when `PHASE` is `AWAITING_FRAME` or `FRAME_READY` (R23). -/
def Phase.configured : Phase → Bool
  | .unconfigured => false
  | .awaitingFrame => true
  | .frameReady => true
  | .failed => false

/-- The number the register `PHASE` holds (R21). -/
def Phase.code : Phase → BitVec 2
  | .unconfigured => 0
  | .awaitingFrame => 1
  | .frameReady => 2
  | .failed => 3

/-- `STATUS`: bit 0 `CONFIGURED`, bit 1 `FAILED`, bit 2 `FEATURE_VALID` (R23). -/
def Regs.status (r : Regs) : BitVec 3 :=
  BitVec.ofBool r.featureValid ++ BitVec.ofBool (decide (r.phase = .failed))
    ++ BitVec.ofBool r.phase.configured

end Sys2Proof.Machine
end

