-- ==== Sys2Proof/Machine/Rom.lean ====
section
/-! DEFINITION. The read-only contents of the block: the micro-program (30_encoding.md R105) and the log table
LLUT (46_log_scale.md R286), and the named constants of 00_scope.md R13 with the two open parameters
(42_transform_port.md R162, 46_log_scale.md R285). No command changes any of them
(notes/assumptions/17.md). -/

namespace Sys2Proof.Machine

/-- "The micro-program ROM holds exactly the 12 bytes" (R105). -/
def microRom : List MicroCode :=
  [0x10, 0x11, 0x12, 0x13, 0x14, 0x15, 0x16, 0x17, 0x18, 0x19, 0x1A, 0x1B]

/-- LLUT, entries 0 .. 128 (R286). -/
def llutTable : List Nat :=
  [0, 224, 442, 654, 861, 1063, 1259, 1450, 1636, 1817, 1992, 2163, 2329, 2490, 2646, 2797]
  ++ [2944, 3087, 3224, 3358, 3487, 3611, 3732, 3848, 3960, 4068, 4172, 4272, 4368, 4460, 4549, 4633]
  ++ [4714, 4791, 4864, 4934, 5001, 5063, 5123, 5178, 5231, 5280, 5326, 5368, 5408, 5444, 5477, 5507]
  ++ [5533, 5557, 5578, 5595, 5610, 5622, 5631, 5637, 5640, 5641, 5638, 5633, 5626, 5615, 5602, 5586]
  ++ [5568, 5547, 5524, 5498, 5470, 5439, 5406, 5370, 5332, 5291, 5249, 5203, 5156, 5106, 5054, 5000]
  ++ [4944, 4885, 4825, 4762, 4697, 4630, 4561, 4490, 4416, 4341, 4264, 4184, 4103, 4020, 3935, 3848]
  ++ [3759, 3668, 3575, 3481, 3384, 3286, 3186, 3084, 2981, 2875, 2768, 2659, 2549, 2437, 2323, 2207]
  ++ [2090, 1971, 1851, 1729, 1605, 1480, 1353, 1224, 1094, 963, 830, 695, 559, 421, 282, 142]
  ++ [0]

/-- `LLUT[k]`, a u16 element (R286). -/
def llut (k : Nat) : Nat :=
  llutTable.getD k 0

/-- Fraction bits of a window coefficient (R13, `WINDOW_BITS`). -/
def windowBits : Nat := 12

/-- Fraction bits of the noise-reduction coefficients (R13, `NR_BITS`). -/
def nrBits : Nat := 14

/-- ln 2 in 16 fraction bits (R13, R290, `LOG_COEFF`). -/
def logCoeff : Nat := 45426

/-- The entries of the gain table (R13, `GLUT_SIZE`). -/
def glutSize : Nat := 125

/-- The constant in `CORR_BITS` (R13, `FB_BITS`/2). -/
def fbHalfBits : Nat := 6

/-- The open parameter `SHIFT_BASE`: 14 or 15, which of them is open (R162; notes/assumptions/6.md). -/
def shiftBase : Nat :=
  if Config.shiftBaseLiteral then 15 else 14

/-- The open parameter `LOG_INTERP_SHIFT`: 16 or 9, which of them is open (R285; notes/assumptions/7.md). -/
def logInterpShift : Nat :=
  if Config.logInterpBySegment then 9 else 16

end Sys2Proof.Machine
end

