-- ==== Sys2Proof/Machine/Operands.lean ====
section
/-! DEFINITION. The operands of the commands and micro-operations: space ids and capacities (10_state.md R30),
`MemRead` and `MemWrite` (20_memory.md R78), the legal ranges (10_state.md R40, 47_frontend_commands.md R312, R313),
the samples of the enclosing `PROC` (30_encoding.md R106), and the byte lanes of a host port (20_memory.md R72). -/

namespace Sys2Proof.Machine

/-! ### Spaces -/

/-- The space an id names; ids 0x12 .. 0xFF are reserved (R30, R70). -/
def Space.ofId : Nat → Option Space
  | 0x00 => some .cfg
  | 0x01 => some .reg
  | 0x02 => some .coef
  | 0x03 => some .inp
  | 0x04 => some .out
  | 0x05 => some .spec
  | 0x06 => some .energy
  | 0x07 => some .fstart
  | 0x08 => some .wstart
  | 0x09 => some .width
  | 0x0A => some .weight
  | 0x0B => some .unweight
  | 0x0C => some .work
  | 0x0D => some .sig
  | 0x0E => some .est
  | 0x0F => some .glut
  | 0x10 => some .llut
  | 0x11 => some .feat
  | _ => none

/-- The capacity of a space (R30), given the capacity parameters of R12. -/
def Space.capacity (c : Config.Caps) : Space → Nat
  | .cfg => 18
  | .reg => 9
  | .coef => c.maxSize
  | .inp => c.maxSize
  | .out => c.maxSize
  | .spec => c.maxFft + 2
  | .energy => c.maxFft / 2 + 1
  | .fstart => c.maxChan + 1
  | .wstart => c.maxChan + 1
  | .width => c.maxChan + 1
  | .weight => c.maxWeight
  | .unweight => c.maxWeight
  | .work => c.maxChan + 1
  | .sig => c.maxChan
  | .est => c.maxChan
  | .glut => glutSize
  | .llut => 129
  | .feat => c.maxChan

/-! ### What RD returns -/

/-- The register of space REG at an index (R24), zero-extended. -/
def Regs.read (r : Regs) : Nat → DataWord
  | 0 => r.phase.code.setWidth 64
  | 1 => r.seq.setWidth 64
  | 2 => r.status.setWidth 64
  | 3 => r.err.code.setWidth 64
  | 4 => r.inputUsed.setWidth 64
  | 5 => r.peak.setWidth 64
  | 6 => r.scaleShift.setWidth 64
  | 7 => r.consumed.setWidth 64
  | 8 => r.nfeat.setWidth 64
  | _ => 0

/-- The register of space CFG at an index (R40): zero-extended, `CORR_BITS` (s8) sign-extended. -/
def Cfg.read (g : Cfg) : Nat → DataWord
  | 0 => g.size.setWidth 64
  | 1 => g.step.setWidth 64
  | 2 => g.fftSize.setWidth 64
  | 3 => g.nchan.setWidth 64
  | 4 => g.startIndex.setWidth 64
  | 5 => g.endIndex.setWidth 64
  | 6 => g.nweight.setWidth 64
  | 7 => g.fbOutShift.setWidth 64
  | 8 => g.smoothBits.setWidth 64
  | 9 => g.evenSmooth.setWidth 64
  | 10 => g.oddSmooth.setWidth 64
  | 11 => g.minRemain.setWidth 64
  | 12 => g.gcEnable.setWidth 64
  | 13 => g.snrShift.setWidth 64
  | 14 => g.logEnable.setWidth 64
  | 15 => g.logShift.setWidth 64
  | 16 => g.corrBits.signExtend 64
  | 17 => g.specSize.setWidth 64
  | _ => 0

/-- `MemRead(S, i)`: the element, zero-extended (unsigned types) or sign-extended (signed types) to 64
bits (R78, R106). -/
def memRead (s : State) (sp : Space) (i : Nat) : DataWord :=
  match sp with
  | .cfg => s.cfg.read i
  | .reg => s.regs.read i
  | .coef => (Memory.read s.tables.coef i).signExtend 64
  | .inp => (Memory.read s.bufs.inp i).signExtend 64
  | .out => (Memory.read s.bufs.out i).signExtend 64
  | .spec => (Memory.read s.bufs.spec i).signExtend 64
  | .energy => (Memory.read s.bufs.energy i).setWidth 64
  | .fstart => (Memory.read s.tables.fstart i).setWidth 64
  | .wstart => (Memory.read s.tables.wstart i).setWidth 64
  | .width => (Memory.read s.tables.width i).setWidth 64
  | .weight => (Memory.read s.tables.weight i).signExtend 64
  | .unweight => (Memory.read s.tables.unweight i).signExtend 64
  | .work => (Memory.read s.bufs.work i).setWidth 64
  | .sig => (Memory.read s.bufs.sig i).setWidth 64
  | .est => (Memory.read s.bufs.est i).setWidth 64
  | .glut => (Memory.read s.tables.glut i).signExtend 64
  | .llut => BitVec.ofNat 64 (llut i)
  | .feat => (Memory.read s.bufs.feat i).setWidth 64

/-! ### What CFGWR and TBLWR write -/

/-- `wdata` read as a two's-complement s64 number (R106). -/
def Port.value (p : Port) : Int :=
  p.wdata.toInt

/-- The type of CFG[i] in bits, for the writable indices 0 .. 15 (R40, R312): u16, u8 or u1. -/
def cfgTypeBits : Nat → Nat
  | 7 => 8
  | 8 => 8
  | 12 => 1
  | 13 => 8
  | 14 => 1
  | 15 => 8
  | _ => 16

/-- `CFG[i] <- v` for a writable index and a value in the type's range (R312); any other index is left alone. -/
def Cfg.write (g : Cfg) (i : Nat) (v : Int) : Cfg :=
  match i with
  | 0 => { g with size := BitVec.ofInt 16 v }
  | 1 => { g with step := BitVec.ofInt 16 v }
  | 2 => { g with fftSize := BitVec.ofInt 16 v }
  | 3 => { g with nchan := BitVec.ofInt 16 v }
  | 4 => { g with startIndex := BitVec.ofInt 16 v }
  | 5 => { g with endIndex := BitVec.ofInt 16 v }
  | 6 => { g with nweight := BitVec.ofInt 16 v }
  | 7 => { g with fbOutShift := BitVec.ofInt 8 v }
  | 8 => { g with smoothBits := BitVec.ofInt 8 v }
  | 9 => { g with evenSmooth := BitVec.ofInt 16 v }
  | 10 => { g with oddSmooth := BitVec.ofInt 16 v }
  | 11 => { g with minRemain := BitVec.ofInt 16 v }
  | 12 => { g with gcEnable := BitVec.ofInt 1 v }
  | 13 => { g with snrShift := BitVec.ofInt 8 v }
  | 14 => { g with logEnable := BitVec.ofInt 1 v }
  | 15 => { g with logShift := BitVec.ofInt 8 v }
  | _ => g

/-- The legal range of an element of a space TBLWR may write: COEF, WEIGHT, UNWEIGHT 0 .. 4096; FSTART, WSTART,
WIDTH 0 .. 32767; GLUT −32768 .. 32767; no range for any other space (R313). -/
def Space.tableRange : Space → Option (Int × Int)
  | .cfg => none
  | .reg => none
  | .coef => some (0, 4096)
  | .inp => none
  | .out => none
  | .spec => none
  | .energy => none
  | .fstart => some (0, 32767)
  | .wstart => some (0, 32767)
  | .width => some (0, 32767)
  | .weight => some (0, 4096)
  | .unweight => some (0, 4096)
  | .work => none
  | .sig => none
  | .est => none
  | .glut => some (-32768, 32767)
  | .llut => none
  | .feat => none

/-- `S[i] <- v` for a table space (R313, R78 `MemWrite`); any other space is left alone. -/
def Tables.write (t : Tables) (sp : Space) (i : Nat) (v : Int) : Tables :=
  match sp with
  | .coef => { t with coef := Memory.write t.coef i (BitVec.ofInt 16 v) }
  | .fstart => { t with fstart := Memory.write t.fstart i (BitVec.ofInt 16 v) }
  | .wstart => { t with wstart := Memory.write t.wstart i (BitVec.ofInt 16 v) }
  | .width => { t with width := Memory.write t.width i (BitVec.ofInt 16 v) }
  | .weight => { t with weight := Memory.write t.weight i (BitVec.ofInt 16 v) }
  | .unweight => { t with unweight := Memory.write t.unweight i (BitVec.ofInt 16 v) }
  | .glut => { t with glut := Memory.write t.glut i (BitVec.ofInt 16 v) }
  | .cfg => t
  | .reg => t
  | .inp => t
  | .out => t
  | .spec => t
  | .energy => t
  | .work => t
  | .sig => t
  | .est => t
  | .llut => t
  | .feat => t

/-! ### The samples of the enclosing PROC -/

/-- The sample count of the `PROC` being executed (R131, R317). -/
def Port.count (p : Port) : Nat :=
  p.active.getD 0

/-- `samples[k]` of the enclosing `PROC` (R106, R131). A sample the host counted and did not present has no
stated value: a free value (R387 (a); notes/assumptions/10.md). -/
def sampleAt (s : State) (k : Nat) : Sample :=
  match s.port.samples[k]? with
  | some v => v
  | none => Config.freeSample (s.freeCtr + (k - s.port.samples.length))

/-! ### Byte lanes -/

/-- The bytes of a value on the lanes of a host port, bits 7:0 on the lowest-numbered lane (R72). -/
def byteLanes : Nat → Nat → List (BitVec 8)
  | 0, _ => []
  | n + 1, v => BitVec.ofNat 8 (v % 256) :: byteLanes n (v / 256)

/-- A sample assembled from a PCM byte stream, low byte first (R72). -/
def sampleOfBytes (low high : BitVec 8) : Sample :=
  high ++ low

end Sys2Proof.Machine
end

