-- ==== Sys2Proof/Machine/Commands.lean ====
section
/-! DEFINITION. The eight host commands (47_frontend_commands.md R310 to R330). Each checks, in this order, the
phase, the operands and, for `COMMIT`, the configuration (R335); decoding comes before, in the step. -/

namespace Sys2Proof.Machine

/-! ### NOP -/

/-- `NOP`: "`ERR <- OK`. Nothing else changes" (R311). -/
def execNop (s : State) : Result :=
  .next (finish 0 s)

/-! ### CFGWR -/

/-- `CFGWR`: in `UNCONFIGURED` only, an index up to 15, a value in the register's type range (R312). -/
def execCfgwr (index : Nat) (s : State) : Result :=
  if s.regs.phase ≠ .unconfigured then .next (raise .state s)
  else if 15 < index then .next (raise .range s)
  else if fitsUnsigned (cfgTypeBits index) s.port.value then
    .next (finish 0 { s with cfg := s.cfg.write index s.port.value })
  else .next (raise .range s)

/-! ### TBLWR -/

/-- `TBLWR` for given capacities: phase, space, index, value, in this order (R313, R358). -/
def tblwrWith (c : Config.Caps) (space index : Nat) (s : State) : State :=
  if s.regs.phase ≠ .unconfigured then raise .state s
  else
    match Space.ofId space with
    | none => raise .range s
    | some sp =>
      match sp.tableRange with
      | none => raise .range s
      | some (lo, hi) =>
        if sp.capacity c ≤ index then raise .range s
        else if lo ≤ s.port.value ∧ s.port.value ≤ hi then
          finish 0 { s with tables := s.tables.write sp index s.port.value }
        else raise .range s

/-- `TBLWR` (R313). -/
def execTblwr (space index : Nat) (s : State) : Result :=
  .next (tblwrWith Config.caps space index s)

/-! ### COMMIT -/

/-- A power of two (R314 check 1). -/
def isPowerOfTwo (n : Nat) : Bool :=
  decide (n = 2 ^ flog2 n)

/-- Check 11: every band's table range lies inside the tables (R314, R200 (c)). -/
def bandsFit (g : Cfg) (t : Tables) : Bool :=
  (List.range (g.nchan.toNat + 1)).all fun b =>
    decide ((Memory.read t.wstart b).toNat + (Memory.read t.width b).toNat ≤ g.nweight.toNat)

/-- The 16 checks of `COMMIT` in their order, each with the code it raises (R314). For `NCHAN` = 0 R200 says
`E_CAPACITY` while R314 (check 7), R350 and V71 say `E_CONFIG`: `E_CONFIG` here, DESIGN CHOICE
(notes/assumptions/27.md). -/
def commitChecks (c : Config.Caps) (init : Nat → Bool) (g : Cfg) (t : Tables) : List (Bool × ErrCode) :=
  [ (decide (2 ≤ g.fftSize.toNat) && isPowerOfTwo g.fftSize.toNat, .config),
    (decide (g.fftSize.toNat ≤ c.maxFft), .capacity),
    (decide (1 ≤ g.size.toNat), .config),
    (decide (g.size.toNat ≤ c.maxSize), .capacity),
    (decide (g.size.toNat ≤ g.fftSize.toNat), .config),
    (decide (1 ≤ g.step.toNat) && decide (g.step.toNat ≤ g.size.toNat), .config),
    (decide (1 ≤ g.nchan.toNat), .config),
    (decide (g.nchan.toNat ≤ c.maxChan), .capacity),
    (decide (g.nweight.toNat ≤ c.maxWeight), .capacity),
    (decide (g.endIndex.toNat < g.fftSize.toNat / 2 + 1), .config),
    (bandsFit g t, .config),
    (decide (g.smoothBits.toNat ≤ 31), .config),
    (decide (g.evenSmooth.toNat ≤ 16384) && decide (g.oddSmooth.toNat ≤ 16384)
      && decide (g.minRemain.toNat ≤ 16384), .config),
    (decide (g.snrShift.toNat ≤ 63), .config),
    (decide (g.logShift.toNat ≤ 11), .config),
    (init g.fftSize.toNat, .xform) ]

/-- The code of the first check that fails (R314, R358). -/
def firstFailure : List (Bool × ErrCode) → Option ErrCode
  | [] => none
  | (passed, e) :: rest => if passed then firstFailure rest else some e

/-- `CORR_BITS` = msb1(FFT_SIZE) − 1 − 6 (R316). -/
def corrBitsOf (fft : Nat) : Int :=
  (msb1 fft : Int) - 1 - fbHalfBits

/-- The configuration with the two registers `COMMIT` derives (R315, R316). -/
def Cfg.withDerived (g : Cfg) : Cfg :=
  { g with
    specSize := BitVec.ofNat 16 (g.fftSize.toNat / 2 + 1)
    corrBits := BitVec.ofInt 8 (corrBitsOf g.fftSize.toNat) }

/-- The effects of a `COMMIT` whose checks pass: the derived registers, every buffer and every register
zeroed, the configuration kept (R315). -/
def constructed (s : State) : State :=
  finish 0 { s with
    regs := { Regs.reset with phase := .awaitingFrame }
    cfg := s.cfg.withDerived
    bufs := Bufs.reset }

/-- `COMMIT` for given capacities and a given `XfmInit` (R314, R315, R356). -/
def commitWith (c : Config.Caps) (init : Nat → Bool) (s : State) : State :=
  if s.regs.phase ≠ .unconfigured then raise .state s
  else
    match firstFailure (commitChecks c init s.cfg s.tables) with
    | some e => raise e s
    | none => constructed s

/-- `COMMIT` (R314 to R316). -/
def execCommit (s : State) : Result :=
  .next (commitWith Config.caps Config.xfmInit s)

/-! ### PROC -/

/-- `PROC`: the old view dies, `ERR <- OK`, and the micro-program starts at index 0 with this count (R317).
The micro-operations are steps of their own; the command ends with `SEQ.END` (notes/assumptions/3.md). -/
def execProc (count : Nat) (s : State) : Result :=
  if s.regs.phase ≠ .awaitingFrame then .next (raise .state s)
  else .next { s with
    regs := { s.regs with featureValid := false, nfeat := 0, err := .ok, seq := 0 }
    port := { s.port with rdata := 0, active := some count } }

/-! ### RST -/

/-- The history `RST` clears (R322): Window, Transform, Filterbank, Noise Reduction, the view. The request to
XF to zero its own buffer changes nothing of the block (R168). -/
def historyCleared (s : State) : State :=
  { s with
    regs := { s.regs with inputUsed := 0, peak := 0, featureValid := false, nfeat := 0, seq := 0 }
    bufs := { s.bufs with inp := [], out := [], spec := [], work := [], est := [] } }

/-- `RST` (R322). -/
def execRst (s : State) : Result :=
  if s.regs.phase ≠ .awaitingFrame then .next (raise .state s)
  else .next (finish 0 (historyCleared s))

/-! ### RD -/

/-- `RD` for given capacities: any space, in any phase, with no side effect but `ERR` (R330). -/
def rdWith (c : Config.Caps) (space index : Nat) (s : State) : State :=
  match Space.ofId space with
  | none => raise .range s
  | some sp =>
    if sp.capacity c ≤ index then raise .range s
    else finish (memRead s sp index) s

/-- `RD` (R330). -/
def execRd (space index : Nat) (s : State) : Result :=
  .next (rdWith Config.caps space index s)

/-! ### CLR -/

/-- `CLR`: "every register and every space except LLUT takes its power-on value" (R324, R381), from any phase.
What the host has still to issue is not the block's and stays (notes/assumptions/19.md). -/
def execClr (s : State) : Result :=
  .next (finish 0 { State.reset with port := s.port, freeCtr := s.freeCtr })

end Sys2Proof.Machine
end

