-- ==== Sys2Proof/Machine/Filterbank.lean ====
section
/-! DEFINITION. Unit FB, the mel filterbank accumulator: `FB.ENERGY`, `FB.ACC`, `FB.SQRT` (43_filterbank.md
R180 to R196). -/

namespace Sys2Proof.Machine

/-- The energy of bin k: the squared magnitude inside START_INDEX .. END_INDEX − 1, 0 outside (R181, R182). -/
def binEnergy (s : State) (k : Nat) : Nat :=
  if s.cfg.startIndex.toNat ≤ k ∧ k < s.cfg.endIndex.toNat then
    (Memory.read s.bufs.spec (2 * k)).toInt.natAbs ^ 2 + (Memory.read s.bufs.spec (2 * k + 1)).toInt.natAbs ^ 2
  else 0

/-- `FB.ENERGY` (R181). -/
def execFbEnergy (s : State) : Result :=
  .next { s with
    regs := { s.regs with seq := 6 }
    bufs := { s.bufs with
      energy := Memory.writeRange s.bufs.energy 0 s.cfg.specSize.toNat
        (fun k => BitVec.ofNat 32 (binEnergy s k)) } }

/-- The energy `FB.ACC` reads at a bin index: an index at or past `SPEC_SIZE` reads as 0 (R186). -/
def energyAt (s : State) (k : Nat) : Nat :=
  if k < s.cfg.specSize.toNat then (Memory.read s.bufs.energy k).toNat else 0

/-- The inner loop of `FB.ACC` over the first n entries of band b: the two accumulators (`wacc`, `uacc`),
`wacc` starting from the carry (R185). -/
def bandLoop (s : State) (b : Nat) (carry : Int) : Nat → Int × Int
  | 0 => (carry, 0)
  | j + 1 =>
    let acc := bandLoop s b carry j
    let e := (energyAt s ((Memory.read s.tables.fstart b).toNat + j) : Int)
    let t := (Memory.read s.tables.wstart b).toNat + j
    (acc.1 + (Memory.read s.tables.weight t).toInt * e, acc.2 + (Memory.read s.tables.unweight t).toInt * e)

/-- The outer loop of `FB.ACC`: band b's sum with the carry the band before left, and the carry it leaves:
"this band's unweights open the next band's sum" (R185). -/
def bandAcc (s : State) : Nat → Int × Int
  | 0 => bandLoop s 0 0 (Memory.read s.tables.width 0).toNat
  | b + 1 => bandLoop s (b + 1) (bandAcc s b).2 (Memory.read s.tables.width (b + 1)).toNat

/-- `FB.ACC`: WORK[0 .. NCHAN] (R185). A sum that does not fit u64 is outside the element (R15); from tables
TBLWR accepts and energies FB.ENERGY writes there is none (R188). -/
def execFbAcc (s : State) : Result :=
  if (List.range (s.cfg.nchan.toNat + 1)).all (fun b => fitsUnsigned 64 (bandAcc s b).1) then
    .next { s with
      regs := { s.regs with seq := 7 }
      bufs := { s.bufs with
        work := Memory.writeRange s.bufs.work 0 (s.cfg.nchan.toNat + 1)
          (fun b => BitVec.ofInt 64 (bandAcc s b).1) } }
  else .fault .valueOutside

/-- Channel i after the square root: from WORK[i + 1], the root first, then the shift (R190, R192, R196). -/
def channelRoot (s : State) (i : Nat) : Nat :=
  isqrtRounded (Memory.read s.bufs.work (i + 1)).toNat / 2 ^ s.regs.scaleShift.toNat

/-- `FB.SQRT` (R190). -/
def execFbSqrt (s : State) : Result :=
  .next { s with
    regs := { s.regs with seq := 8 }
    bufs := { s.bufs with
      sig := Memory.writeRange s.bufs.sig 0 s.cfg.nchan.toNat
        (fun i => BitVec.ofNat 32 (channelRoot s i)) } }

end Sys2Proof.Machine
end

