-- ==== Sys2Proof/Machine/GainControl.lean ====
section
/-! DEFINITION. Unit GC, the gain LUT compressor: `GC.APPLY` (45_gain_control.md R251 to R263). -/

namespace Sys2Proof.Machine

/-- An entry of the gain table as a number (R256). -/
def glutAt (t : Tables) (i : Nat) : Int :=
  (Memory.read t.glut i).toInt

/-- The 10 bits of x just below its leading one, x aligned so that its leading one sits at bit 10 (R258). -/
def gainFraction (x : Nat) : Nat :=
  (if msb1 x < 11 then x * 2 ^ (11 - msb1 x) else x / 2 ^ (msb1 x - 11)) % 1024

/-- The interpolation of `Wdf` at a table base, before `sext_16` (R258). The arithmetic shifts are floors. -/
def interpolated (t : Tables) (base frac : Nat) : Int :=
  ((glutAt t (base + 2) * frac / 2 ^ 5 + glutAt t (base + 1) * 32) * frac + 16384) / 2 ^ 15 + glutAt t base

/-- `Wdf(x)` (R258): the gain, s16; the last `sext_16` keeps the low 16 bits (R259). -/
def wdf (t : Tables) (x : Nat) : BitVec 16 :=
  if x ≤ 2 then Memory.read t.glut x
  else BitVec.ofInt 16 (interpolated t (4 * msb1 x - 6) (gainFraction x))

/-- `Shrink(x)` (R262). -/
def shrink (x : Nat) : Nat :=
  if x < 8192 then x * x / 2 ^ 20 else x / 2 ^ 6 - 64

/-- `g`: the gain as an unsigned 32-bit number, a negative gain becoming 2^32 + g (R251, R253). -/
def gainOf (s : State) (i : Nat) : Nat :=
  ((wdf s.tables (Memory.read s.bufs.est i).toNat).signExtend 32).toNat

/-- `snr`: the product shifted by `SNR_SHIFT`, its low 32 bits (R251, R254). -/
def signalToNoise (s : State) (i : Nat) : Nat :=
  wrap32 ((Memory.read s.bufs.sig i).toNat * gainOf s i / 2 ^ s.cfg.snrShift.toNat)

/-- `GC.APPLY`: with `GC_ENABLE` = 0 it writes nothing but `SEQ` (R251, R252). -/
def execGcApply (s : State) : Result :=
  if s.cfg.gcEnable = 1 then
    .next (goSeq 10 { s with
      bufs := { s.bufs with
        sig := Memory.writeRange s.bufs.sig 0 s.cfg.nchan.toNat
          (fun i => BitVec.ofNat 32 (shrink (signalToNoise s i))) } })
  else .next (goSeq 10 s)

end Sys2Proof.Machine
end

