-- ==== Sys2Proof/Machine/LogScale.lean ====
section
/-! DEFINITION. Unit LS, the fixed-point log scaler: `LS.APPLY` (46_log_scale.md R281 to R293). -/

namespace Sys2Proof.Machine

/-- The mantissa below the leading one, scaled to 16 fraction bits (R285). -/
def mantissaFraction (v n : Nat) : Nat :=
  if n < 16 then (v - 2 ^ n) * 2 ^ (16 - n) else (v - 2 ^ n) / 2 ^ (n - 16)

/-- `Log2Frac(v, n)` for a given `LOG_INTERP_SHIFT`; `rel` is a signed product under an arithmetic shift (R285). -/
def log2Frac (interp v n : Nat) : Int :=
  let frac := mantissaFraction v n
  let seg := frac / 2 ^ 9
  let c0 := (llut seg : Int)
  let c1 := (llut (seg + 1) : Int)
  (frac : Int) + c0 + (c1 - c0) * ((frac : Int) - 512 * seg) / 2 ^ interp

/-- `LogScaled(v)` for v ≥ 2: the natural logarithm scaled by 2^`LOG_SHIFT`, rounded (R284, R290, R291). -/
def logScaled (interp logShift v : Nat) : Nat :=
  let n := msb1 v - 1
  let l2 := ((n : Int) * 65536 + log2Frac interp v n).toNat
  let le := (logCoeff * l2 + 32768) / 2 ^ 16
  (le * 2 ^ logShift + 32768) / 2 ^ 16

/-- The correction shift: right by the magnitude of a negative count, else left keeping 32 bits (R282). -/
def corrected (corr : Int) (v : Nat) : Nat :=
  if corr < 0 then v / 2 ^ corr.natAbs else wrap32 (v * 2 ^ corr.natAbs)

/-- A feature before saturation (R281, R283, R293): with `LOG_ENABLE` = 0 the signal itself. -/
def featureValue (interp : Nat) (g : Cfg) (sig : Nat) : Nat :=
  if g.logEnable = 1 then
    let v := corrected g.corrBits.toInt sig
    if 1 < v then logScaled interp g.logShift.toNat v else 0
  else sig

/-- `LS.APPLY` for a given `LOG_INTERP_SHIFT`: every feature saturated to 65535 (R281, R292). -/
def lsApplyWith (interp : Nat) (s : State) : State :=
  { s with
    regs := { s.regs with seq := 11 }
    bufs := { s.bufs with
      feat := Memory.writeRange s.bufs.feat 0 s.cfg.nchan.toNat
        (fun i => BitVec.ofNat 16 (min (featureValue interp s.cfg (Memory.read s.bufs.sig i).toNat) 65535)) } }

/-- `LS.APPLY` (R281). -/
def execLsApply (s : State) : Result :=
  .next (lsApplyWith logInterpShift s)

end Sys2Proof.Machine
end

