-- ==== Sys2Proof/Machine/NoiseReduction.lean ====
section
/-! DEFINITION. Unit NR, the adaptive noise floor estimator: `NR.APPLY` (44_noise_reduction.md R231 to R238). -/

namespace Sys2Proof.Machine

/-- The smoothing coefficient of a channel: even channels `EVEN_SMOOTH`, odd ones `ODD_SMOOTH` (R232). -/
def smoothingOf (g : Cfg) (i : Nat) : Nat :=
  if i % 2 = 0 then g.evenSmooth.toNat else g.oddSmooth.toNat

/-- `up`: the signal scaled up by `SMOOTH_BITS`, its low 32 bits (R231, R237). -/
def scaledUp (s : State) (i : Nat) : Nat :=
  wrap32 ((Memory.read s.bufs.sig i).toNat * 2 ^ s.cfg.smoothBits.toNat)

/-- `e` before the clamp: the blend of the scaled signal with the running estimate (R231). -/
def blended (s : State) (i : Nat) : Nat :=
  (scaledUp s i * smoothingOf s.cfg i
    + (Memory.read s.bufs.est i).toNat * (2 ^ nrBits - smoothingOf s.cfg i)) / 2 ^ nrBits

/-- `fl`: the configured fraction of the unscaled signal (R231). -/
def noiseFloor (s : State) (i : Nat) : Nat :=
  (Memory.read s.bufs.sig i).toNat * s.cfg.minRemain.toNat / 2 ^ nrBits

/-- `sub`: the signal less the clamped estimate, shifted back (R231, R234). -/
def subtracted (s : State) (i : Nat) : Nat :=
  (scaledUp s i - min (blended s i) (scaledUp s i)) / 2 ^ s.cfg.smoothBits.toNat

/-- The three fractions are at most 1.0, as `COMMIT` enforces; a coefficient above it would make
16384 − sm negative, "which the document's unsigned arithmetic gives no meaning" (R236). -/
def fractionsLegal (g : Cfg) : Bool :=
  decide (g.evenSmooth.toNat ≤ 2 ^ nrBits) && decide (g.oddSmooth.toNat ≤ 2 ^ nrBits)
    && decide (g.minRemain.toNat ≤ 2 ^ nrBits)

/-- `NR.APPLY`: stores the blend before the clamp in EST and the larger of `sub` and `fl` in SIG (R231, R233). -/
def execNrApply (s : State) : Result :=
  if fractionsLegal s.cfg then
    .next { s with
      regs := { s.regs with seq := 9 }
      bufs := { s.bufs with
        sig := Memory.writeRange s.bufs.sig 0 s.cfg.nchan.toNat
          (fun i => BitVec.ofNat 32 (max (subtracted s i) (noiseFloor s i)))
        est := Memory.writeRange s.bufs.est 0 s.cfg.nchan.toNat
          (fun i => BitVec.ofNat 32 (blended s i)) } }
  else .fault .valueOutside

end Sys2Proof.Machine
end

