-- ==== Sys2Proof/WellFormed.lean ====
section
/-! DEFINITION. Which instructions fit their format: an index or a count is "0 .. 65535", a space id is
the 8-bit field 23:16 (30_encoding.md R101, R106); and which commands the host may present: the samples
of `PROC` are `ARG` values (R106), no other command carries samples (R100). -/

namespace Sys2Proof

/-- The instruction's operands fit the fields of format H; a micro-operation has no operand fields (R100). -/
def Instr.wellFormed : Instr → Bool
  | .nop => true
  | .cfgwr i => decide (i < 65536)
  | .tblwr sp i => decide (sp < 256) && decide (i < 65536)
  | .commit => true
  | .proc n => decide (n < 65536)
  | .rst => true
  | .rd sp i => decide (sp < 256) && decide (i < 65536)
  | .clr => true
  | .wFill => true
  | .wApply => true
  | .wSlide => true
  | .shCalc => true
  | .xReq => true
  | .fbEnergy => true
  | .fbAcc => true
  | .fbSqrt => true
  | .nrApply => true
  | .gcApply => true
  | .lsApply => true
  | .seqEnd => true

/-- The presented command keeps R106 and R387 (a): a `PROC` word comes with exactly `ARG` samples, any
other word with none. -/
def HostCmd.wellFormed (c : HostCmd) : Bool :=
  if c.word.toNat / 2 ^ 16 = 0x0400 then c.samples.length == c.word.toNat % 2 ^ 16
  else c.samples.isEmpty

end Sys2Proof
end

