-- ==== Sys2Proof/Decode.lean ====
section
/-! DEFINITION. The decoder, total on any word and rejecting by name (30_encoding.md R101 to R104, R107),
and the encoder written from the same tables. -/

namespace Sys2Proof

/-- Why a word is no instruction. A host word is illegal for one of the first three reasons (R107); the
last is a ROM byte that is no micro-operation (R107). -/
inductive DecodeError where
  /-- `OP` ≥ 0x08 (R107 (a)) -/
  | reservedOp (op : Nat)
  /-- `SPACE` must be 0x00 for this command (R101, R107 (b)) -/
  | spaceNotZero
  /-- `ARG` must be 0 for this command (R101, R107 (b)) -/
  | argNotZero
  /-- the byte is not one of 0x10 .. 0x1B (R105, R107) -/
  | notMicroOp (code : Nat)
deriving DecidableEq, Repr

/-- `w[hi:lo]`, the field of `w` from bit hi down to bit lo, both included, read as an unsigned number (R14). -/
def field {n : Nat} (w : BitVec n) (hi lo : Nat) : Nat :=
  w.toNat / 2 ^ lo % 2 ^ (hi + 1 - lo)

/-- A command with no operands: `SPACE` and `ARG` must be zero (R101). -/
def bareCommand (space arg : Nat) (i : Instr) : Except DecodeError Instr :=
  if space ≠ 0 then .error .spaceNotZero
  else if arg ≠ 0 then .error .argNotZero
  else .ok i

/-- A command with an `ARG` operand only: `SPACE` must be zero (R101). -/
def argCommand (space : Nat) (i : Instr) : Except DecodeError Instr :=
  if space ≠ 0 then .error .spaceNotZero else .ok i

/-- Decodes a host word (R101, R103, R107). -/
def decodeHost (w : HostWord) : Except DecodeError Instr :=
  let space := field w 23 16
  let arg := field w 15 0
  match field w 31 24 with
  | 0x00 => bareCommand space arg .nop
  | 0x01 => argCommand space (.cfgwr arg)
  | 0x02 => .ok (.tblwr space arg)
  | 0x03 => bareCommand space arg .commit
  | 0x04 => argCommand space (.proc arg)
  | 0x05 => bareCommand space arg .rst
  | 0x06 => .ok (.rd space arg)
  | 0x07 => bareCommand space arg .clr
  | op => .error (.reservedOp op)

/-- Decodes a micro-operation code: bits 7:4 are 0b0001, bits 3:0 the index k (R102, R104). -/
def decodeMicro (c : MicroCode) : Except DecodeError Instr :=
  if field c 7 4 ≠ 1 then .error (.notMicroOp c.toNat)
  else
    match field c 3 0 with
    | 0 => .ok .wFill
    | 1 => .ok .wApply
    | 2 => .ok .wSlide
    | 3 => .ok .shCalc
    | 4 => .ok .xReq
    | 5 => .ok .fbEnergy
    | 6 => .ok .fbAcc
    | 7 => .ok .fbSqrt
    | 8 => .ok .nrApply
    | 9 => .ok .gcApply
    | 10 => .ok .lsApply
    | 11 => .ok .seqEnd
    | _ => .error (.notMicroOp c.toNat)

/-- The decoder: a word of the port by format H, a byte of the ROM by format U (R100). -/
def decode : Code → Except DecodeError Instr
  | .host w => decodeHost w
  | .micro c => decodeMicro c

/-- The host word with the three fields of R101. -/
def hostWord (op space arg : Nat) : HostWord :=
  BitVec.ofNat 32 (op * 2 ^ 24 + space * 2 ^ 16 + arg)

/-- The code of micro-operation k is 0x10 + k (R102). -/
def microCode (k : Nat) : MicroCode :=
  BitVec.ofNat 8 (0x10 + k)

/-- The encoder (R101 to R104). -/
def encode : Instr → Code
  | .nop => .host (hostWord 0x00 0 0)
  | .cfgwr i => .host (hostWord 0x01 0 i)
  | .tblwr sp i => .host (hostWord 0x02 sp i)
  | .commit => .host (hostWord 0x03 0 0)
  | .proc n => .host (hostWord 0x04 0 n)
  | .rst => .host (hostWord 0x05 0 0)
  | .rd sp i => .host (hostWord 0x06 sp i)
  | .clr => .host (hostWord 0x07 0 0)
  | .wFill => .micro (microCode 0)
  | .wApply => .micro (microCode 1)
  | .wSlide => .micro (microCode 2)
  | .shCalc => .micro (microCode 3)
  | .xReq => .micro (microCode 4)
  | .fbEnergy => .micro (microCode 5)
  | .fbAcc => .micro (microCode 6)
  | .fbSqrt => .micro (microCode 7)
  | .nrApply => .micro (microCode 8)
  | .gcApply => .micro (microCode 9)
  | .lsApply => .micro (microCode 10)
  | .seqEnd => .micro (microCode 11)

/-- What the decoder reads from an opcode-table word of `nbits` bits: format H is 32 bits, format U is 8
(R100 to R102); no other length exists. -/
def decodeTableWord (nbits w : Nat) : Option Instr :=
  match nbits with
  | 32 => (decodeHost (BitVec.ofNat 32 w)).toOption
  | 8 => (decodeMicro (BitVec.ofNat 8 w)).toOption
  | _ => none

end Sys2Proof
end

