-- ==== Sys2Proof/Machine/Sequencer.lean ====
section
/-! DEFINITION. Unit SEQ: `SEQ.END` (47_frontend_commands.md R319), the fetch of the next micro-operation from the
ROM (R317, R318), and the placing of an instruction where the machine fetches it. -/

namespace Sys2Proof.Machine

/-- `SEQ.END`: publishes the features when a frame was produced, and the `PROC` returns (R319). -/
def execSeqEnd (s : State) : Result :=
  .next { s with
    regs :=
      if s.regs.phase = .frameReady then
        { s.regs with nfeat := s.cfg.nchan, featureValid := true, phase := .awaitingFrame, seq := 0 }
      else { s.regs with seq := 0 }
    port := { s.port with active := none } }

/-- `u <- ROM[SEQ]`, decoded (R317, R318); none where the ROM holds no micro-operation (R107). -/
def fetchMicro (seq : BitVec 4) : Option Instr :=
  match microRom[seq.toNat]? with
  | none => none
  | some c => (decodeMicro c).toOption

/-- The index at which the ROM holds a code; 15, where it holds none, for a code it does not hold (R105). -/
def romIndex (c : MicroCode) : BitVec 4 :=
  match microRom.findIdx? (· == c) with
  | some k => BitVec.ofNat 4 k
  | none => 15

/-- The command the host presents for a word whose operands beyond the word are all zero: `wdata` 0 and, for
`PROC`, `ARG` zero samples (R106). -/
def plainCommand (w : HostWord) : HostCmd where
  word    := w
  wdata   := 0
  samples := if field w 31 16 = 0x0400 then List.replicate (field w 15 0) 0 else []

/-- The state in which a host word is the next command of an idle block. -/
def State.presentWord (s : State) (w : HostWord) : State :=
  { s with port := { s.port with queue := plainCommand w :: s.port.queue, active := none } }

/-- The state in which a `PROC` is being executed and `SEQ` stands at a micro-operation code of the ROM. -/
def State.selectMicro (s : State) (c : MicroCode) : State :=
  { s with
    regs := { s.regs with seq := romIndex c }
    port := { s.port with active := some s.port.count } }

end Sys2Proof.Machine
end

