-- ==== Sys2Proof/Machine/Transform.lean ====
section
/-! DEFINITION. The port to the transform collaborator: `SH.CALC` and `X.REQ` (42_transform_port.md R161 to R166). -/

namespace Sys2Proof.Machine

/-- The scale shift for a peak, for a given `SHIFT_BASE`: 15 for a silent frame, else the base less
floor(log2 PEAK), never negative (R161, R163). -/
def scaleShiftFor (base peak : Nat) : Nat :=
  if peak = 0 then 15 else base - flog2 peak

/-- `SH.CALC` (R161). -/
def execShCalc (s : State) : Result :=
  .next { s with
    regs := { s.regs with
      scaleShift := BitVec.ofNat 5 (scaleShiftFor shiftBase s.regs.peak.toNat)
      seq := 4 } }

/-- The frame handed to XF: OUT[0 .. SIZE−1] (R8, R164). -/
def frameOf (s : State) : List Sample :=
  (List.range s.cfg.size.toNat).map (Memory.read s.bufs.out)

/-- `SPEC[2k] <- bins[k].re ; SPEC[2k+1] <- bins[k].im` (R164). -/
def spectrumElem (bins : Nat → BitVec 16 × BitVec 16) (j : Nat) : BitVec 16 :=
  if j % 2 = 0 then (bins (j / 2)).1 else (bins (j / 2)).2

/-- `X.REQ` for a given collaborator (R164, R166). -/
def xReqWith (xfm : Nat → List Sample → Nat → Nat → BitVec 16 × BitVec 16) (s : State) : State :=
  { s with
    regs := { s.regs with seq := 5 }
    bufs := { s.bufs with
      spec := Memory.writeRange s.bufs.spec 0 (2 * s.cfg.specSize.toNat)
        (spectrumElem (xfm s.cfg.fftSize.toNat (frameOf s) s.regs.scaleShift.toNat)) } }

/-- `X.REQ` (R164). XF always answers (R164; notes/assumptions/8.md). -/
def execXReq (s : State) : Result :=
  .next (xReqWith Config.xfm s)

end Sys2Proof.Machine
end

