-- ==== Sys2Proof/Machine/Window.lean ====
section
/-! DEFINITION. Unit W, the window buffer: `W.FILL`, `W.APPLY`, `W.SLIDE` (41_window.md R131 to R139). -/

namespace Sys2Proof.Machine

/-- How many samples `W.FILL` consumes: min(count, SIZE − INPUT_USED) (R131, R321). -/
def fillCount (s : State) : Nat :=
  min s.port.count (s.cfg.size.toNat - s.regs.inputUsed.toNat)

/-- `W.FILL`: copies the first samples into the tail of IN, reports how many, and branches: to index 1 with
`PHASE <- FRAME_READY` when the buffer is full, else to index 11 (R131, R132, R317; notes/assumptions/4.md).
A buffer that already holds more than `SIZE` samples would make the count negative (R15). -/
def execWFill (s : State) : Result :=
  if s.cfg.size.toNat < s.regs.inputUsed.toNat then .fault .valueOutside
  else
    let used := s.regs.inputUsed.toNat + fillCount s
    let ready := decide (s.cfg.size.toNat ≤ used)
    .next { s with
      regs := { s.regs with
        consumed := BitVec.ofNat 16 (fillCount s)
        inputUsed := BitVec.ofNat 16 used
        seq := if ready then 1 else 11
        phase := if ready then .frameReady else s.regs.phase }
      bufs := { s.bufs with
        inp := Memory.writeRange s.bufs.inp s.regs.inputUsed.toNat (fillCount s) (sampleAt s) }
      freeCtr := s.freeCtr + (fillCount s - s.port.samples.length) }

/-- IN[i] · COEF[i] shifted right by 12, an arithmetic (floor) shift of the signed product (R133). -/
def windowValue (s : State) (i : Nat) : Int :=
  (Memory.read s.bufs.inp i).toInt * (Memory.read s.tables.coef i).toInt / 2 ^ windowBits

/-- The maximum absolute output magnitude over the first n elements (R133, R134). -/
def peakOf (s : State) : Nat → Nat
  | 0 => 0
  | n + 1 => max (peakOf s n) (windowValue s n).natAbs

/-- `W.APPLY`: multiplies each buffered sample by its coefficient and records the peak (R133, R134). A
product that does not fit 16 bits is refused, never saturated or wrapped (R139, U1). -/
def execWApply (s : State) : Result :=
  if (List.range s.cfg.size.toNat).all (fun i => fitsSigned 16 (windowValue s i)) then
    .next { s with
      regs := { s.regs with
        peak := BitVec.ofNat 16 (peakOf s s.cfg.size.toNat)
        seq := 2 }
      bufs := { s.bufs with
        out := Memory.writeRange s.bufs.out 0 s.cfg.size.toNat
          (fun i => BitVec.ofInt 16 (windowValue s i)) } }
  else .refused .windowRange

/-- `W.SLIDE`: moves IN left by `STEP` and leaves the tail as it was (R135). In ascending order every source
is read before it is overwritten, so each element takes the value the old buffer had `STEP` further on.
A difference below 0 has no register value (R15). -/
def execWSlide (s : State) : Result :=
  if s.cfg.size.toNat < s.cfg.step.toNat ∨ s.regs.inputUsed.toNat < s.cfg.step.toNat then
    .fault .valueOutside
  else .next { s with
    regs := { s.regs with
      inputUsed := BitVec.ofNat 16 (s.regs.inputUsed.toNat - s.cfg.step.toNat)
      seq := 3 }
    bufs := { s.bufs with
      inp := Memory.writeRange s.bufs.inp 0 (s.cfg.size.toNat - s.cfg.step.toNat)
        (fun i => Memory.read s.bufs.inp (i + s.cfg.step.toNat)) } }

end Sys2Proof.Machine
end

