-- ==== Sys2Proof/Machine/Dispatch.lean ====
section
/-! DEFINITION. One arm per instruction, each one direct call of its meaning. -/

namespace Sys2Proof.Machine

def exec (i : Instr) (s : State) : Host.Outcome State Fault Refusal :=
  match i with
  | .nop => Sys2Proof.Machine.execNop s
  | .cfgwr index => Sys2Proof.Machine.execCfgwr index s
  | .tblwr space index => Sys2Proof.Machine.execTblwr space index s
  | .commit => Sys2Proof.Machine.execCommit s
  | .proc count => Sys2Proof.Machine.execProc count s
  | .rst => Sys2Proof.Machine.execRst s
  | .rd space index => Sys2Proof.Machine.execRd space index s
  | .clr => Sys2Proof.Machine.execClr s
  | .wFill => Sys2Proof.Machine.execWFill s
  | .wApply => Sys2Proof.Machine.execWApply s
  | .wSlide => Sys2Proof.Machine.execWSlide s
  | .shCalc => Sys2Proof.Machine.execShCalc s
  | .xReq => Sys2Proof.Machine.execXReq s
  | .fbEnergy => Sys2Proof.Machine.execFbEnergy s
  | .fbAcc => Sys2Proof.Machine.execFbAcc s
  | .fbSqrt => Sys2Proof.Machine.execFbSqrt s
  | .nrApply => Sys2Proof.Machine.execNrApply s
  | .gcApply => Sys2Proof.Machine.execGcApply s
  | .lsApply => Sys2Proof.Machine.execLsApply s
  | .seqEnd => Sys2Proof.Machine.execSeqEnd s

end Sys2Proof.Machine
end

