-- ==== Sys2Proof/Machine/Step.lean ====
section
/-! DEFINITION. One step of the block: inside a `PROC` one micro-operation of the ROM, between commands the next
command of the host (00_scope.md R4, 20_memory.md R77, 30_encoding.md R100, 47_frontend_commands.md R317, R335). -/

namespace Sys2Proof.Machine

/-- One step. While a `PROC` is being executed: the micro-operation at `SEQ` (R317). Else: the next command of
the host, `E_ILLEGAL` when its word decodes to no command (R107, R335, R353); with no command presented
"the block is idle and keeps all state" (R366; notes/assumptions/2.md). -/
def step (s : State) : Host.Outcome State Fault Refusal :=
  match s.port.active with
  | some _ =>
    match fetchMicro s.regs.seq with
    | some i => exec i s
    | none => .refused (.noMicroOp s.regs.seq.toNat)
  | none =>
    match s.port.queue with
    | [] => .next s
    | c :: rest =>
      match decodeHost c.word with
      | .ok i => exec i (takeCommand c rest s)
      | .error _ => .next (raise .illegal (takeCommand c rest s))

/-- `s` with an opcode-table word where step fetches its next instruction: a host word at the head of the
port's queue of an idle block, a micro code at `SEQ` inside a `PROC`. A word of another length changes
nothing: no format has it (R100). -/
def State.withFetchWord (s : State) (nbits w : Nat) : State :=
  match nbits with
  | 32 => s.presentWord (BitVec.ofNat 32 w)
  | 8 => s.selectMicro (BitVec.ofNat 8 w)
  | _ => s

end Sys2Proof.Machine
end

