-- ==== Sys2Proof/Machine/Construction.lean ====
section
/-! DEFINITION. The host-side constructions, pure functions the host evaluates before it loads the block
(00_scope.md R9, 70_reset_and_hazards.md R386). All three are evaluated exactly: the raised
cosine by counting half turns (41_window.md R147), the mel scale and the gain power by comparing products of powers of
rational numbers. Another precision of the last two (43_filterbank.md R221, 45_gain_control.md R271) is another argument
(notes/assumptions/21.md). The types of the inputs are notes/assumptions/24.md. Nothing of the block calls
them. -/

namespace Sys2Proof.Machine

/-! ### Exact comparisons -/

/-- The product of the numerators of a list of positive rationals, each to its power. -/
def powersOfNums : List (ℚ × Nat) → Nat
  | [] => 1
  | (q, e) :: l => q.num.toNat ^ e * powersOfNums l

/-- The product of their denominators, each to its power. -/
def powersOfDens : List (ℚ × Nat) → Nat
  | [] => 1
  | (q, e) :: l => q.den ^ e * powersOfDens l

/-- Whether one product of powers of positive rationals is at most another: a comparison of weighted sums of
logarithms, without a logarithm. -/
def powersLe (l r : List (ℚ × Nat)) : Bool :=
  decide (powersOfNums l * powersOfDens r ≤ powersOfNums r * powersOfDens l)

/-- trunc(f): a rational number rounded toward zero (R15). -/
def truncate (f : ℚ) : Int :=
  f.num.tdiv f.den

/-! ### Window -/

/-- `SIZE` or `STEP` from milliseconds: floor(ms · rate / 1000) (R146). -/
def samplesOfMs (ms rate : Nat) : Nat :=
  ms * rate / 1000

/-- The k-th multiple of an angle φ between 0 and π whose cosine is p / d: the half turns completed, floor(k·φ / π),
and the k-th power x + y·√(p² − d²) of p + √(p² − d²), so that x = d^k · cos(k·φ) and y · d · sin(φ) = d^k · sin(k·φ). -/
structure Turn where
  half : Nat
  x    : Int
  y    : Int
deriving DecidableEq, Repr

/-- A number with the sign that a count of half turns gives it. -/
def signed (half : Nat) (v : Int) : Int :=
  if half % 2 = 0 then v else -v

/-- From the k-th multiple to the (2·k)-th: one more half turn when the part past the last is a quarter or more. -/
def Turn.twice (p d : Int) (t : Turn) : Turn where
  half := 2 * t.half + (if signed t.half t.x ≤ 0 then 1 else 0)
  x    := t.x * t.x - (d * d - p * p) * (t.y * t.y)
  y    := 2 * t.x * t.y

/-- From the k-th multiple to the (k + 1)-th: one more half turn when the sine leaves its sign. -/
def Turn.next (p d : Int) (t : Turn) : Turn where
  half := t.half + (if signed t.half (t.x + p * t.y) ≤ 0 then 1 else 0)
  x    := p * t.x - (d * d - p * p) * t.y
  y    := t.x + p * t.y

/-- The n-th multiple, for a number n of at most `bits` bits. -/
def turns (p d : Int) : Nat → Nat → Turn
  | 0, _ => { half := 0, x := 1, y := 0 }
  | bits + 1, n =>
    let t := (turns p d bits (n / 2)).twice p d
    if n % 2 = 0 then t else t.next p d

/-- Whether cos(π · odd / n) ≤ p / d, for an odd multiple up to n and −d < p < d: whether n times the angle of p / d
completes no more than `odd` half turns. -/
def cosLe (p d : Int) (n odd : Nat) : Bool :=
  let t := turns p d (msb1 n) n
  decide (t.half < odd ∨ (t.half = odd ∧ t.y = 0))

/-- COEF[i], exactly (R147): the largest m up to 4096 with (m − 1/2) / 4096 ≤ 0.5 − 0.5 · cos(2π / SIZE · (i + 0.5));
the second half of the table mirrors the first. -/
def coefEntry (size i : Nat) : Nat :=
  searchBits (fun m => decide (m ≤ 4096) && cosLe (4097 - 2 * m) 4096 size (2 * min i (size - 1 - i) + 1)) 13 0

/-- COEF, the periodic Hann window at half-sample offsets (R147). -/
def coefTable (size : Nat) : List Nat :=
  (List.range size).map (coefEntry size)

/-! ### Transform -/

/-- `FFT_SIZE`: the smallest power of two ≥ SIZE (R169). -/
def minimalFft (size : Nat) : Nat :=
  if size ≤ 1 then 1 else 2 ^ (flog2 (size - 1) + 1)

/-! ### Filterbank tables -/

/-- The inputs of the filterbank construction (R210). The spec gives the two band limits no type: rational numbers of
Hz here, DESIGN CHOICE (notes/assumptions/24.md); the sample rate is an integer (R146). -/
structure FilterbankInputs where
  channels   : Nat
  lowerHz    : ℚ
  upperHz    : ℚ
  sampleRate : Nat
  specSize   : Nat
deriving DecidableEq, Repr

/-- hz_per_bin = 0.5 · sample_rate / (SPEC_SIZE − 1) (R212). -/
def FilterbankInputs.hzPerBin (c : FilterbankInputs) : ℚ :=
  1 / 2 * c.sampleRate / (c.specSize - 1)

/-- `START_INDEX` = trunc(1.5 + lower_hz / hz_per_bin) (R213). -/
def FilterbankInputs.startIndex (c : FilterbankInputs) : Int :=
  truncate (3 / 2 + c.lowerHz / c.hzPerBin)

/-- 1 + f / 700, whose logarithm the mel scale is a multiple of (R210). -/
def melRatio (f : ℚ) : ℚ :=
  1 + f / 700

/-- What the construction asks of the mel scale: whether the mel frequency of bin k is at most the centre of
band b (R214), and the quantised weight and unweight of bin k in band b (R218). -/
structure MelScale where
  atOrBelow  : Nat → Nat → Bool
  weightOf   : Nat → Nat → Nat
  unweightOf : Nat → Nat → Nat

/-- The exact mel scale (R210 to R214, R218), over the real numbers: with A, B, F the ratios of the lower limit, the
upper limit and bin k, and N channels, the mel frequency of bin k is at most the centre of band b when
F^(N+1) ≤ A^(N−b) · B^(b+1), and the quantised weight is the largest m with (m − 1/2) / 4096 ≤ w. -/
def MelScale.exact (c : FilterbankInputs) : MelScale where
  atOrBelow := fun b k =>
    powersLe [(melRatio (k * c.hzPerBin), c.channels + 1)]
      [(melRatio c.lowerHz, c.channels - b), (melRatio c.upperHz, b + 1)]
  weightOf := fun b k =>
    searchBits (fun m =>
      powersLe [(melRatio c.upperHz, 2 * m - 1), (melRatio (k * c.hzPerBin), 8192 * (c.channels + 1))]
        [(melRatio c.lowerHz, 2 * m - 1 + 8192 * (c.channels - b)), (melRatio c.upperHz, 8192 * (b + 1))]) 13 0
  unweightOf := fun b k =>
    searchBits (fun m =>
      powersLe [(melRatio c.upperHz, 2 * m - 1 + 8192 * b), (melRatio c.lowerHz, 8192 * (c.channels + 1 - b))]
        [(melRatio c.lowerHz, 2 * m - 1), (melRatio (k * c.hzPerBin), 8192 * (c.channels + 1))]) 13 0

/-- The first bin from `f` on whose mel frequency is above the centre. The loop ends because mel grows
without bound (R214); `fuel` bounds it. -/
def bandEnd (below : Nat → Bool) : Nat → Nat → Nat
  | 0, f => f
  | n + 1, f => if below f then bandEnd below n (f + 1) else f

/-- A band's three table entries and the bins of its own (R214 to R216). -/
structure Band where
  fstart : Nat
  wstart : Nat
  width  : Nat
  astart : Nat
  awidth : Nat
deriving DecidableEq, Repr

/-- The construction's running values: next bin, running weight offset, whether the pad was applied, the bands
placed so far (R214, R215). -/
structure Layout where
  cur     : Nat
  woff    : Nat
  patched : Bool
  bands   : List Band
deriving DecidableEq, Repr

/-- A band of zero width: it takes the zero block, and the first one moves every earlier band and the running
offset up by the pad, "applied exactly once" (R215). -/
def placeEmptyBand (l : Layout) : Layout :=
  let zero : Band := { fstart := 0, wstart := 0, width := 4, astart := l.cur, awidth := 0 }
  if l.patched then { l with bands := l.bands ++ [zero] }
  else
    { l with
      woff := l.woff + 4
      patched := true
      bands := l.bands.map (fun d => { d with wstart := d.wstart + 4 }) ++ [zero] }

/-- A band of nonzero width: start aligned down to 2, table width rounded up to a block of 4 (R216). -/
def placeFullBand (l : Layout) (last : Nat) : Layout :=
  let aligned := l.cur / 2 * 2
  let padded := ((l.cur - aligned + (last - l.cur) - 1) / 4 + 1) * 4
  { l with
    cur := last
    woff := l.woff + padded
    bands := l.bands ++
      [{ fstart := aligned, wstart := l.woff, width := padded, astart := l.cur, awidth := last - l.cur }] }

/-- Bands 0 .. n − 1 placed in increasing order (R214 to R216). -/
def layoutBands (below : Nat → Nat → Bool) (fuel start : Nat) : Nat → Layout
  | 0 => { cur := start, woff := 0, patched := false, bands := [] }
  | b + 1 =>
    let l := layoutBands below fuel start b
    let last := bandEnd (below b) fuel l.cur
    if last ≤ l.cur then placeEmptyBand l else placeFullBand l last

/-- `END_INDEX`: the largest end of a band's own bins, from 0 (R218). -/
def endIndexOf : List Band → Nat
  | [] => 0
  | d :: rest => max (d.astart + d.awidth) (endIndexOf rest)

/-- Entry t of a weight table, from band number b on: the quantised value where t is the place of one of a
band's own bins, 0 at padding (R218, R222 (d)). -/
def weightEntry (value : Nat → Nat → Nat) (t : Nat) : Nat → List Band → Nat
  | _, [] => 0
  | b, d :: rest =>
    let first := d.wstart + (d.astart - d.fstart)
    if first ≤ t ∧ t < first + d.awidth then value b (d.astart + (t - first))
    else weightEntry value t (b + 1) rest

/-- What the filterbank construction gives the host to load (R210). -/
structure FilterbankTables where
  startIndex : Nat
  endIndex   : Nat
  nweight    : Nat
  fstart     : List Nat
  wstart     : List Nat
  width      : List Nat
  weight     : List Nat
  unweight   : List Nat
deriving DecidableEq, Repr

/-- The tables of a finished layout (R210, R214 to R218). -/
def tablesOfLayout (mel : MelScale) (start : Nat) (l : Layout) : FilterbankTables where
  startIndex := start
  endIndex   := endIndexOf l.bands
  nweight    := l.woff
  fstart     := l.bands.map (·.fstart)
  wstart     := l.bands.map (·.wstart)
  width      := l.bands.map (·.width)
  weight     := (List.range l.woff).map fun t => weightEntry mel.weightOf t 0 l.bands
  unweight   := (List.range l.woff).map fun t => weightEntry mel.unweightOf t 0 l.bands

/-- The configurations the construction works on: the upper limit above the lower (R220 (b)). DESIGN CHOICE
(notes/assumptions/24.md): also refused are no channel, since R210 gives the input as N ≥ 1 and says nothing of 0, and
the inputs for which the formulas have no value, a lower limit without a mel frequency, no positive bin frequency, a
first bin below 0. -/
def FilterbankInputs.valid (c : FilterbankInputs) : Bool :=
  decide (1 ≤ c.channels) && decide (c.lowerHz < c.upperHz) && decide (-700 < c.lowerHz)
    && decide (0 < c.hzPerBin) && decide (0 ≤ c.startIndex)

/-- A bound on the bins of one band that the exact mel scale never reaches: one past the upper limit's bin. -/
def FilterbankInputs.fuel (c : FilterbankInputs) : Nat :=
  (c.upperHz / c.hzPerBin).floor.toNat + 2

/-- The filterbank construction, or failure: inputs it does not work on, or the end bin reaching the spectrum size
(R210, R220 (a), (b)). -/
def buildFilterbank (c : FilterbankInputs) (fuel : Nat) (mel : MelScale) : Option FilterbankTables :=
  if c.valid then
    let start := c.startIndex.toNat
    let l := layoutBands mel.atOrBelow fuel start (c.channels + 1)
    if c.specSize ≤ endIndexOf l.bands then none else some (tablesOfLayout mel start l)
  else none

/-! ### Noise reduction and gain control -/

/-- trunc(f · 16384); a fraction outside 0 .. 1 is refused (R244). Its type is notes/assumptions/24.md. -/
def fraction14 (f : ℚ) : Option Nat :=
  if 0 ≤ f ∧ f ≤ 1 then some (f * 2 ^ nrBits).floor.toNat else none

/-- `SNR_SHIFT` = gain_bits − CORR_BITS − 12; a negative one is refused (R268). -/
def snrShiftOf (gainBits : Nat) (corr : Int) : Option Nat :=
  if (gainBits : Int) - corr - 12 < 0 then none else some ((gainBits : Int) - corr - 12).toNat

/-- input_bits = smoothing_bits − CORR_BITS (R268). -/
def inputBitsOf (smoothBits : Nat) (corr : Int) : Int :=
  (smoothBits : Int) - corr

/-- r + offset, with r = x / 2^input_bits the estimate in signal units (R269). -/
def gainBase (inputBits : Int) (offset : ℚ) (x : Nat) : ℚ :=
  x * 2 ^ (-inputBits).toNat / 2 ^ inputBits.toNat + offset

/-- A gain rounded and clamped: 32767 where g is above it, else trunc(g + 0.5) (R269). -/
def roundGain (g : ℚ) : Int :=
  if 32767 < g then 32767 else truncate (g + 1 / 2)

/-- The gain function f(x) (R269), exactly, wherever the power has a real value. For a positive base and the strength
p / q: the largest y up to 32767 with (y − 1/2)^q · (r + offset)^p ≤ 2^(gain_bits · q). For any other base: an integer
strength gives a rational gain, unless it divides by 0 (0 to the power 0 is 1), and a base of 0 under a negative
strength gives 0. What is left has no real value and the spec states none: a free value, DESIGN CHOICE
(notes/assumptions/25.md). -/
def gainFunction (gainBits : Nat) (inputBits : Int) (strength offset : ℚ) (x : Nat) : Int :=
  let base := gainBase inputBits offset x
  let q := strength.den
  if 0 < base then
    searchBits (fun y =>
      powersLe [(((2 * y - 1 : Nat) : ℚ), q), (base, strength.num.toNat)]
        [(2, q + gainBits * q), (base, (-strength.num).toNat)]) 15 0
  else if q = 1 ∧ (base ≠ 0 ∨ strength ≤ 0) then roundGain (2 ^ gainBits * base ^ (-strength.num))
  else if base = 0 ∧ strength < 0 then 0
  else (Config.freeGain gainBits inputBits strength offset x).toInt

/-- The two coefficients of an interval from the gain at its ends and its midpoint (R270). -/
def intervalCoefs (y0 y1 y2 : Int) : Int × Int :=
  let a1 := 4 * (y1 - y0) - (y2 - y0)
  (a1, (y2 - y0) - a1)

/-- The gains of interval v at its lower end, midpoint and upper end (R270). -/
def intervalGains (f : Nat → Int) (v : Nat) : Int × Int × Int :=
  let x0 := 2 ^ (v - 1)
  (f x0, f (x0 + x0 / 2), f (if v = 32 then 2 * x0 - 1 else 2 * x0))

/-- Entry i of the gain table for the gain function f (R256, R270); the padding entries hold 0. -/
def gainEntry (f : Nat → Int) (i : Nat) : Int :=
  if i ≤ 1 then f i
  else
    let g := intervalGains f ((i + 6) / 4)
    match (i + 6) % 4 with
    | 0 => g.1
    | 1 => (BitVec.ofInt 16 (intervalCoefs g.1 g.2.1 g.2.2).1).toInt
    | 2 => (BitVec.ofInt 16 (intervalCoefs g.1 g.2.1 g.2.2).2).toInt
    | _ => 0

/-- The gain table GLUT for the gain function f (R270). -/
def gainTable (f : Nat → Int) : List Int :=
  (List.range glutSize).map (gainEntry f)

end Sys2Proof.Machine
end

