-- ==== Sys2Proof/Machine/HostProgram.lean ====
section
/-! DEFINITION. The host's side of the command port: one command as one atomic transition (00_scope.md R3), the
pseudo-operations `LOADTBL`, `CONFIGURE`, `FEED` (30_encoding.md R111) and the feature view (47_frontend_commands.md
R320). Nothing of the block calls them. -/

namespace Sys2Proof.Machine

/-- The host issues a command to an idle block: it is the next one the port takes. -/
def State.issue (s : State) (c : HostCmd) : State :=
  { s with port := { s.port with queue := c :: s.port.queue } }

/-- At least one step, then more until no `PROC` is being executed, at most `fuel` steps in all. -/
def runCommand : Nat → State → Result
  | 0, s => .next s
  | n + 1, s =>
    match step s with
    | .next t => if t.port.active.isSome then runCommand n t else .next t
    | .fault r => .fault r
    | .refused r => .refused r

/-- One host command as the host sees it: issued, carried out, returned. A `PROC` takes the step that starts it
and at most the 12 micro-operations of the ROM (R3, R318). -/
def command (c : HostCmd) (s : State) : Result :=
  runCommand 13 (s.issue c)

/-- `CFGWR index, v`. -/
def cfgwrCommand (index : Nat) (v : Int) : HostCmd where
  word    := hostWord 0x01 0 index
  wdata   := BitVec.ofInt 64 v
  samples := []

/-- `TBLWR space[index], v`. -/
def tblwrCommand (space index : Nat) (v : Int) : HostCmd where
  word    := hostWord 0x02 space index
  wdata   := BitVec.ofInt 64 v
  samples := []

/-- `COMMIT`. -/
def commitCommand : HostCmd where
  word    := hostWord 0x03 0 0
  wdata   := 0
  samples := []

/-- `PROC n { s0, ... }`: the count is the number of samples (R106). -/
def procCommand (xs : List Sample) : HostCmd where
  word    := hostWord 0x04 0 xs.length
  wdata   := 0
  samples := xs

/-- `LOADTBL space, { v0, v1, ... }` from element `i` on (R111). -/
def loadTableFrom (space : Nat) : Nat → List Int → List HostCmd
  | _, [] => []
  | i, v :: vs => tblwrCommand space i v :: loadTableFrom space (i + 1) vs

/-- `LOADTBL` (R111). -/
def loadTable (space : Nat) (vs : List Int) : List HostCmd :=
  loadTableFrom space 0 vs

/-- `CONFIGURE { index = value, ... }`: one `CFGWR` per pair, in the order written (R111). -/
def configure (pairs : List (Nat × Int)) : List HostCmd :=
  pairs.map fun p => cfgwrCommand p.1 p.2

/-- FEAT[0 .. NFEAT − 1], the view the host may read after a `PROC` (R84, R320). -/
def featureView (s : State) : List (BitVec 16) :=
  (List.range s.regs.nfeat.toNat).map (Memory.read s.bufs.feat)

/-- `FEED { ... }` (R111): presents the remaining samples, at most 65535 at a time, moves on by `CONSUMED`, and
collects one feature vector for every `PROC` that returned `NFEAT` = `NCHAN` (never 0). At most `n` commands; none
if a command stops. -/
def feed : Nat → List Sample → State → Option (State × List (List (BitVec 16)))
  | 0, xs, s => if xs = [] then some (s, []) else none
  | n + 1, xs, s =>
    if xs = [] then some (s, [])
    else
      match command (procCommand (xs.take 65535)) s with
      | .next t =>
        match feed n (xs.drop t.regs.consumed.toNat) t with
        | some (u, views) => some (u, if t.regs.nfeat = 0 then views else featureView t :: views)
        | none => none
      | .fault _ => none
      | .refused _ => none

/-- One `PROC` after another, each with its samples: the state after them, and of each the count it consumed and the
feature view it left. None if a command stops. -/
def procs : List (List Sample) → State → Option (State × List (Nat × List (BitVec 16)))
  | [], s => some (s, [])
  | xs :: rest, s =>
    match command (procCommand xs) s with
    | .next t =>
      match procs rest t with
      | some (u, seen) => some (u, (t.regs.consumed.toNat, featureView t) :: seen)
      | none => none
    | .fault _ => none
    | .refused _ => none

end Sys2Proof.Machine
end

