-- ==== Sys2Proof/Safety.lean ====
section
/-! DEFINITION. What counts as a safe state of the block, in the words the statements use: the canonical form of
the spaces, the element ranges of the tables, the configuration `COMMIT` accepted, the phase and sequencer
discipline (10_state.md R21, R22, R36, R37, R50, 60_exceptions.md R356). -/

namespace Sys2Proof.Machine

/-- Every table space is in canonical form. -/
def Tables.wf (t : Tables) : Bool :=
  Memory.wf t.coef && Memory.wf t.fstart && Memory.wf t.wstart && Memory.wf t.width
    && Memory.wf t.weight && Memory.wf t.unweight && Memory.wf t.glut

/-- Every buffer space is in canonical form. -/
def Bufs.wf (b : Bufs) : Bool :=
  Memory.wf b.inp && Memory.wf b.out && Memory.wf b.spec && Memory.wf b.energy
    && Memory.wf b.work && Memory.wf b.sig && Memory.wf b.est && Memory.wf b.feat

/-- Every space is in canonical form: indices strictly rising, no listed element 0. -/
def State.canonical (s : State) : Bool :=
  s.tables.wf && s.bufs.wf

/-- Every table element lies inside its space's capacity (R30, R75). -/
def Tables.inCapacity (c : Config.Caps) (t : Tables) : Bool :=
  Memory.within t.coef (Space.coef.capacity c) && Memory.within t.fstart (Space.fstart.capacity c)
    && Memory.within t.wstart (Space.wstart.capacity c) && Memory.within t.width (Space.width.capacity c)
    && Memory.within t.weight (Space.weight.capacity c) && Memory.within t.unweight (Space.unweight.capacity c)
    && Memory.within t.glut (Space.glut.capacity c)

/-- Every buffer element lies inside its space's capacity (R30, R75). -/
def Bufs.inCapacity (c : Config.Caps) (b : Bufs) : Bool :=
  Memory.within b.inp (Space.inp.capacity c) && Memory.within b.out (Space.out.capacity c)
    && Memory.within b.spec (Space.spec.capacity c) && Memory.within b.energy (Space.energy.capacity c)
    && Memory.within b.work (Space.work.capacity c) && Memory.within b.sig (Space.sig.capacity c)
    && Memory.within b.est (Space.est.capacity c) && Memory.within b.feat (Space.feat.capacity c)

/-- The element of a space read as the number its type says lies in the range `TBLWR` accepts. -/
def Memory.inRange (m : Memory 16) (lo hi : Int) : Prop :=
  ∀ i, lo ≤ (Memory.read m i).toInt ∧ (Memory.read m i).toInt ≤ hi

/-- The element ranges of the tables: "Element ranges ... were enforced when the entries were written" (R200, R313). -/
structure Tables.Legal (t : Tables) : Prop where
  coef     : Memory.inRange t.coef 0 4096
  fstart   : Memory.inRange t.fstart 0 32767
  wstart   : Memory.inRange t.wstart 0 32767
  width    : Memory.inRange t.width 0 32767
  weight   : Memory.inRange t.weight 0 4096
  unweight : Memory.inRange t.unweight 0 4096

/-- The configuration passes checks 1 to 15 of `COMMIT` (R314). -/
def ConfigLegal (g : Cfg) (t : Tables) : Prop :=
  firstFailure (commitChecks Config.caps (fun _ => true) g t) = none

/-- `CORR_BITS` and `SPEC_SIZE` hold what `COMMIT` derived (R315, R316). -/
def DerivedLegal (g : Cfg) : Prop :=
  g.specSize.toNat = g.fftSize.toNat / 2 + 1 ∧ g.corrBits.toInt = corrBitsOf g.fftSize.toNat

/-- The phase and sequencer discipline (R21, R22, R23, R50, R356). -/
structure Disciplined (s : State) : Prop where
  /-- "It holds 0 whenever ... a command is not executing" (R22) -/
  idleSeq : s.port.active = none → s.regs.seq = 0
  /-- "`FRAME_READY` is never observed by the host" (R21) -/
  idlePhase : s.port.active = none → s.regs.phase ≠ .frameReady
  /-- A `PROC` runs in a configured block only (R335) -/
  activePhase : s.port.active ≠ none → s.regs.phase.configured = true
  /-- A configured block holds a configuration `COMMIT` accepted (R50 (b) to (d)) -/
  configLegal : s.regs.phase.configured = true → ConfigLegal s.cfg s.tables ∧ DerivedLegal s.cfg
  /-- Before construction and after a failed one every buffer and working register is 0 (R356, R380) -/
  unbuilt : s.regs.phase.configured = false →
    s.bufs = Bufs.reset ∧ s.cfg.corrBits = 0 ∧ s.cfg.specSize = 0
      ∧ { s.regs with phase := .unconfigured, err := .ok } = Regs.reset
  /-- Waiting for samples: the buffer is not full, and SEQ stands at the first or the last index (R50 (a), R318) -/
  waiting : s.regs.phase = .awaitingFrame →
    s.regs.inputUsed.toNat < s.cfg.size.toNat ∧ (s.regs.seq = 0 ∨ s.regs.seq = 11)
  /-- A frame in progress: SEQ between 1 and 11, the buffer full until the slide (R131, R135, R318) -/
  inFrame : s.regs.phase = .frameReady →
    1 ≤ s.regs.seq.toNat ∧ s.regs.seq.toNat ≤ 11 ∧
      s.regs.inputUsed.toNat = (if s.regs.seq.toNat ≤ 2 then s.cfg.size.toNat
        else s.cfg.size.toNat - s.cfg.step.toNat)
  /-- `FEATURE_VALID` only between commands, with `NFEAT` = `NCHAN` (R23, R319) -/
  view : s.regs.featureValid = true → s.port.active = none ∧ s.regs.nfeat = s.cfg.nchan
  /-- `NFEAT` is 0 or `NCHAN` (R24) -/
  nfeat : s.regs.nfeat = 0 ∨ s.regs.nfeat = s.cfg.nchan
  /-- `PEAK` is 0 .. 32768 (R24, R134) -/
  peak : s.regs.peak.toNat ≤ 32768
  /-- `SCALE_SHIFT` is 0 .. 15 (R24, R163) -/
  scaleShift : s.regs.scaleShift.toNat ≤ 15
  /-- An energy is at most 2^31 (R35, R181) -/
  energy : ∀ k, (Memory.read s.bufs.energy k).toNat ≤ 2 ^ 31

/-- The block's invariant: everything above. -/
structure Inv (s : State) : Prop where
  canonical    : s.canonical = true
  inCapacity   : s.tables.inCapacity Config.caps = true ∧ s.bufs.inCapacity Config.caps = true
  tablesLegal  : s.tables.Legal
  disciplined  : Disciplined s

/-- The two states differ at most in what a command's refusal may change: `ERR`, the answer, and, for a failed
construction, `PHASE` (R350). -/
def sameButResult (s t : State) : Prop :=
  t.cfg = s.cfg ∧ t.tables = s.tables ∧ t.bufs = s.bufs ∧ t.freeCtr = s.freeCtr
    ∧ t.regs = { s.regs with err := t.regs.err }
    ∧ t.port = { s.port with rdata := t.port.rdata }

end Sys2Proof.Machine
end

