-- ==== Sys2Proof/Certificates/Slice0/Obligations.lean ====
section
/-! DEFINITION. The statements about the block, each a proposition over the model; nothing is proved here. -/

open Sys2Proof Sys2Proof.Machine

/-! ### Encoding -/

/-- R101 to R104: every well-formed instruction is read back from its own code, every operand at every value. -/
def Obligations.DecodeOfEncode : Prop :=
  ∀ i : Instr, i.wellFormed = true → decode (encode i) = .ok i

/-- R100, R103, R104: each word has one meaning: what the decoder accepts is the code of a well-formed instruction. -/
def Obligations.EncodeOfDecode : Prop :=
  (∀ (w : HostWord) (i : Instr), decodeHost w = .ok i → encode i = .host w ∧ i.wellFormed = true) ∧
  (∀ (c : MicroCode) (i : Instr), decodeMicro c = .ok i → encode i = .micro c ∧ i.wellFormed = true)

/-- R103: "the word selects the command when `word & mask == match`", with the operands the fields name. -/
def Obligations.HostWordSelectedByMatchAndMask : Prop :=
  ∀ w : HostWord,
    (decodeHost w = .ok .nop ↔ w &&& 0xFFFFFFFF#32 = 0x00000000#32) ∧
    (decodeHost w = .ok (.cfgwr (field w 15 0)) ↔ w &&& 0xFFFF0000#32 = 0x01000000#32) ∧
    (decodeHost w = .ok (.tblwr (field w 23 16) (field w 15 0)) ↔ w &&& 0xFF000000#32 = 0x02000000#32) ∧
    (decodeHost w = .ok .commit ↔ w &&& 0xFFFFFFFF#32 = 0x03000000#32) ∧
    (decodeHost w = .ok (.proc (field w 15 0)) ↔ w &&& 0xFFFF0000#32 = 0x04000000#32) ∧
    (decodeHost w = .ok .rst ↔ w &&& 0xFFFFFFFF#32 = 0x05000000#32) ∧
    (decodeHost w = .ok (.rd (field w 23 16) (field w 15 0)) ↔ w &&& 0xFF000000#32 = 0x06000000#32) ∧
    (decodeHost w = .ok .clr ↔ w &&& 0xFFFFFFFF#32 = 0x07000000#32)

/-- R107, R353: which host words are illegal, and what an illegal word does in any phase: `ERR <- E_ILLEGAL`,
`rdata` = 0, no other state changes; and which ROM bytes are no micro-operation. -/
def Obligations.IllegalWordsAreRefused : Prop :=
  (∀ w : HostWord, (∃ e, decodeHost w = .error e) ↔
    (8 ≤ field w 31 24 ∨ (field w 23 16 ≠ 0 ∧ field w 31 24 ≠ 2 ∧ field w 31 24 ≠ 6) ∨
      (field w 15 0 ≠ 0 ∧ (field w 31 24 = 0 ∨ field w 31 24 = 3 ∨ field w 31 24 = 5 ∨ field w 31 24 = 7)))) ∧
  (∀ (s : State) (c : HostCmd) (rest : List HostCmd) (e : DecodeError),
    s.port.active = none → s.port.queue = c :: rest → decodeHost c.word = .error e →
    step s = .next { s with
      regs := { s.regs with err := .illegal }
      port := { s.port with queue := rest, wdata := c.wdata, samples := c.samples, rdata := 0 } }) ∧
  (∀ c : MicroCode, (∃ e, decodeMicro c = .error e) ↔ c ∉ microRom)

/-- 95_test_vectors.md V1, V2: a few words written out from R101 and R102 decode to what they stand for. -/
def Obligations.WrittenWordsDecode : Prop :=
  decodeHost 0b00000001000000000000000000001111#32 = .ok (.cfgwr 15) ∧
  decodeHost 0b00000010000011110000000001111100#32 = .ok (.tblwr 0x0F 124) ∧
  decodeHost 0b00000100000000001111111111111111#32 = .ok (.proc 65535) ∧
  decodeHost 0b00000110000100010000000000000000#32 = .ok (.rd 0x11 0) ∧
  decodeHost 0b00000101000000000000000000000001#32 = .error .argNotZero ∧
  decodeMicro 0b00010011#8 = .ok .shCalc ∧ decodeMicro 0b00011011#8 = .ok .seqEnd

/-- A step runs the decoded instruction: inside a `PROC` the ROM's micro-operation at `SEQ`, between commands the
host's next command with its data word and samples on the port; with none presented nothing changes. -/
def Obligations.StepRunsTheDecodedInstruction : Prop :=
  (∀ (s : State) (n : Nat) (b : MicroCode) (i : Instr), s.port.active = some n →
    microRom[s.regs.seq.toNat]? = some b → decodeMicro b = .ok i → step s = exec i s) ∧
  (∀ (s : State) (c : HostCmd) (rest : List HostCmd) (i : Instr), s.port.active = none →
    s.port.queue = c :: rest → decodeHost c.word = .ok i →
    step s = exec i { s with port := { s.port with queue := rest, wdata := c.wdata, samples := c.samples } }) ∧
  (∀ s : State, s.port.active = none → s.port.queue = [] → step s = .next s)

/-! ### Host commands -/

/-- R311: `NOP` sets `ERR <- OK` and nothing else changes, in every phase; its word is 0x00000000, and a word with
`OP` = 0 and another field not 0 is refused with `E_ILLEGAL`. -/
def Obligations.NopSetsErrOnly : Prop :=
  (∀ s : State, ∃ t, exec .nop s = .next t ∧ t.regs.err = .ok ∧ t.port.rdata = 0 ∧ sameButResult s t) ∧
  encode .nop = .host 0x00000000#32 ∧
  ∀ (s : State) (c : HostCmd) (rest : List HostCmd), s.port.active = none → s.port.queue = c :: rest →
    field c.word 31 24 = 0 → (field c.word 23 16 ≠ 0 ∨ field c.word 15 0 ≠ 0) →
    step s = .next { s with
      regs := { s.regs with err := .illegal }
      port := { s.port with queue := rest, wdata := c.wdata, samples := c.samples, rdata := 0 } }

/-- R312: `CFGWR` stores the value in the register and nothing else; the phase is checked before the index and
the index before the value. Ranges of the types: u8 for 7, 8, 13, 15, u1 for 12, 14, u16 for the others. -/
def Obligations.CfgwrWritesOneRegister : Prop :=
  (∀ i, i < 65536 → encode (.cfgwr i) = .host (BitVec.ofNat 32 (0x01000000 + i))) ∧
  (∀ w : HostWord, field w 31 24 = 1 → field w 23 16 ≠ 0 → ∃ e, decodeHost w = .error e) ∧
  ∀ (s : State) (i : Nat),
    let top : Int := if i = 7 ∨ i = 8 ∨ i = 13 ∨ i = 15 then 255 else if i = 12 ∨ i = 14 then 1 else 65535
    let refused := fun e => { s with regs := { s.regs with err := e }, port := { s.port with rdata := 0 } }
    (s.regs.phase = .unconfigured → i ≤ 15 → 0 ≤ s.port.wdata.toInt → s.port.wdata.toInt ≤ top →
      ∃ t, exec (.cfgwr i) s = .next t ∧ memRead t .cfg i = s.port.wdata ∧
        (∀ j, j ≠ i → memRead t .cfg j = memRead s .cfg j) ∧
        t = { s with cfg := t.cfg, regs := { s.regs with err := .ok }, port := { s.port with rdata := 0 } }) ∧
    (s.regs.phase ≠ .unconfigured → exec (.cfgwr i) s = .next (refused .state)) ∧
    (s.regs.phase = .unconfigured → (15 < i ∨ s.port.wdata.toInt < 0 ∨ top < s.port.wdata.toInt) →
      exec (.cfgwr i) s = .next (refused .range))

/-- R313: `TBLWR` stores the value in one element of one of the seven table spaces and nothing else. -/
def Obligations.TblwrWritesOneElement : Prop :=
  ∀ (s : State) (id i : Nat) (sp : Space) (lo hi : Int),
    s.regs.phase = .unconfigured → Space.ofId id = some sp →
    (sp = .coef ∧ lo = 0 ∧ hi = 4096) ∨ (sp = .weight ∧ lo = 0 ∧ hi = 4096) ∨
      (sp = .unweight ∧ lo = 0 ∧ hi = 4096) ∨ (sp = .fstart ∧ lo = 0 ∧ hi = 32767) ∨
      (sp = .wstart ∧ lo = 0 ∧ hi = 32767) ∨ (sp = .width ∧ lo = 0 ∧ hi = 32767) ∨
      (sp = .glut ∧ lo = -32768 ∧ hi = 32767) →
    i < sp.capacity Config.caps → lo ≤ s.port.wdata.toInt → s.port.wdata.toInt ≤ hi →
    ∃ t, exec (.tblwr id i) s = .next t ∧
      (∀ sp' j, sp' ≠ .reg →
        memRead t sp' j = if sp' = sp ∧ j = i then s.port.wdata else memRead s sp' j) ∧
      t = { s with tables := t.tables, regs := { s.regs with err := .ok }, port := { s.port with rdata := 0 } }

/-- R313, R354, R355, R358: when `TBLWR` is refused: `E_STATE` outside `UNCONFIGURED`, before the space is looked at;
`E_RANGE` for a space that is no table, an index at or past the capacity, or a value outside the range. -/
def Obligations.TblwrRefusals : Prop :=
  ∀ (s : State) (id i : Nat),
    let refused := fun e => { s with regs := { s.regs with err := e }, port := { s.port with rdata := 0 } }
    (s.regs.phase ≠ .unconfigured → exec (.tblwr id i) s = .next (refused .state)) ∧
    (s.regs.phase = .unconfigured →
      (id ≠ 0x02 ∧ id ≠ 0x07 ∧ id ≠ 0x08 ∧ id ≠ 0x09 ∧ id ≠ 0x0A ∧ id ≠ 0x0B ∧ id ≠ 0x0F) →
      exec (.tblwr id i) s = .next (refused .range)) ∧
    (∀ sp, s.regs.phase = .unconfigured → Space.ofId id = some sp → sp.capacity Config.caps ≤ i →
      exec (.tblwr id i) s = .next (refused .range)) ∧
    (s.regs.phase = .unconfigured → (id = 0x02 ∨ id = 0x0A ∨ id = 0x0B) →
      (s.port.wdata.toInt < 0 ∨ 4096 < s.port.wdata.toInt) → exec (.tblwr id i) s = .next (refused .range)) ∧
    (s.regs.phase = .unconfigured → (id = 0x07 ∨ id = 0x08 ∨ id = 0x09) →
      (s.port.wdata.toInt < 0 ∨ 32767 < s.port.wdata.toInt) → exec (.tblwr id i) s = .next (refused .range)) ∧
    (s.regs.phase = .unconfigured → id = 0x0F →
      (s.port.wdata.toInt < -32768 ∨ 32767 < s.port.wdata.toInt) → exec (.tblwr id i) s = .next (refused .range))

/-- R314, R356, R358: `COMMIT` reports the first failing check, and a failed one changes `PHASE` and `ERR` only. That
`NCHAN` = 0 gives `E_CONFIG`, as R314 says, and not R200's `E_CAPACITY`, is the model's choice
(notes/assumptions/27.md). -/
def Obligations.CommitReportsTheFirstFailingCheck : Prop :=
  ∀ s : State, s.regs.phase = .unconfigured →
    let g := s.cfg
    let fft := g.fftSize.toNat
    ∃ t, exec .commit s = .next t ∧
      let failed := fun e => t = { s with
        regs := { s.regs with err := e, phase := .failed }
        port := { s.port with rdata := 0 } }
      if ¬(2 ≤ fft ∧ fft = 2 ^ Nat.log2 fft) then failed .config
      else if Config.caps.maxFft < fft then failed .capacity
      else if g.size.toNat < 1 then failed .config
      else if Config.caps.maxSize < g.size.toNat then failed .capacity
      else if fft < g.size.toNat then failed .config
      else if ¬(1 ≤ g.step.toNat ∧ g.step.toNat ≤ g.size.toNat) then failed .config
      else if g.nchan.toNat < 1 then failed .config
      else if Config.caps.maxChan < g.nchan.toNat then failed .capacity
      else if Config.caps.maxWeight < g.nweight.toNat then failed .capacity
      else if fft / 2 + 1 ≤ g.endIndex.toNat then failed .config
      else if ¬(∀ b < g.nchan.toNat + 1,
          (Memory.read s.tables.wstart b).toNat + (Memory.read s.tables.width b).toNat ≤ g.nweight.toNat) then
        failed .config
      else if 31 < g.smoothBits.toNat then failed .config
      else if ¬(g.evenSmooth.toNat ≤ 16384 ∧ g.oddSmooth.toNat ≤ 16384 ∧ g.minRemain.toNat ≤ 16384) then
        failed .config
      else if 63 < g.snrShift.toNat then failed .config
      else if 11 < g.logShift.toNat then failed .config
      else if Config.xfmInit fft = false then failed .xform
      else t.regs.err = .ok ∧ t.regs.phase = .awaitingFrame

/-- R315, R316: what a `COMMIT` whose checks pass leaves: the derived registers, every buffer and working register
zero, the configuration kept; and `E_XFORM` when only the collaborator fails (R314 check 16). -/
def Obligations.CommitConstructs : Prop :=
  ∀ s : State, s.regs.phase = .unconfigured → ConfigLegal s.cfg s.tables →
    ∃ t, exec .commit s = .next t ∧
      (Config.xfmInit s.cfg.fftSize.toNat = true →
        (∃ k : Nat, s.cfg.fftSize.toNat = 2 ^ k ∧ t.cfg.corrBits.toInt = (k : Int) - 6) ∧
        t.cfg.specSize.toNat = s.cfg.fftSize.toNat / 2 + 1 ∧
        t.cfg = { s.cfg with corrBits := t.cfg.corrBits, specSize := t.cfg.specSize } ∧
        t.tables = s.tables ∧
        (∀ sp i, sp = .inp ∨ sp = .out ∨ sp = .spec ∨ sp = .energy ∨ sp = .work ∨ sp = .sig ∨ sp = .est ∨ sp = .feat →
          memRead t sp i = 0) ∧
        t.regs = { Regs.reset with phase := .awaitingFrame } ∧
        t.port = { s.port with rdata := 0 } ∧ t.freeCtr = s.freeCtr) ∧
      (Config.xfmInit s.cfg.fftSize.toNat = false →
        t = { s with
          regs := { s.regs with err := .xform, phase := .failed }
          port := { s.port with rdata := 0 } })

/-- R317, entry of `PROC`: the old view dies, `ERR <- OK`, the micro-program starts at index 0 with this count; the
count kept on the port is the model's (notes/assumptions/3.md). Refused outside `AWAITING_FRAME`. -/
def Obligations.ProcStartsTheMicroProgram : Prop :=
  ∀ (s : State) (n : Nat),
    (s.regs.phase = .awaitingFrame →
      exec (.proc n) s = .next { s with
        regs := { s.regs with featureValid := false, nfeat := 0, err := .ok, seq := 0 }
        port := { s.port with rdata := 0, active := some n } }) ∧
    (s.regs.phase ≠ .awaitingFrame →
      exec (.proc n) s = .next { s with
        regs := { s.regs with err := .state }
        port := { s.port with rdata := 0 } })

/-- R322: what `RST` zeroes and what it leaves; `E_STATE` outside `AWAITING_FRAME`. -/
def Obligations.RstClearsHistory : Prop :=
  ∀ s : State,
    (s.regs.phase = .awaitingFrame →
      ∃ t, exec .rst s = .next t ∧
        (∀ sp i, sp = .inp ∨ sp = .out ∨ sp = .spec ∨ sp = .work ∨ sp = .est → memRead t sp i = 0) ∧
        t.bufs.energy = s.bufs.energy ∧ t.bufs.sig = s.bufs.sig ∧ t.bufs.feat = s.bufs.feat ∧
        t.regs = { s.regs with
          inputUsed := 0, peak := 0, featureValid := false, nfeat := 0, seq := 0, err := .ok } ∧
        t.cfg = s.cfg ∧ t.tables = s.tables ∧ t.port = { s.port with rdata := 0 } ∧ t.freeCtr = s.freeCtr) ∧
    (s.regs.phase ≠ .awaitingFrame →
      exec .rst s = .next { s with
        regs := { s.regs with err := .state }
        port := { s.port with rdata := 0 } })

/-- R323: "calling `reset` twice in succession is equivalent to calling it once". -/
def Obligations.RstIsIdempotent : Prop :=
  ∀ s : State, ∃ t, exec .rst s = .next t ∧ exec .rst t = .next t

/-- R330: `RD` answers the element and changes `ERR` and `rdata` only, in every phase; a space id above 0x11 or an
index at or past the capacity is `E_RANGE` with `rdata` 0. Every id up to 0x11 names a space, in the order of R30's
table, and no other id does. The capacities are those of R30's table, in terms of the four open ones of R12. -/
def Obligations.RdAnswersTheElement : Prop :=
  (∀ id i, id < 256 → i < 65536 → encode (.rd id i) = .host (BitVec.ofNat 32 (0x06000000 + 0x10000 * id + i))) ∧
  (∀ id, Space.ofId id =
    ([.cfg, .reg, .coef, .inp, .out, .spec, .energy, .fstart, .wstart, .width, .weight, .unweight, .work, .sig, .est,
      .glut, .llut, .feat] : List Space)[id]?) ∧
  (let size := Config.caps.maxSize
   let bins := Config.caps.maxFft / 2 + 1
   let chan := Config.caps.maxChan
   let weight := Config.caps.maxWeight
   Space.cfg.capacity Config.caps = 18 ∧ Space.reg.capacity Config.caps = 9 ∧
   Space.coef.capacity Config.caps = size ∧ Space.inp.capacity Config.caps = size ∧
   Space.out.capacity Config.caps = size ∧ Space.spec.capacity Config.caps = Config.caps.maxFft + 2 ∧
   Space.energy.capacity Config.caps = bins ∧ Space.fstart.capacity Config.caps = chan + 1 ∧
   Space.wstart.capacity Config.caps = chan + 1 ∧ Space.width.capacity Config.caps = chan + 1 ∧
   Space.weight.capacity Config.caps = weight ∧ Space.unweight.capacity Config.caps = weight ∧
   Space.work.capacity Config.caps = chan + 1 ∧ Space.sig.capacity Config.caps = chan ∧
   Space.est.capacity Config.caps = chan ∧ Space.glut.capacity Config.caps = 125 ∧
   Space.llut.capacity Config.caps = 129 ∧ Space.feat.capacity Config.caps = chan) ∧
  ∀ (s : State) (id i : Nat),
    (∀ sp, Space.ofId id = some sp → i < sp.capacity Config.caps →
      exec (.rd id i) s = .next { s with
        regs := { s.regs with err := .ok }
        port := { s.port with rdata := memRead s sp i } }) ∧
    ((0x11 < id ∨ ∃ sp, Space.ofId id = some sp ∧ sp.capacity Config.caps ≤ i) →
      exec (.rd id i) s = .next { s with
        regs := { s.regs with err := .range }
        port := { s.port with rdata := 0 } })

/-- R78, R106: `MemRead` keeps the number of the element: sign-extended for s16 and s8, zero-extended else; the scalar
registers (R24, with the numbers of R21 and R350) and the configuration registers (R40) under their indices. -/
def Obligations.MemReadKeepsTheNumber : Prop :=
  ∀ (s : State) (i : Nat),
    (memRead s .coef i).toInt = (Memory.read s.tables.coef i).toInt ∧
    (memRead s .inp i).toInt = (Memory.read s.bufs.inp i).toInt ∧
    (memRead s .out i).toInt = (Memory.read s.bufs.out i).toInt ∧
    (memRead s .spec i).toInt = (Memory.read s.bufs.spec i).toInt ∧
    (memRead s .weight i).toInt = (Memory.read s.tables.weight i).toInt ∧
    (memRead s .unweight i).toInt = (Memory.read s.tables.unweight i).toInt ∧
    (memRead s .glut i).toInt = (Memory.read s.tables.glut i).toInt ∧
    (memRead s .cfg 16).toInt = s.cfg.corrBits.toInt ∧
    (memRead s .energy i).toNat = (Memory.read s.bufs.energy i).toNat ∧
    (memRead s .work i).toNat = (Memory.read s.bufs.work i).toNat ∧
    (memRead s .sig i).toNat = (Memory.read s.bufs.sig i).toNat ∧
    (memRead s .est i).toNat = (Memory.read s.bufs.est i).toNat ∧
    (memRead s .feat i).toNat = (Memory.read s.bufs.feat i).toNat ∧
    (memRead s .fstart i).toNat = (Memory.read s.tables.fstart i).toNat ∧
    (memRead s .wstart i).toNat = (Memory.read s.tables.wstart i).toNat ∧
    (memRead s .width i).toNat = (Memory.read s.tables.width i).toNat ∧
    (memRead s .llut i).toNat = llut i ∧
    (s.regs.phase = .unconfigured → (memRead s .reg 0).toNat = 0) ∧
    (s.regs.phase = .awaitingFrame → (memRead s .reg 0).toNat = 1) ∧
    (s.regs.phase = .frameReady → (memRead s .reg 0).toNat = 2) ∧
    (s.regs.phase = .failed → (memRead s .reg 0).toNat = 3) ∧
    (memRead s .reg 1).toNat = s.regs.seq.toNat ∧
    (memRead s .reg 2).toNat = s.regs.status.toNat ∧
    (s.regs.err = .ok → (memRead s .reg 3).toNat = 0) ∧
    (s.regs.err = .config → (memRead s .reg 3).toNat = 1) ∧
    (s.regs.err = .capacity → (memRead s .reg 3).toNat = 2) ∧
    (s.regs.err = .state → (memRead s .reg 3).toNat = 3) ∧
    (s.regs.err = .illegal → (memRead s .reg 3).toNat = 4) ∧
    (s.regs.err = .range → (memRead s .reg 3).toNat = 5) ∧
    (s.regs.err = .xform → (memRead s .reg 3).toNat = 6) ∧
    (memRead s .reg 4).toNat = s.regs.inputUsed.toNat ∧
    (memRead s .reg 5).toNat = s.regs.peak.toNat ∧
    (memRead s .reg 6).toNat = s.regs.scaleShift.toNat ∧
    (memRead s .reg 7).toNat = s.regs.consumed.toNat ∧
    (memRead s .reg 8).toNat = s.regs.nfeat.toNat ∧
    (memRead s .cfg 0).toNat = s.cfg.size.toNat ∧
    (memRead s .cfg 1).toNat = s.cfg.step.toNat ∧
    (memRead s .cfg 2).toNat = s.cfg.fftSize.toNat ∧
    (memRead s .cfg 3).toNat = s.cfg.nchan.toNat ∧
    (memRead s .cfg 4).toNat = s.cfg.startIndex.toNat ∧
    (memRead s .cfg 5).toNat = s.cfg.endIndex.toNat ∧
    (memRead s .cfg 6).toNat = s.cfg.nweight.toNat ∧
    (memRead s .cfg 7).toNat = s.cfg.fbOutShift.toNat ∧
    (memRead s .cfg 8).toNat = s.cfg.smoothBits.toNat ∧
    (memRead s .cfg 9).toNat = s.cfg.evenSmooth.toNat ∧
    (memRead s .cfg 10).toNat = s.cfg.oddSmooth.toNat ∧
    (memRead s .cfg 11).toNat = s.cfg.minRemain.toNat ∧
    (memRead s .cfg 12).toNat = s.cfg.gcEnable.toNat ∧
    (memRead s .cfg 13).toNat = s.cfg.snrShift.toNat ∧
    (memRead s .cfg 14).toNat = s.cfg.logEnable.toNat ∧
    (memRead s .cfg 15).toNat = s.cfg.logShift.toNat ∧
    (memRead s .cfg 17).toNat = s.cfg.specSize.toNat

/-- R324, R381: after `CLR`, from any phase, every register and every element but LLUT's reads 0; the commands the
host has still to issue, the data and samples on the port and the counter of free values stay, which is the model's
choice (notes/assumptions/19.md, DEDUCED). -/
def Obligations.ClrPowersOn : Prop :=
  encode .clr = .host 0x07000000#32 ∧ ∀ s : State, ∃ t, exec .clr s = .next t ∧
    (∀ sp i, sp ≠ .llut → memRead t sp i = 0) ∧ (∀ i, memRead t .llut i = memRead s .llut i) ∧
    t.regs = Regs.reset ∧ t.cfg = Cfg.reset ∧ t.tables = Tables.reset ∧ t.bufs = Bufs.reset ∧
    t.port = { s.port with rdata := 0 } ∧ t.freeCtr = s.freeCtr

/-- R380: at power-on every register and every space holds 0, except LLUT, which holds its fixed contents: the 129
values R286 prints. -/
def Obligations.ResetIsPowerOn : Prop :=
  (∀ sp i, sp ≠ .llut → memRead State.reset sp i = 0) ∧
  (List.range 129).map (fun i => (memRead State.reset .llut i).toNat) =
    [0, 224, 442, 654, 861, 1063, 1259, 1450, 1636, 1817, 1992, 2163, 2329, 2490, 2646, 2797]
    ++ [2944, 3087, 3224, 3358, 3487, 3611, 3732, 3848, 3960, 4068, 4172, 4272, 4368, 4460, 4549, 4633]
    ++ [4714, 4791, 4864, 4934, 5001, 5063, 5123, 5178, 5231, 5280, 5326, 5368, 5408, 5444, 5477, 5507]
    ++ [5533, 5557, 5578, 5595, 5610, 5622, 5631, 5637, 5640, 5641, 5638, 5633, 5626, 5615, 5602, 5586]
    ++ [5568, 5547, 5524, 5498, 5470, 5439, 5406, 5370, 5332, 5291, 5249, 5203, 5156, 5106, 5054, 5000]
    ++ [4944, 4885, 4825, 4762, 4697, 4630, 4561, 4490, 4416, 4341, 4264, 4184, 4103, 4020, 3935, 3848]
    ++ [3759, 3668, 3575, 3481, 3384, 3286, 3186, 3084, 2981, 2875, 2768, 2659, 2549, 2437, 2323, 2207]
    ++ [2090, 1971, 1851, 1729, 1605, 1480, 1353, 1224, 1094, 963, 830, 695, 559, 421, 282, 142]
    ++ [0] ∧
  State.reset.regs.phase = .unconfigured ∧ State.reset.regs.err = .ok ∧ State.reset.regs.seq = 0

/-- R23: the three bits of `STATUS`, and no other. -/
def Obligations.StatusBits : Prop :=
  ∀ r : Regs,
    (r.status.getLsbD 0 = true ↔ r.phase = .awaitingFrame ∨ r.phase = .frameReady) ∧
    (r.status.getLsbD 1 = true ↔ r.phase = .failed) ∧
    (r.status.getLsbD 2 = true ↔ r.featureValid = true)

/-- R335, R354: a command that its phase does not allow is refused with `E_STATE` and changes nothing else. -/
def Obligations.PhaseRefusals : Prop :=
  ∀ (s : State) (i : Instr),
    (s.regs.phase ≠ .unconfigured ∧ (i = .commit ∨ (∃ k, i = .cfgwr k) ∨ ∃ sp k, i = .tblwr sp k)) ∨
      (s.regs.phase ≠ .awaitingFrame ∧ (i = .rst ∨ ∃ n, i = .proc n)) →
    ∃ t, exec i s = .next t ∧ t.regs.err = .state ∧ t.port.rdata = 0 ∧ sameButResult s t

/-! ### Unit W -/

/-- R131, R132: `W.FILL` appends the first n = min(count, SIZE − INPUT_USED) samples, reports n, and goes to index 1
when the buffer is full, else to index 11; `PHASE <- FRAME_READY` on the full exit as R317 says (where the model puts
that write is notes/assumptions/4.md). Its premise is R50 (a). -/
def Obligations.WFillAppendsSamples : Prop :=
  ∀ s : State, s.regs.inputUsed.toNat ≤ s.cfg.size.toNat →
    let used := s.regs.inputUsed.toNat
    let size := s.cfg.size.toNat
    let n := min (s.port.active.getD 0) (size - used)
    ∃ t, exec .wFill s = .next t ∧
      (∀ k v, k < n → s.port.samples[k]? = some v → Memory.read t.bufs.inp (used + k) = v) ∧
      (∀ i, i < used ∨ used + n ≤ i → Memory.read t.bufs.inp i = Memory.read s.bufs.inp i) ∧
      t.regs.consumed.toNat = n ∧ t.regs.inputUsed.toNat = used + n ∧
      t.regs.seq = (if used + n < size then 11 else 1) ∧
      t.regs.phase = (if used + n < size then s.regs.phase else .frameReady) ∧
      (n ≤ s.port.samples.length → t.freeCtr = s.freeCtr) ∧
      t = { s with
        bufs := { s.bufs with inp := t.bufs.inp }
        freeCtr := t.freeCtr
        regs := { s.regs with
          consumed := t.regs.consumed, inputUsed := t.regs.inputUsed, seq := t.regs.seq, phase := t.regs.phase } }

/-- R133, R134: `W.APPLY` on a legal window table: OUT[i] is the floor of IN[i] · COEF[i] / 4096, PEAK the largest
absolute output. -/
def Obligations.WApplyWindowsTheFrame : Prop :=
  ∀ s : State,
    (∀ i, i < s.cfg.size.toNat → 0 ≤ (Memory.read s.tables.coef i).toInt ∧ (Memory.read s.tables.coef i).toInt ≤ 4096) →
    ∃ t, exec .wApply s = .next t ∧
      (∀ i, i < s.cfg.size.toNat →
        let prod := (Memory.read s.bufs.inp i).toInt * (Memory.read s.tables.coef i).toInt
        4096 * (Memory.read t.bufs.out i).toInt ≤ prod ∧ prod < 4096 * ((Memory.read t.bufs.out i).toInt + 1)) ∧
      (∀ i, s.cfg.size.toNat ≤ i → Memory.read t.bufs.out i = Memory.read s.bufs.out i) ∧
      (∀ i, i < s.cfg.size.toNat → (Memory.read t.bufs.out i).toInt.natAbs ≤ t.regs.peak.toNat) ∧
      (t.regs.peak.toNat = 0 ∨
        ∃ i, i < s.cfg.size.toNat ∧ (Memory.read t.bufs.out i).toInt.natAbs = t.regs.peak.toNat) ∧
      t = { s with
        bufs := { s.bufs with out := t.bufs.out }
        regs := { s.regs with peak := t.regs.peak, seq := 2 } }

/-- R15, R107, R139, U1: where the model stops, each case outside the ranges the spec gives and in states no run reaches
(notes/assumptions/13.md, 14.md, 15.md; the stops are the model's choice): a window product outside 16 bits, an input
buffer counted fuller than the window, a slide past its start, a band sum outside u64, a fraction above 1.0, and the step
of a running `PROC` at an index past the 12 micro-operations of the ROM. -/
def Obligations.OutOfRangeWritesStop : Prop :=
  ∀ s : State,
    (∀ i, i < s.cfg.size.toNat →
      let prod := (Memory.read s.bufs.inp i).toInt * (Memory.read s.tables.coef i).toInt
      (prod < -32768 * 4096 ∨ 32768 * 4096 ≤ prod) → exec .wApply s = .refused .windowRange) ∧
    (s.cfg.size.toNat < s.regs.inputUsed.toNat → exec .wFill s = .fault .valueOutside) ∧
    ((s.cfg.size.toNat < s.cfg.step.toNat ∨ s.regs.inputUsed.toNat < s.cfg.step.toNat) →
      exec .wSlide s = .fault .valueOutside) ∧
    (∀ b, b ≤ s.cfg.nchan.toNat → ((bandAcc s b).1 < 0 ∨ 2 ^ 64 ≤ (bandAcc s b).1) →
      exec .fbAcc s = .fault .valueOutside) ∧
    ((16384 < s.cfg.evenSmooth.toNat ∨ 16384 < s.cfg.oddSmooth.toNat ∨ 16384 < s.cfg.minRemain.toNat) →
      exec .nrApply s = .fault .valueOutside) ∧
    (∀ n, s.port.active = some n → 12 ≤ s.regs.seq.toNat → step s = .refused (.noMicroOp s.regs.seq.toNat))

/-- R138: for every s16 x and every c with 0 ≤ c ≤ 4096 the window product fits s16, and its magnitude is at most x's. -/
def Obligations.WindowProductFits : Prop :=
  ∀ (s : State) (i : Nat),
    0 ≤ (Memory.read s.tables.coef i).toInt → (Memory.read s.tables.coef i).toInt ≤ 4096 →
    fitsSigned 16 (windowValue s i) = true ∧ (windowValue s i).natAbs ≤ (Memory.read s.bufs.inp i).toInt.natAbs

/-- R135: `W.SLIDE` moves IN left by STEP, leaves the tail as it was, and takes STEP off INPUT_USED. -/
def Obligations.WSlideDropsTheOldest : Prop :=
  encode .wSlide = .micro 0x12#8 ∧ fetchMicro 2 = some .wSlide ∧ ∀ s : State, s.cfg.step.toNat ≤ s.cfg.size.toNat → s.cfg.step.toNat ≤ s.regs.inputUsed.toNat →
    ∃ t, exec .wSlide s = .next t ∧
      (∀ i, Memory.read t.bufs.inp i =
        if i + s.cfg.step.toNat < s.cfg.size.toNat then Memory.read s.bufs.inp (i + s.cfg.step.toNat)
        else Memory.read s.bufs.inp i) ∧
      t.regs.inputUsed.toNat + s.cfg.step.toNat = s.regs.inputUsed.toNat ∧
      t = { s with
        bufs := { s.bufs with inp := t.bufs.inp }
        regs := { s.regs with inputUsed := t.regs.inputUsed, seq := 3 } }

/-! ### The port to XF -/

/-- R161: `SH.CALC`: 15 for a silent frame, else the parameter SHIFT_BASE less the position of the peak's highest set
bit, never below 0 (the subtraction of natural numbers stops at 0). -/
def Obligations.ShCalcScalesByThePeak : Prop :=
  encode .shCalc = .micro 0x13#8 ∧ fetchMicro 3 = some .shCalc ∧ ∀ s : State, ∃ t, exec .shCalc s = .next t ∧
    (s.regs.peak = 0 → t.regs.scaleShift = 15) ∧
    (∀ k : Nat, 2 ^ k ≤ s.regs.peak.toNat → s.regs.peak.toNat < 2 ^ (k + 1) →
      t.regs.scaleShift.toNat = shiftBase - k) ∧
    t = { s with regs := { s.regs with scaleShift := t.regs.scaleShift, seq := 4 } }

/-- R162, R163: the open parameter `SHIFT_BASE` is 14 or 15 (notes/assumptions/6.md). With 14 the shift is the largest
that keeps a peak up to 32767 inside s16; with 15 the shifted peak of every such frame is at least 2^15. -/
def Obligations.ScaleShiftUsesTheRange : Prop :=
  (shiftBase = 14 ∨ shiftBase = 15) ∧ ∀ p : Nat, 1 ≤ p → p ≤ 32767 →
    p * 2 ^ scaleShiftFor 14 p ≤ 32767 ∧ (∀ k, p * 2 ^ k ≤ 32767 → k ≤ scaleShiftFor 14 p) ∧
    2 ^ 15 ≤ p * 2 ^ scaleShiftFor 15 p ∧ scaleShiftFor 15 p ≤ 15

/-- R164: `X.REQ` hands XF the transform size, the frame OUT[0 .. SIZE−1] and the shift, and stores the answer's
SPEC_SIZE pairs. -/
def Obligations.XReqStoresTheSpectrum : Prop :=
  encode .xReq = .micro 0x14#8 ∧ fetchMicro 4 = some .xReq ∧ ∀ s : State, ∃ (t : State) (frame : List Sample), exec .xReq s = .next t ∧
    frame.length = s.cfg.size.toNat ∧
    (∀ i, i < s.cfg.size.toNat → frame[i]? = some (Memory.read s.bufs.out i)) ∧
    (∀ k, k < s.cfg.specSize.toNat →
      (Memory.read t.bufs.spec (2 * k), Memory.read t.bufs.spec (2 * k + 1))
        = Config.xfm s.cfg.fftSize.toNat frame s.regs.scaleShift.toNat k) ∧
    (∀ j, 2 * s.cfg.specSize.toNat ≤ j → Memory.read t.bufs.spec j = Memory.read s.bufs.spec j) ∧
    t = { s with bufs := { s.bufs with spec := t.bufs.spec }, regs := { s.regs with seq := 5 } }

/-! ### Unit FB -/

/-- R181: `FB.ENERGY`: the squared magnitude inside [START_INDEX, END_INDEX), 0 outside, at most 2^31. -/
def Obligations.FbEnergySquaresTheBins : Prop :=
  ∀ s : State, ∃ t, exec .fbEnergy s = .next t ∧
    (∀ k, k < s.cfg.specSize.toNat →
      ((Memory.read t.bufs.energy k).toNat : Int) =
        (if s.cfg.startIndex.toNat ≤ k ∧ k < s.cfg.endIndex.toNat then
          (Memory.read s.bufs.spec (2 * k)).toInt * (Memory.read s.bufs.spec (2 * k)).toInt
            + (Memory.read s.bufs.spec (2 * k + 1)).toInt * (Memory.read s.bufs.spec (2 * k + 1)).toInt
        else 0) ∧
      (Memory.read t.bufs.energy k).toNat ≤ 2 ^ 31) ∧
    (∀ k, s.cfg.specSize.toNat ≤ k → Memory.read t.bufs.energy k = Memory.read s.bufs.energy k) ∧
    t = { s with bufs := { s.bufs with energy := t.bufs.energy }, regs := { s.regs with seq := 6 } }

/-- R185, R186: from tables `TBLWR` accepts and energies `FB.ENERGY` writes, `FB.ACC` leaves in WORK[b] the weighted
sum over band b plus the unweighted sum over band b − 1, an energy past the spectrum counting as 0. -/
def Obligations.FbAccSumsTheBands : Prop :=
  ∀ s : State, s.tables.Legal → (∀ k, (Memory.read s.bufs.energy k).toNat ≤ 2 ^ 31) →
    let e := fun k => if k < s.cfg.specSize.toNat then ((Memory.read s.bufs.energy k).toNat : Int) else 0
    let sum := fun (tbl : Memory 16) (b : Nat) =>
      ∑ j ∈ Finset.range (Memory.read s.tables.width b).toNat,
        (Memory.read tbl ((Memory.read s.tables.wstart b).toNat + j)).toInt
          * e ((Memory.read s.tables.fstart b).toNat + j)
    ∃ t, exec .fbAcc s = .next t ∧
      (∀ b, b ≤ s.cfg.nchan.toNat →
        ((Memory.read t.bufs.work b).toNat : Int) =
          sum s.tables.weight b + (if b = 0 then 0 else sum s.tables.unweight (b - 1))) ∧
      (∀ b, s.cfg.nchan.toNat < b → Memory.read t.bufs.work b = Memory.read s.bufs.work b) ∧
      t = { s with bufs := { s.bufs with work := t.bufs.work }, regs := { s.regs with seq := 7 } }

/-- R188: no sum of `FB.ACC` overflows: every WORK[b] is below 2^59. -/
def Obligations.FbAccStaysBelowTwoPow59 : Prop :=
  ∀ s : State, s.tables.Legal → (∀ k, (Memory.read s.bufs.energy k).toNat ≤ 2 ^ 31) →
    ∀ b, 0 ≤ (bandAcc s b).1 ∧ (bandAcc s b).1 < 2 ^ 59

/-- R191: `isqrt_r`: the floor root, one more when n − r² > r and r is not the cap. -/
def Obligations.IsqrtRoundsToNearest : Prop :=
  ∀ n r : Nat, n < 2 ^ 64 → r * r ≤ n → n < (r + 1) * (r + 1) →
    isqrtRounded n =
      (if r < n - r * r ∧ r ≠ (if n < 2 ^ 32 then 0xFFFF else 0xFFFFFFFF) then r + 1 else r)

/-- R190, R193, R196: `FB.SQRT`: channel i is the rounded root of WORK[i + 1], shifted right afterwards. -/
def Obligations.FbSqrtRootsThenShifts : Prop :=
  ∀ s : State, ∃ t, exec .fbSqrt s = .next t ∧
    (∀ i, i < s.cfg.nchan.toNat →
      (Memory.read t.bufs.sig i).toNat
        = isqrtRounded (Memory.read s.bufs.work (i + 1)).toNat / 2 ^ s.regs.scaleShift.toNat) ∧
    (∀ i, s.cfg.nchan.toNat ≤ i → Memory.read t.bufs.sig i = Memory.read s.bufs.sig i) ∧
    t = { s with bufs := { s.bufs with sig := t.bufs.sig }, regs := { s.regs with seq := 8 } }

/-! ### Unit NR -/

/-- R231 to R234, R236: `NR.APPLY` with legal fractions: the stored estimate is the blend before the clamp and fits
u32; the output is the larger of the subtracted value and the floor. -/
def Obligations.NrApplyBlendsAndSubtracts : Prop :=
  ∀ s : State, s.cfg.evenSmooth.toNat ≤ 16384 → s.cfg.oddSmooth.toNat ≤ 16384 → s.cfg.minRemain.toNat ≤ 16384 →
    ∃ t, exec .nrApply s = .next t ∧
      (∀ i, i < s.cfg.nchan.toNat →
        let sm := if i % 2 = 0 then s.cfg.evenSmooth.toNat else s.cfg.oddSmooth.toNat
        let sig := (Memory.read s.bufs.sig i).toNat
        let up := sig * 2 ^ s.cfg.smoothBits.toNat % 2 ^ 32
        let e := (up * sm + (Memory.read s.bufs.est i).toNat * (16384 - sm)) / 16384
        let clamped := if up < e then up else e
        (Memory.read t.bufs.est i).toNat = e ∧
        (Memory.read t.bufs.sig i).toNat =
          max ((up - clamped) / 2 ^ s.cfg.smoothBits.toNat) (sig * s.cfg.minRemain.toNat / 16384)) ∧
      (∀ i, s.cfg.nchan.toNat ≤ i → Memory.read t.bufs.sig i = Memory.read s.bufs.sig i ∧
        Memory.read t.bufs.est i = Memory.read s.bufs.est i) ∧
      t = { s with bufs := { s.bufs with sig := t.bufs.sig, est := t.bufs.est }, regs := { s.regs with seq := 9 } }

/-- R235: the output is at least the floor, at most the signal when nothing wraps, and 0 for a zero signal, whose
estimate decays. -/
def Obligations.NrApplyOutputBounds : Prop :=
  ∀ (s : State) (i : Nat), i < s.cfg.nchan.toNat →
    s.cfg.evenSmooth.toNat ≤ 16384 → s.cfg.oddSmooth.toNat ≤ 16384 → s.cfg.minRemain.toNat ≤ 16384 →
    let sig := (Memory.read s.bufs.sig i).toNat
    let sm := if i % 2 = 0 then s.cfg.evenSmooth.toNat else s.cfg.oddSmooth.toNat
    ∃ t, exec .nrApply s = .next t ∧
      sig * s.cfg.minRemain.toNat / 16384 ≤ (Memory.read t.bufs.sig i).toNat ∧
      (sig * 2 ^ s.cfg.smoothBits.toNat < 2 ^ 32 → (Memory.read t.bufs.sig i).toNat ≤ sig) ∧
      (sig = 0 → Memory.read t.bufs.sig i = 0 ∧
        (Memory.read t.bufs.est i).toNat = (Memory.read s.bufs.est i).toNat * (16384 - sm) / 16384)

/-! ### Unit GC -/

/-- R252: with `GC_ENABLE` = 0 `GC.APPLY` writes nothing but `SEQ`. -/
def Obligations.GcApplyDisabledPassesThrough : Prop :=
  ∀ s : State, s.cfg.gcEnable = 0 → exec .gcApply s = .next { s with regs := { s.regs with seq := 10 } }

/-- R251, R253, R254, R262: with `GC_ENABLE` = 1 each channel is the shrunk low 32 bits of signal times gain over
2^SNR_SHIFT, a negative gain counting as 2^32 plus it. -/
def Obligations.GcApplyCompresses : Prop :=
  ∀ s : State, s.cfg.gcEnable = 1 →
    ∃ t, exec .gcApply s = .next t ∧
      (∀ i, i < s.cfg.nchan.toNat →
        let gain := (wdf s.tables (Memory.read s.bufs.est i).toNat).toInt
        let g := (if gain < 0 then 2 ^ 32 + gain else gain).toNat
        let snr := (Memory.read s.bufs.sig i).toNat * g / 2 ^ s.cfg.snrShift.toNat % 2 ^ 32
        (Memory.read t.bufs.sig i).toNat = if snr < 8192 then snr * snr / 2 ^ 20 else snr / 64 - 64) ∧
      (∀ i, s.cfg.nchan.toNat ≤ i → Memory.read t.bufs.sig i = Memory.read s.bufs.sig i) ∧
      t = { s with bufs := { s.bufs with sig := t.bufs.sig }, regs := { s.regs with seq := 10 } }

/-- R258: where `Wdf` finds the gain: the two point entries and GLUT[2] as they are; above them the interval of x's
highest set bit, whose lower end gives its first entry exactly. -/
def Obligations.WdfAtIntervalEnds : Prop :=
  ∀ t : Tables,
    (∀ x, x ≤ 2 → wdf t x = Memory.read t.glut x) ∧
    (∀ v, 2 ≤ v → v ≤ 32 → wdf t (2 ^ (v - 1)) = Memory.read t.glut (4 * v - 6))

/-- R258, R259: `Wdf` above the point entries, for every s16 table: v the position of x's highest set bit, `frac` the
10 bits below it, and the two truncations in their order; no intermediate leaves s32, and only the last sum can leave
s16, of which the low 16 bits are the answer. R259 is an inference the spec marks as its own. -/
def Obligations.WdfStaysInThirtyTwoBits : Prop :=
  ∀ (t : Tables) (x v : Nat), 2 < x → x < 2 ^ 32 → 2 ^ (v - 1) ≤ x → x < 2 ^ v →
    let base := 4 * v - 6
    let frac := (if v < 11 then x * 2 ^ (11 - v) else x / 2 ^ (v - 11)) % 1024
    let a1 := (Memory.read t.glut (base + 1)).toInt
    let a2 := (Memory.read t.glut (base + 2)).toInt
    let t1 := a2 * frac / 32
    let t2 := t1 + a1 * 32
    let t3 := t2 * frac + 16384
    fitsSigned 32 (a2 * frac) = true ∧ fitsSigned 32 t2 = true ∧ fitsSigned 32 (t2 * frac) = true ∧
      fitsSigned 32 t3 = true ∧ -65441 ≤ t3 / 32768 ∧ t3 / 32768 ≤ 65441 ∧
      wdf t x = BitVec.ofInt 16 (t3 / 32768 + (Memory.read t.glut base).toInt)

/-- R263, an inference the spec marks as its own: `Shrink` is non-decreasing, meets at the knee, never exceeds
2^26 − 65, no step wraps, and the values the rule lists. -/
def Obligations.ShrinkIsMonotone : Prop :=
  (∀ x y, x ≤ y → shrink x ≤ shrink y) ∧ shrink 8191 = 63 ∧ shrink 8192 = 64 ∧
    (∀ x, x < 2 ^ 32 → shrink x ≤ 2 ^ 26 - 65 ∧ (x < 8192 → x * x < 2 ^ 26) ∧ (8192 ≤ x → 128 ≤ x / 2 ^ 6)) ∧
    [0, 1023, 1024, 1448, 1449, 4096, 8193, 100000, 2 ^ 32 - 1].map shrink = [0, 0, 1, 1, 2, 16, 64, 1498, 67108799]

/-! ### Unit LS -/

/-- R281 to R283, R292, R293: `LS.APPLY`: with `LOG_ENABLE` = 0 the saturated signal, not shifted; else the correction
shift, 0 for values up to 1, and the saturated scaled logarithm of the rest. SIG is not changed. -/
def Obligations.LsApplyScalesAndSaturates : Prop :=
  encode .lsApply = .micro 0x1A#8 ∧ fetchMicro 10 = some .lsApply ∧ ∀ s : State, ∃ t, exec .lsApply s = .next t ∧
    (∀ i, i < s.cfg.nchan.toNat →
      let sig := (Memory.read s.bufs.sig i).toNat
      let c := s.cfg.corrBits.toInt
      let v := if c < 0 then sig / 2 ^ (-c).toNat else sig * 2 ^ c.toNat % 2 ^ 32
      (s.cfg.logEnable = 0 → (Memory.read t.bufs.feat i).toNat = min sig 65535) ∧
      (s.cfg.logEnable = 1 → v ≤ 1 → (Memory.read t.bufs.feat i).toNat = 0) ∧
      (s.cfg.logEnable = 1 → 2 ≤ v →
        (Memory.read t.bufs.feat i).toNat = min (logScaled logInterpShift s.cfg.logShift.toNat v) 65535)) ∧
    (∀ i, s.cfg.nchan.toNat ≤ i → Memory.read t.bufs.feat i = Memory.read s.bufs.feat i) ∧
    t = { s with bufs := { s.bufs with feat := t.bufs.feat }, regs := { s.regs with seq := 11 } }

/-- R284, R285, R292: `LogScaled` step by step, for every v up to 32 bits, LOG_SHIFT up to 11 and either admissible
interpolation shift, of which `LS.APPLY` uses one (open, notes/assumptions/7.md): n the position of v's highest set bit,
the mantissa as a fraction of 16 bits, the two table entries of its segment and the correction between them; the
logarithm is below 2^21, the product before the last shift below 2^32, and the result below 65535, "so the clamp never
acts on that path". -/
def Obligations.LogScaledStaysBelowTheClamp : Prop :=
  (logInterpShift = 16 ∨ logInterpShift = 9) ∧
  ∀ v n sh interp : Nat, 2 ≤ v → v < 2 ^ 32 → 2 ^ n ≤ v → v < 2 ^ (n + 1) → sh ≤ 11 → interp = 16 ∨ interp = 9 →
    let m := v - 2 ^ n
    let frac := if n < 16 then m * 2 ^ (16 - n) else m / 2 ^ (n - 16)
    let seg := frac / 512
    let c0 : Int := (llut seg : Int)
    let c1 : Int := (llut (seg + 1) : Int)
    let fr := (frac : Int) + c0 + (c1 - c0) * ((frac : Int) - 512 * seg) / 2 ^ interp
    let l2 := (n : Int) * 65536 + fr
    let le := (45426 * l2 + 32768) / 65536
    seg ≤ 127 ∧ log2Frac interp v n = fr ∧ 0 ≤ l2 ∧ l2 < 2 ^ 22 ∧ le < 2 ^ 21 ∧ le * 2 ^ sh + 32768 < 2 ^ 32 ∧
      ((logScaled interp sh v : Nat) : Int) = (le * 2 ^ sh + 32768) / 65536 ∧ logScaled interp sh v < 65535

/-! ### The sequencer -/

/-- R319: `SEQ.END` publishes the features of a finished frame and returns; on the not-ready exit nothing but `SEQ`
changes. That the port's record of the running `PROC` ends is the model's choice (notes/assumptions/3.md, DEDUCED). -/
def Obligations.SeqEndReturns : Prop :=
  encode .seqEnd = .micro 0x1B#8 ∧ fetchMicro 11 = some .seqEnd ∧ ∀ s : State,
    (s.regs.phase = .frameReady →
      exec .seqEnd s = .next { s with
        regs := { s.regs with nfeat := s.cfg.nchan, featureValid := true, phase := .awaitingFrame, seq := 0 }
        port := { s.port with active := none } }) ∧
    (s.regs.phase ≠ .frameReady →
      exec .seqEnd s = .next { s with
        regs := { s.regs with seq := 0 }
        port := { s.port with active := none } })

/-- R22, R318: each micro-operation after the first goes to the next index, SEQ.END to 0, and only `W.FILL` branches. -/
def Obligations.MicroProgramControlFlow : Prop :=
  ∀ (s t : State) (k : Nat) (i : Instr), k < 12 → fetchMicro (BitVec.ofNat 4 k) = some i → exec i s = .next t →
    (k = 0 → t.regs.seq = 1 ∨ t.regs.seq = 11) ∧ (1 ≤ k → k ≤ 10 → t.regs.seq.toNat = k + 1) ∧
      (k = 11 → t.regs.seq = 0)

/-- R20, R71: no micro-operation writes a configuration register or a table, and none writes `ERR` or the answer. -/
def Obligations.MicroOpsKeepTheConfiguration : Prop :=
  ∀ (s t : State) (i : Instr) (c : MicroCode), encode i = .micro c → exec i s = .next t →
    t.cfg = s.cfg ∧ t.tables = s.tables ∧ t.regs.err = s.regs.err ∧
      t.port = { s.port with active := t.port.active }

/-- R317, R318, R320, R321, R132: one `PROC` as the host sees it. It consumes min(count, SIZE − INPUT_USED) samples;
short of a full buffer it produces nothing and leaves every other buffer; else it produces NCHAN features and keeps
the overlap. That it returns rests on the model's XF, which always answers (notes/assumptions/8.md; R164, U11). -/
def Obligations.ProcAsTheHostSeesIt : Prop :=
  ∀ (s : State) (xs : List Sample), Inv s → s.port.active = none → s.regs.phase = .awaitingFrame →
    xs.length < 65536 →
    let used := s.regs.inputUsed.toNat
    let size := s.cfg.size.toNat
    let step := s.cfg.step.toNat
    ∃ t, command (procCommand xs) s = .next t ∧
      t.regs.consumed.toNat = min xs.length (size - used) ∧
      t.cfg = s.cfg ∧ t.tables = s.tables ∧ t.freeCtr = s.freeCtr ∧
      t.port.active = none ∧ t.port.queue = s.port.queue ∧ t.port.rdata = 0 ∧
      t.regs.phase = .awaitingFrame ∧ t.regs.seq = 0 ∧ t.regs.err = .ok ∧
      (used + xs.length < size →
        t.regs.nfeat = 0 ∧ t.regs.featureValid = false ∧ t.regs.inputUsed.toNat = used + xs.length ∧
        t.regs.peak = s.regs.peak ∧ t.regs.scaleShift = s.regs.scaleShift ∧
        t.bufs = { s.bufs with inp := t.bufs.inp } ∧
        ∀ i, Memory.read t.bufs.inp i =
          if used ≤ i ∧ i < used + xs.length then xs.getD (i - used) 0 else Memory.read s.bufs.inp i) ∧
      (size ≤ used + xs.length →
        t.regs.nfeat = s.cfg.nchan ∧ t.regs.featureValid = true ∧ t.regs.inputUsed.toNat = size - step ∧
        ∀ i, i < size - step → Memory.read t.bufs.inp i =
          if i + step < used then Memory.read s.bufs.inp (i + step) else xs.getD (i + step - used) 0)

/-! ### The whole machine -/

/-- R380: the invariant holds at power-on. -/
def Obligations.ResetHasTheInvariant : Prop :=
  Inv State.reset

/-- R50, R21, R22, R75, R200, R356: every step keeps the block's invariant. -/
def Obligations.StepKeepsTheInvariant : Prop :=
  ∀ s t : State, Inv s → step s = .next t → Inv t

/-- The canonical form of the spaces alone is kept by every step, from any state that has it. -/
def Obligations.StepKeepsTheCanonicalForm : Prop :=
  ∀ s t : State, s.canonical = true → step s = .next t → t.canonical = true

/-- R335, R351 (c), R15, R139: from a state with the invariant a step never stops: no run-time failure, no value
outside its range, no window product outside 16 bits, no index without a micro-operation. What a step is, one command or
one micro-operation, is the model's granularity (notes/assumptions/3.md), and the step of `X.REQ` rests on an XF that
always answers (notes/assumptions/8.md; R164). -/
def Obligations.StepNeverStops : Prop :=
  ∀ s : State, Inv s → ∃ t, step s = .next t

/-- R361, R390: every command the host issues to an idle block returns, in a state with the invariant, the host's later
commands untouched. `command` allows it 13 steps of the model, one for the command and one for each of the 12
micro-operations; the spec counts no steps, that granularity is the model's (notes/assumptions/3.md). That it returns at
all rests on the model's XF, which always answers (notes/assumptions/8.md): R164 and U11 ask a model to assume that, and
of a collaborator that hangs the statement is false. -/
def Obligations.EveryCommandReturns : Prop :=
  ∀ (s : State) (c : HostCmd), Inv s → s.port.active = none →
    ∃ t, command c s = .next t ∧ t.port.active = none ∧ t.port.queue = s.port.queue ∧ Inv t

/-- R81, R393: between `COMMIT` and `CLR` no step changes a configuration register or a table. -/
def Obligations.ConfigurationIsFrozen : Prop :=
  ∀ s t : State, s.regs.phase.configured = true → step s = .next t →
    (t.cfg = s.cfg ∧ t.tables = s.tables) ∨
      (s.port.active = none ∧ ∃ c rest, s.port.queue = c :: rest ∧ decodeHost c.word = .ok .clr)

/-- R310: the transitions of `PHASE` and the event of each; no other transition exists. What a step is, one command or
one micro-operation, is the model's granularity (notes/assumptions/3.md). -/
def Obligations.PhaseTransitions : Prop :=
  ∀ s t : State, Inv s → step s = .next t →
    let takes := fun i => s.port.active = none ∧ ∃ c rest, s.port.queue = c :: rest ∧ decodeHost c.word = .ok i
    t.regs.phase = s.regs.phase ∨
    (s.regs.phase = .unconfigured ∧ t.regs.phase = .awaitingFrame ∧ takes .commit) ∨
    (s.regs.phase = .unconfigured ∧ t.regs.phase = .failed ∧ takes .commit) ∨
    (s.regs.phase = .awaitingFrame ∧ t.regs.phase = .frameReady ∧ s.port.active ≠ none ∧ s.regs.seq = 0 ∧
      t.regs.inputUsed = s.cfg.size) ∨
    (s.regs.phase = .frameReady ∧ t.regs.phase = .awaitingFrame ∧ s.port.active ≠ none ∧ s.regs.seq = 11) ∨
    (t.regs.phase = .unconfigured ∧ takes .clr)

/-- R356: a failed block stays failed, its configuration, tables and buffers as they were, until `CLR`. -/
def Obligations.FailedUntilClr : Prop :=
  ∀ s t : State, s.regs.phase = .failed → s.port.active = none → step s = .next t →
    (∃ c rest, s.port.queue = c :: rest ∧ decodeHost c.word = .ok .clr) ∨
    (t.regs.phase = .failed ∧ t.cfg = s.cfg ∧ t.tables = s.tables ∧ t.bufs = s.bufs ∧
      t.regs = { s.regs with err := t.regs.err })

/-- R323, an inference the spec marks as its own: after `RST` the block behaves, for every later `PROC`, as after the
`COMMIT` that configured it. `bare` is the block with the same configuration and tables loaded and not yet committed,
`c` what a `COMMIT` leaves of it whose collaborator could be prepared; for any sequence of `PROC`s after the `RST` and
after that `COMMIT` the counts consumed and the feature views are the same, and so are the input buffer and the
estimates they leave. -/
def Obligations.RstIsAsGoodAsCommit : Prop :=
  ∀ (s : State) (chunks : List (List Sample)), Inv s → s.port.active = none → s.regs.phase = .awaitingFrame →
    (∀ xs ∈ chunks, xs.length < 65536) →
    let bare := { s with regs := Regs.reset, cfg := { s.cfg with corrBits := 0, specSize := 0 }, bufs := Bufs.reset }
    let c := commitWith Config.caps (fun _ => true) bare
    (Config.xfmInit s.cfg.fftSize.toNat = true → exec .commit bare = .next c) ∧
    c.regs.phase = .awaitingFrame ∧ c.cfg = s.cfg ∧ c.tables = s.tables ∧
    ∃ r t u seen, exec .rst s = .next r ∧
      procs chunks r = some (t, seen) ∧ procs chunks c = some (u, seen) ∧ seen.length = chunks.length ∧
      t.regs.inputUsed = u.regs.inputUsed ∧ t.bufs.inp = u.bufs.inp ∧ t.bufs.est = u.bufs.est

/-- R111, R136, and R333, an inference the spec marks as its own: `FEED` of any finite stream to a freshly constructed
or reset block terminates with at most one `PROC` per sample and yields exactly 0 or (L − SIZE) / STEP + 1 feature
vectors of NCHAN features each. That it terminates rests on the model's XF, which always answers
(notes/assumptions/8.md; R164, U11). -/
def Obligations.FeedYieldsTheFrames : Prop :=
  ∀ (s : State) (xs : List Sample), Inv s → s.port.active = none → s.regs.phase = .awaitingFrame →
    s.regs.inputUsed = 0 →
    ∃ t views, feed xs.length xs s = some (t, views) ∧
      views.length = (if xs.length < s.cfg.size.toNat then 0
        else (xs.length - s.cfg.size.toNat) / s.cfg.step.toNat + 1) ∧
      (∀ v ∈ views, v.length = s.cfg.nchan.toNat) ∧ t.port.active = none ∧ t.regs.phase = .awaitingFrame

/-- R140, R399, inferences the spec marks as its own: chunking invariance: feeding a stream in two parts gives the same feature vectors, in order, and the
same buffers as feeding it whole, from any idle configured block. -/
def Obligations.FeedIsChunkingInvariant : Prop :=
  ∀ (s : State) (xs ys : List Sample), Inv s → s.port.active = none → s.regs.phase = .awaitingFrame →
    ∃ t u w views views', feed xs.length xs s = some (t, views) ∧ feed ys.length ys t = some (u, views') ∧
      feed (xs ++ ys).length (xs ++ ys) s = some (w, views ++ views') ∧
      w.bufs = u.bufs ∧ w.regs.inputUsed = u.regs.inputUsed ∧ w.regs.peak = u.regs.peak ∧
      w.regs.scaleShift = u.regs.scaleShift

/-! ### Host-side constructions -/

/-- R214 to R216, R222 (a) to (c): every constructed layout, for any mel scale: widths positive multiples of 4, starts
even, the running offset a multiple of 4 that every band's table range fits, the bands' own bins contiguous from the
start index. -/
def Obligations.ConstructedLayoutIsAligned : Prop :=
  ∀ (below : Nat → Nat → Bool) (fuel start n : Nat),
    let l := layoutBands below fuel start n
    l.bands.length = n ∧ l.woff % 4 = 0 ∧
      (∀ d ∈ l.bands, 0 < d.width ∧ d.width % 4 = 0 ∧ d.fstart % 2 = 0 ∧ d.wstart + d.width ≤ l.woff) ∧
      (∀ (k : Nat) (d d' : Band), l.bands[k]? = some d → l.bands[k + 1]? = some d' →
        d'.astart = d.astart + d.awidth) ∧
      (∀ d, l.bands[0]? = some d → d.astart = start)

/-- R169: `FFT_SIZE` is the smallest power of two at or above `SIZE`. -/
def Obligations.MinimalFftIsMinimal : Prop :=
  ∀ size : Nat, 1 ≤ size →
    (∃ k, minimalFft size = 2 ^ k) ∧ size ≤ minimalFft size ∧ ∀ k, size ≤ 2 ^ k → minimalFft size ≤ 2 ^ k
end

