-- ==== Sys2Proof/Laws/State.lean ====
section
/-! SUPPORT. One lemma per field per named update of the state, each true by definition, so that no later proof
unfolds an update. -/

namespace Sys2Proof.Machine

variable (s : State)

@[simp] theorem raise_cfg (e : ErrCode) : (raise e s).cfg = s.cfg := rfl
@[simp] theorem raise_tables (e : ErrCode) : (raise e s).tables = s.tables := rfl
@[simp] theorem raise_bufs (e : ErrCode) : (raise e s).bufs = s.bufs := rfl
@[simp] theorem raise_freeCtr (e : ErrCode) : (raise e s).freeCtr = s.freeCtr := rfl
@[simp] theorem raise_phase (e : ErrCode) : (raise e s).regs.phase = if e.isConstruction then .failed else s.regs.phase := rfl
@[simp] theorem raise_seq (e : ErrCode) : (raise e s).regs.seq = s.regs.seq := rfl
@[simp] theorem raise_featureValid (e : ErrCode) : (raise e s).regs.featureValid = s.regs.featureValid := rfl
@[simp] theorem raise_err (e : ErrCode) : (raise e s).regs.err = e := rfl
@[simp] theorem raise_inputUsed (e : ErrCode) : (raise e s).regs.inputUsed = s.regs.inputUsed := rfl
@[simp] theorem raise_peak (e : ErrCode) : (raise e s).regs.peak = s.regs.peak := rfl
@[simp] theorem raise_scaleShift (e : ErrCode) : (raise e s).regs.scaleShift = s.regs.scaleShift := rfl
@[simp] theorem raise_consumed (e : ErrCode) : (raise e s).regs.consumed = s.regs.consumed := rfl
@[simp] theorem raise_nfeat (e : ErrCode) : (raise e s).regs.nfeat = s.regs.nfeat := rfl
@[simp] theorem raise_queue (e : ErrCode) : (raise e s).port.queue = s.port.queue := rfl
@[simp] theorem raise_wdata (e : ErrCode) : (raise e s).port.wdata = s.port.wdata := rfl
@[simp] theorem raise_samples (e : ErrCode) : (raise e s).port.samples = s.port.samples := rfl
@[simp] theorem raise_rdata (e : ErrCode) : (raise e s).port.rdata = 0 := rfl
@[simp] theorem raise_active (e : ErrCode) : (raise e s).port.active = s.port.active := rfl

@[simp] theorem finish_cfg (a : DataWord) : (finish a s).cfg = s.cfg := rfl
@[simp] theorem finish_tables (a : DataWord) : (finish a s).tables = s.tables := rfl
@[simp] theorem finish_bufs (a : DataWord) : (finish a s).bufs = s.bufs := rfl
@[simp] theorem finish_freeCtr (a : DataWord) : (finish a s).freeCtr = s.freeCtr := rfl
@[simp] theorem finish_phase (a : DataWord) : (finish a s).regs.phase = s.regs.phase := rfl
@[simp] theorem finish_seq (a : DataWord) : (finish a s).regs.seq = s.regs.seq := rfl
@[simp] theorem finish_featureValid (a : DataWord) : (finish a s).regs.featureValid = s.regs.featureValid := rfl
@[simp] theorem finish_err (a : DataWord) : (finish a s).regs.err = .ok := rfl
@[simp] theorem finish_inputUsed (a : DataWord) : (finish a s).regs.inputUsed = s.regs.inputUsed := rfl
@[simp] theorem finish_peak (a : DataWord) : (finish a s).regs.peak = s.regs.peak := rfl
@[simp] theorem finish_scaleShift (a : DataWord) : (finish a s).regs.scaleShift = s.regs.scaleShift := rfl
@[simp] theorem finish_consumed (a : DataWord) : (finish a s).regs.consumed = s.regs.consumed := rfl
@[simp] theorem finish_nfeat (a : DataWord) : (finish a s).regs.nfeat = s.regs.nfeat := rfl
@[simp] theorem finish_queue (a : DataWord) : (finish a s).port.queue = s.port.queue := rfl
@[simp] theorem finish_wdata (a : DataWord) : (finish a s).port.wdata = s.port.wdata := rfl
@[simp] theorem finish_samples (a : DataWord) : (finish a s).port.samples = s.port.samples := rfl
@[simp] theorem finish_rdata (a : DataWord) : (finish a s).port.rdata = a := rfl
@[simp] theorem finish_active (a : DataWord) : (finish a s).port.active = s.port.active := rfl

@[simp] theorem goSeq_cfg (k : BitVec 4) : (goSeq k s).cfg = s.cfg := rfl
@[simp] theorem goSeq_tables (k : BitVec 4) : (goSeq k s).tables = s.tables := rfl
@[simp] theorem goSeq_bufs (k : BitVec 4) : (goSeq k s).bufs = s.bufs := rfl
@[simp] theorem goSeq_freeCtr (k : BitVec 4) : (goSeq k s).freeCtr = s.freeCtr := rfl
@[simp] theorem goSeq_phase (k : BitVec 4) : (goSeq k s).regs.phase = s.regs.phase := rfl
@[simp] theorem goSeq_seq (k : BitVec 4) : (goSeq k s).regs.seq = k := rfl
@[simp] theorem goSeq_featureValid (k : BitVec 4) : (goSeq k s).regs.featureValid = s.regs.featureValid := rfl
@[simp] theorem goSeq_err (k : BitVec 4) : (goSeq k s).regs.err = s.regs.err := rfl
@[simp] theorem goSeq_inputUsed (k : BitVec 4) : (goSeq k s).regs.inputUsed = s.regs.inputUsed := rfl
@[simp] theorem goSeq_peak (k : BitVec 4) : (goSeq k s).regs.peak = s.regs.peak := rfl
@[simp] theorem goSeq_scaleShift (k : BitVec 4) : (goSeq k s).regs.scaleShift = s.regs.scaleShift := rfl
@[simp] theorem goSeq_consumed (k : BitVec 4) : (goSeq k s).regs.consumed = s.regs.consumed := rfl
@[simp] theorem goSeq_nfeat (k : BitVec 4) : (goSeq k s).regs.nfeat = s.regs.nfeat := rfl
@[simp] theorem goSeq_port (k : BitVec 4) : (goSeq k s).port = s.port := rfl

@[simp] theorem takeCommand_cfg (c : HostCmd) (r : List HostCmd) : (takeCommand c r s).cfg = s.cfg := rfl
@[simp] theorem takeCommand_tables (c : HostCmd) (r : List HostCmd) : (takeCommand c r s).tables = s.tables := rfl
@[simp] theorem takeCommand_bufs (c : HostCmd) (r : List HostCmd) : (takeCommand c r s).bufs = s.bufs := rfl
@[simp] theorem takeCommand_freeCtr (c : HostCmd) (r : List HostCmd) : (takeCommand c r s).freeCtr = s.freeCtr := rfl
@[simp] theorem takeCommand_regs (c : HostCmd) (r : List HostCmd) : (takeCommand c r s).regs = s.regs := rfl
@[simp] theorem takeCommand_queue (c : HostCmd) (r : List HostCmd) : (takeCommand c r s).port.queue = r := rfl
@[simp] theorem takeCommand_wdata (c : HostCmd) (r : List HostCmd) : (takeCommand c r s).port.wdata = c.wdata := rfl
@[simp] theorem takeCommand_samples (c : HostCmd) (r : List HostCmd) : (takeCommand c r s).port.samples = c.samples := rfl
@[simp] theorem takeCommand_rdata (c : HostCmd) (r : List HostCmd) : (takeCommand c r s).port.rdata = s.port.rdata := rfl
@[simp] theorem takeCommand_active (c : HostCmd) (r : List HostCmd) : (takeCommand c r s).port.active = s.port.active := rfl

@[simp] theorem State.issue_cfg (c : HostCmd) : (s.issue c).cfg = s.cfg := rfl
@[simp] theorem State.issue_tables (c : HostCmd) : (s.issue c).tables = s.tables := rfl
@[simp] theorem State.issue_bufs (c : HostCmd) : (s.issue c).bufs = s.bufs := rfl
@[simp] theorem State.issue_freeCtr (c : HostCmd) : (s.issue c).freeCtr = s.freeCtr := rfl
@[simp] theorem State.issue_regs (c : HostCmd) : (s.issue c).regs = s.regs := rfl
@[simp] theorem State.issue_queue (c : HostCmd) : (s.issue c).port.queue = c :: s.port.queue := rfl
@[simp] theorem State.issue_wdata (c : HostCmd) : (s.issue c).port.wdata = s.port.wdata := rfl
@[simp] theorem State.issue_samples (c : HostCmd) : (s.issue c).port.samples = s.port.samples := rfl
@[simp] theorem State.issue_rdata (c : HostCmd) : (s.issue c).port.rdata = s.port.rdata := rfl
@[simp] theorem State.issue_active (c : HostCmd) : (s.issue c).port.active = s.port.active := rfl

@[simp] theorem State.presentWord_cfg (w : HostWord) : (s.presentWord w).cfg = s.cfg := rfl
@[simp] theorem State.presentWord_tables (w : HostWord) : (s.presentWord w).tables = s.tables := rfl
@[simp] theorem State.presentWord_bufs (w : HostWord) : (s.presentWord w).bufs = s.bufs := rfl
@[simp] theorem State.presentWord_freeCtr (w : HostWord) : (s.presentWord w).freeCtr = s.freeCtr := rfl
@[simp] theorem State.presentWord_regs (w : HostWord) : (s.presentWord w).regs = s.regs := rfl
@[simp] theorem State.presentWord_queue (w : HostWord) : (s.presentWord w).port.queue = plainCommand w :: s.port.queue := rfl
@[simp] theorem State.presentWord_wdata (w : HostWord) : (s.presentWord w).port.wdata = s.port.wdata := rfl
@[simp] theorem State.presentWord_samples (w : HostWord) : (s.presentWord w).port.samples = s.port.samples := rfl
@[simp] theorem State.presentWord_rdata (w : HostWord) : (s.presentWord w).port.rdata = s.port.rdata := rfl
@[simp] theorem State.presentWord_active (w : HostWord) : (s.presentWord w).port.active = none := rfl

@[simp] theorem State.selectMicro_cfg (c : MicroCode) : (s.selectMicro c).cfg = s.cfg := rfl
@[simp] theorem State.selectMicro_tables (c : MicroCode) : (s.selectMicro c).tables = s.tables := rfl
@[simp] theorem State.selectMicro_bufs (c : MicroCode) : (s.selectMicro c).bufs = s.bufs := rfl
@[simp] theorem State.selectMicro_freeCtr (c : MicroCode) : (s.selectMicro c).freeCtr = s.freeCtr := rfl
@[simp] theorem State.selectMicro_phase (c : MicroCode) : (s.selectMicro c).regs.phase = s.regs.phase := rfl
@[simp] theorem State.selectMicro_seq (c : MicroCode) : (s.selectMicro c).regs.seq = romIndex c := rfl
@[simp] theorem State.selectMicro_featureValid (c : MicroCode) : (s.selectMicro c).regs.featureValid = s.regs.featureValid := rfl
@[simp] theorem State.selectMicro_err (c : MicroCode) : (s.selectMicro c).regs.err = s.regs.err := rfl
@[simp] theorem State.selectMicro_inputUsed (c : MicroCode) : (s.selectMicro c).regs.inputUsed = s.regs.inputUsed := rfl
@[simp] theorem State.selectMicro_peak (c : MicroCode) : (s.selectMicro c).regs.peak = s.regs.peak := rfl
@[simp] theorem State.selectMicro_scaleShift (c : MicroCode) : (s.selectMicro c).regs.scaleShift = s.regs.scaleShift := rfl
@[simp] theorem State.selectMicro_consumed (c : MicroCode) : (s.selectMicro c).regs.consumed = s.regs.consumed := rfl
@[simp] theorem State.selectMicro_nfeat (c : MicroCode) : (s.selectMicro c).regs.nfeat = s.regs.nfeat := rfl
@[simp] theorem State.selectMicro_queue (c : MicroCode) : (s.selectMicro c).port.queue = s.port.queue := rfl
@[simp] theorem State.selectMicro_wdata (c : MicroCode) : (s.selectMicro c).port.wdata = s.port.wdata := rfl
@[simp] theorem State.selectMicro_samples (c : MicroCode) : (s.selectMicro c).port.samples = s.port.samples := rfl
@[simp] theorem State.selectMicro_rdata (c : MicroCode) : (s.selectMicro c).port.rdata = s.port.rdata := rfl
@[simp] theorem State.selectMicro_active (c : MicroCode) : (s.selectMicro c).port.active = some s.port.count := rfl

@[simp] theorem Cfg.withDerived_size (g : Cfg) : g.withDerived.size = g.size := rfl
@[simp] theorem Cfg.withDerived_step (g : Cfg) : g.withDerived.step = g.step := rfl
@[simp] theorem Cfg.withDerived_fftSize (g : Cfg) : g.withDerived.fftSize = g.fftSize := rfl
@[simp] theorem Cfg.withDerived_nchan (g : Cfg) : g.withDerived.nchan = g.nchan := rfl
@[simp] theorem Cfg.withDerived_startIndex (g : Cfg) : g.withDerived.startIndex = g.startIndex := rfl
@[simp] theorem Cfg.withDerived_endIndex (g : Cfg) : g.withDerived.endIndex = g.endIndex := rfl
@[simp] theorem Cfg.withDerived_nweight (g : Cfg) : g.withDerived.nweight = g.nweight := rfl
@[simp] theorem Cfg.withDerived_fbOutShift (g : Cfg) : g.withDerived.fbOutShift = g.fbOutShift := rfl
@[simp] theorem Cfg.withDerived_smoothBits (g : Cfg) : g.withDerived.smoothBits = g.smoothBits := rfl
@[simp] theorem Cfg.withDerived_evenSmooth (g : Cfg) : g.withDerived.evenSmooth = g.evenSmooth := rfl
@[simp] theorem Cfg.withDerived_oddSmooth (g : Cfg) : g.withDerived.oddSmooth = g.oddSmooth := rfl
@[simp] theorem Cfg.withDerived_minRemain (g : Cfg) : g.withDerived.minRemain = g.minRemain := rfl
@[simp] theorem Cfg.withDerived_gcEnable (g : Cfg) : g.withDerived.gcEnable = g.gcEnable := rfl
@[simp] theorem Cfg.withDerived_snrShift (g : Cfg) : g.withDerived.snrShift = g.snrShift := rfl
@[simp] theorem Cfg.withDerived_logEnable (g : Cfg) : g.withDerived.logEnable = g.logEnable := rfl
@[simp] theorem Cfg.withDerived_logShift (g : Cfg) : g.withDerived.logShift = g.logShift := rfl
@[simp] theorem Cfg.withDerived_specSize (g : Cfg) :
    g.withDerived.specSize = BitVec.ofNat 16 (g.fftSize.toNat / 2 + 1) := rfl
@[simp] theorem Cfg.withDerived_corrBits (g : Cfg) :
    g.withDerived.corrBits = BitVec.ofInt 8 (corrBitsOf g.fftSize.toNat) := rfl

end Sys2Proof.Machine
end

