-- ==== Sys2Proof/Laws/Ops.lean ====
section
/-! SUPPORT. One lemma per shared operation, saying everything it can do; later proofs cite these instead of
unfolding the operation. -/

namespace Sys2Proof.Machine

/-! ### Ranges -/

theorem fitsUnsigned_iff (n : Nat) (v : Int) : fitsUnsigned n v = true ↔ 0 ≤ v ∧ v < 2 ^ n := by
  simp [fitsUnsigned]

theorem fitsSigned_iff (n : Nat) (v : Int) :
    fitsSigned n v = true ↔ -(2 ^ (n - 1)) ≤ v ∧ v < 2 ^ (n - 1) := by
  simp [fitsSigned]

/-- A number in the range of `uN` is stored unchanged. -/
theorem toNat_ofInt_of_fits (n : Nat) (v : Int) (h : fitsUnsigned n v = true) :
    ((BitVec.ofInt n v).toNat : Int) = v := by
  obtain ⟨h0, h1⟩ := (fitsUnsigned_iff n v).1 h
  rw [BitVec.toNat_ofInt, Int.toNat_of_nonneg (Int.emod_nonneg _ (by positivity))]
  exact Int.emod_eq_of_lt h0 (by exact_mod_cast h1)

/-- A number in the range of s16 is stored unchanged. -/
theorem toInt_ofInt_of_fits (v : Int) (h : fitsSigned 16 v = true) : (BitVec.ofInt 16 v).toInt = v := by
  obtain ⟨h0, h1⟩ := (fitsSigned_iff 16 v).1 h
  rw [BitVec.toInt_ofInt]
  norm_num at h0 h1
  simp only [Int.bmod]
  split <;> omega

/-! ### The highest set bit and the square root -/

theorem msb1_zero : msb1 0 = 0 := rfl

/-- `msb1 x` is the bit length of x. -/
theorem msb1_bounds (x : Nat) (h : x ≠ 0) : 2 ^ (msb1 x - 1) ≤ x ∧ x < 2 ^ msb1 x := by
  simp only [msb1, h, if_false, Nat.add_sub_cancel]
  exact ⟨Nat.log2_self_le h, Nat.lt_log2_self⟩

/-- The position of the highest set bit is the only one with these bounds. -/
theorem msb1_eq (x v : Nat) (h : x ≠ 0) (hlo : 2 ^ (v - 1) ≤ x) (hhi : x < 2 ^ v) : msb1 x = v := by
  obtain ⟨k, rfl⟩ : ∃ k, v = k + 1 := ⟨v - 1, by
    have : v ≠ 0 := by rintro rfl; simp at hhi; omega
    omega⟩
  simp only [msb1, h, if_false, (Nat.log2_eq_iff h).2 ⟨hlo, hhi⟩, Nat.add_sub_cancel]

/-- Everything `searchBits` says: the number found satisfies a downward closed `ok`, unless it is still r, and no
larger number below r + 2^k does. -/
theorem searchBits_spec (ok : Nat → Bool) (hok : ∀ a b, 0 < a → a ≤ b → ok b = true → ok a = true)
    (k r : Nat) :
    (searchBits ok k r = r ∨ ok (searchBits ok k r) = true)
      ∧ r ≤ searchBits ok k r ∧ searchBits ok k r < r + 2 ^ k
      ∧ ∀ m, searchBits ok k r < m → m < r + 2 ^ k → ok m = false := by
  induction k generalizing r with
  | zero => exact ⟨.inl rfl, le_rfl, by simp [searchBits], fun m h h' => by simp [searchBits] at h h'; omega⟩
  | succ k ih =>
    have hp : 2 ^ (k + 1) = 2 ^ k + 2 ^ k := by rw [Nat.pow_succ]; omega
    simp only [searchBits]
    split
    · rename_i h
      obtain ⟨h1, h2, h3, h4⟩ := ih (r + 2 ^ k)
      exact ⟨.inr (h1.elim (fun e => by rw [e]; exact h) id), by omega, by omega,
        fun m hm hm' => h4 m hm (by omega)⟩
    · rename_i h
      obtain ⟨h1, h2, h3, h4⟩ := ih r
      refine ⟨h1, h2, by omega, fun m hm hm' => ?_⟩
      by_cases hlt : m < r + 2 ^ k
      · exact h4 m hm hlt
      · exact Bool.eq_false_iff.2 fun hm'' =>
        h (hok _ m (by have := Nat.two_pow_pos k; omega) (by omega) hm'')

/-- `isqrt n` is floor(√n) for every u64 n. -/
theorem isqrt_spec (n : Nat) (h : n < 2 ^ 64) :
    isqrt n * isqrt n ≤ n ∧ n < (isqrt n + 1) * (isqrt n + 1) ∧ isqrt n < 2 ^ 32 := by
  obtain ⟨h1, -, h3, h4⟩ := searchBits_spec (fun r => decide (r * r ≤ n))
    (fun a b _ hab hb => decide_eq_true ((Nat.mul_le_mul hab hab).trans (of_decide_eq_true hb))) 32 0
  change isqrt n = 0 ∨ decide (isqrt n * isqrt n ≤ n) = true at h1
  change isqrt n < 0 + 2 ^ 32 at h3
  refine ⟨h1.elim (fun e => by simp [e]) of_decide_eq_true, ?_, by omega⟩
  by_cases hlt : isqrt n + 1 < 0 + 2 ^ 32
  · exact not_le.1 (of_decide_eq_false (h4 _ (Nat.lt_succ_self _) hlt))
  · have : isqrt n + 1 = 2 ^ 32 := by omega
    rw [this]; omega

/-! ### The checks of COMMIT -/

theorem firstFailure_none_iff (l : List (Bool × ErrCode)) :
    firstFailure l = none ↔ ∀ p ∈ l, p.1 = true := by
  induction l with
  | nil => simp [firstFailure]
  | cons p l ih =>
    obtain ⟨b, e⟩ := p
    cases b <;> simp [firstFailure, ih]

/-- The code reported belongs to a failing check, and every check before it passed. -/
theorem firstFailure_some (l : List (Bool × ErrCode)) (e : ErrCode) (h : firstFailure l = some e) :
    ∃ before after, l = before ++ (false, e) :: after ∧ ∀ p ∈ before, p.1 = true := by
  induction l with
  | nil => simp [firstFailure] at h
  | cons p l ih =>
    obtain ⟨b, e'⟩ := p
    cases b
    · simp only [firstFailure, Bool.false_eq_true, if_false, Option.some.injEq] at h
      exact ⟨[], l, by simp [h], by simp⟩
    · obtain ⟨before, after, rfl, hb⟩ := ih (by simpa [firstFailure] using h)
      exact ⟨(true, e') :: before, after, rfl, by simpa using hb⟩

/-! ### The commands that depend on the capacities -/

/-- Everything `TBLWR` can do: a refusal, or one element written. -/
theorem tblwrWith_cases (c : Config.Caps) (space index : Nat) (s : State) :
    (s.regs.phase ≠ .unconfigured ∧ tblwrWith c space index s = raise .state s)
    ∨ (s.regs.phase = .unconfigured ∧ tblwrWith c space index s = raise .range s)
    ∨ ∃ sp lo hi, s.regs.phase = .unconfigured ∧ Space.ofId space = some sp ∧ sp.tableRange = some (lo, hi)
        ∧ index < sp.capacity c ∧ lo ≤ s.port.value ∧ s.port.value ≤ hi
        ∧ tblwrWith c space index s
          = finish 0 { s with tables := s.tables.write sp index s.port.value } := by
  unfold tblwrWith
  by_cases hp : s.regs.phase = .unconfigured
  · cases hs : Space.ofId space with
    | none => simp [hp]
    | some sp =>
      rcases hr : sp.tableRange with _ | ⟨lo, hi⟩
      · simp [hp, hr]
      · by_cases hi' : sp.capacity c ≤ index
        · simp [hp, hr, hi']
        · by_cases hv : lo ≤ s.port.value ∧ s.port.value ≤ hi
          · right; right
            exact ⟨sp, lo, hi, hp, rfl, hr, by omega, hv.1, hv.2, by simp [hp, hr, hi', hv]⟩
          · simp [hp, hr, hi', hv]
  · simp [hp]

/-- Everything `COMMIT` can do: a refusal, a construction failure, or the construction. -/
theorem commitWith_cases (c : Config.Caps) (init : Nat → Bool) (s : State) :
    (s.regs.phase ≠ .unconfigured ∧ commitWith c init s = raise .state s)
    ∨ (∃ e, s.regs.phase = .unconfigured ∧ firstFailure (commitChecks c init s.cfg s.tables) = some e
        ∧ commitWith c init s = raise e s)
    ∨ (s.regs.phase = .unconfigured ∧ firstFailure (commitChecks c init s.cfg s.tables) = none
        ∧ commitWith c init s = constructed s) := by
  unfold commitWith
  by_cases hp : s.regs.phase = .unconfigured
  · cases hf : firstFailure (commitChecks c init s.cfg s.tables) with
    | none => simp [hp]
    | some e => simp [hp]
  · simp [hp]

/-- Everything `RD` can do: a refusal, or an answer. -/
theorem rdWith_cases (c : Config.Caps) (space index : Nat) (s : State) :
    rdWith c space index s = raise .range s
    ∨ ∃ sp, Space.ofId space = some sp ∧ index < sp.capacity c
        ∧ rdWith c space index s = finish (memRead s sp index) s := by
  unfold rdWith
  cases hs : Space.ofId space with
  | none => exact Or.inl rfl
  | some sp =>
    by_cases hi : sp.capacity c ≤ index
    · simp [hi]
    · exact Or.inr ⟨sp, rfl, by omega, by simp [hi]⟩

/-- What `raise` does to `PHASE`: `FAILED` for a construction failure, nothing else. -/
theorem raise_phase_of_refusal (e : ErrCode) (s : State) (h : e.isConstruction = false) :
    (raise e s).regs.phase = s.regs.phase := by
  simp [h]

/-- A refusal writes `ERR` and the answer, nothing else. -/
theorem raise_refusal (e : ErrCode) (s : State) (h : e.isConstruction = false) :
    raise e s = { s with regs := { s.regs with err := e }, port := { s.port with rdata := 0 } } := by
  simp [raise, h]

/-- A construction failure writes `ERR`, `PHASE` and the answer, nothing else. -/
theorem raise_construction (e : ErrCode) (s : State) (h : e.isConstruction = true) :
    raise e s =
      { s with regs := { s.regs with err := e, phase := .failed }, port := { s.port with rdata := 0 } } := by
  simp [raise, h]

/-- Check 1 of `COMMIT` in words. -/
theorem isPowerOfTwo_iff (n : Nat) (h : 2 ≤ n) : isPowerOfTwo n = true ↔ n = 2 ^ Nat.log2 n := by
  simp [isPowerOfTwo, flog2, msb1, show n ≠ 0 by omega]

end Sys2Proof.Machine
end

