-- ==== Sys2Proof/Machine/RealConstruction.lean ====
section
/-! DEFINITION. What the real-valued formulas of the host-side constructions say of the tables built from them: the
raised cosine (41_window.md R147), the mel scale (43_filterbank.md R210 to R218) and the gain function
(45_gain_control.md R269). Each is a proposition over exact real numbers; Laws/Construction.lean shows that the window table,
the exact mel scale and the gain function of Construction.lean satisfy theirs. In what precision a host evaluates the
last two the spec leaves open (R221, R271; notes/assumptions/21.md). Nothing of the block depends on them. -/

namespace Sys2Proof.Machine

/-- COEF is the periodic Hann window at half-sample offsets, rounded half up to 12 fraction bits (R147). -/
def IsHannTable (size : Nat) (coef : Nat → Nat) : Prop :=
  ∀ i : Nat, i < size →
    ((coef i : Nat) : Int) = ⌊(1 / 2 - 1 / 2 * Real.cos (2 * Real.pi / size * (i + 1 / 2))) * 4096 + (1 / 2 : ℝ)⌋

/-- A mel scale is the exact one: mel(f) = 1127 · ln(1 + f / 700) (R210), the frequency of a bin (R212), the evenly
spaced centres, `below b` being c(b − 1) and so the lower limit for the first band (R211); then, for the bands 0 .. N,
the test that moves a band on (R214), and the two quantised weights of a bin that lies in the band (R218). -/
def MelScale.IsExact (mel : MelScale) (c : FilterbankInputs) : Prop :=
  let melOf := fun f : ℝ => 1127 * Real.log (1 + f / 700)
  let binMel := fun k : Nat => melOf (k * (1 / 2 * c.sampleRate / ((c.specSize : ℝ) - 1)))
  let below := fun b : Nat => melOf c.lowerHz + (melOf c.upperHz - melOf c.lowerHz) / (c.channels + 1) * b
  ∀ b k : Nat, b ≤ c.channels →
    (mel.atOrBelow b k = true ↔ binMel k ≤ below (b + 1)) ∧
    (below b ≤ binMel k → binMel k ≤ below (b + 1) →
      let w := (below (b + 1) - binMel k) / (below (b + 1) - below b)
      ((mel.weightOf b k : Nat) : Int) = ⌊w * 4096 + 1 / 2⌋ ∧
        ((mel.unweightOf b k : Nat) : Int) = ⌊(1 - w) * 4096 + 1 / 2⌋)

/-- The gain function: g = 2^gain_bits · (x / 2^input_bits + offset)^(−strength), 32767 where it is above that, else
trunc(g + 0.5) (R269), wherever the power has a real value: at a positive base, at a base of 0 under a negative strength,
and, for an integer strength, at every base that it does not divide by. Nothing is said elsewhere
(notes/assumptions/25.md). -/
def IsGainFunction (gainBits : Nat) (inputBits : Int) (strength offset : ℝ) (f : Nat → Int) : Prop :=
  ∀ x : Nat,
    let base : ℝ := (x : ℝ) / (2 : ℝ) ^ inputBits + offset
    let rounds := fun g : ℝ =>
      f x = if 32767 < g then 32767 else if 0 ≤ g + 1 / 2 then ⌊g + 1 / 2⌋ else ⌈g + 1 / 2⌉
    (0 < base → rounds (2 ^ gainBits * base ^ (-strength))) ∧
    (base = 0 → strength < 0 → rounds 0) ∧
    (∀ n : Int, strength = n → base ≠ 0 ∨ n ≤ 0 → rounds (2 ^ gainBits * base ^ (-n)))

end Sys2Proof.Machine
end

