-- ==== Sys2Proof/Laws/Construction.lean ====
section
/-! SUPPORT. The exact comparisons of the host-side constructions mean what their real-valued formulas say: one lemma for
`powersLe`, and with it the exact mel scale (43_filterbank.md R210 to R218) and the gain function
(45_gain_control.md R269) satisfy the propositions of RealConstruction.lean. -/

namespace Sys2Proof.Machine

/-! ### Products of powers -/

/-- The logarithm of a product of powers. -/
noncomputable def logSum (l : List (ℚ × Nat)) : ℝ :=
  (l.map fun p => (p.2 : ℝ) * Real.log p.1).sum

theorem powers_pos (l : List (ℚ × Nat)) (h : ∀ p ∈ l, 0 < p.1) : 0 < powersOfNums l ∧ 0 < powersOfDens l := by
  induction l with
  | nil => exact ⟨Nat.one_pos, Nat.one_pos⟩
  | cons p l ih =>
    obtain ⟨hp, hl⟩ := List.forall_mem_cons.1 h
    have hn : 0 < p.1.num.toNat := by have := Rat.num_pos.2 hp; omega
    exact ⟨Nat.mul_pos (Nat.pow_pos hn) (ih hl).1, Nat.mul_pos (Nat.pow_pos p.1.den_pos) (ih hl).2⟩

theorem logSum_eq (l : List (ℚ × Nat)) (h : ∀ p ∈ l, 0 < p.1) :
    logSum l = Real.log (powersOfNums l) - Real.log (powersOfDens l) := by
  induction l with
  | nil => simp [logSum, powersOfNums, powersOfDens]
  | cons p l ih =>
    obtain ⟨hp, hl⟩ := List.forall_mem_cons.1 h
    obtain ⟨hn, hd⟩ := powers_pos l hl
    have hq : 0 < p.1.num := Rat.num_pos.2 hp
    have hc : ((p.1.num.toNat : ℕ) : ℝ) = (p.1.num : ℝ) := by exact_mod_cast Int.toNat_of_nonneg hq.le
    have hlog : Real.log (p.1 : ℝ) = Real.log p.1.num - Real.log p.1.den := by
      rw [← Real.log_div (by exact_mod_cast hq.ne') (by exact_mod_cast p.1.den_pos.ne'), ← Rat.cast_def]
    have e : logSum (p :: l) = (p.2 : ℝ) * Real.log p.1 + logSum l := by simp [logSum]
    have hqr : (p.1.num : ℝ) ≠ 0 := by exact_mod_cast hq.ne'
    have hdr : (p.1.den : ℝ) ≠ 0 := by exact_mod_cast p.1.den_pos.ne'
    have hnr : (powersOfNums l : ℝ) ≠ 0 := by exact_mod_cast hn.ne'
    have hdl : (powersOfDens l : ℝ) ≠ 0 := by exact_mod_cast hd.ne'
    simp only [e, ih hl, hlog, powersOfNums, powersOfDens]
    push_cast
    rw [hc, Real.log_mul (pow_ne_zero _ hqr) hnr, Real.log_mul (pow_ne_zero _ hdr) hdl, Real.log_pow, Real.log_pow]
    ring

/-- `powersLe` compares the logarithms of the two products. -/
theorem powersLe_iff (l r : List (ℚ × Nat)) (hl : ∀ p ∈ l, 0 < p.1) (hr : ∀ p ∈ r, 0 < p.1) :
    powersLe l r = true ↔ logSum l ≤ logSum r := by
  obtain ⟨hln, hld⟩ := powers_pos l hl
  obtain ⟨hrn, hrd⟩ := powers_pos r hr
  have c : ∀ {n : Nat}, 0 < n → (0 : ℝ) < n := fun h => by exact_mod_cast h
  rw [logSum_eq l hl, logSum_eq r hr, powersLe, decide_eq_true_iff, ← @Nat.cast_le ℝ,
    ← Real.log_le_log_iff (c (Nat.mul_pos hln hrd)) (c (Nat.mul_pos hrn hld)), Nat.cast_mul, Nat.cast_mul,
    Real.log_mul (c hln).ne' (c hrd).ne', Real.log_mul (c hrn).ne' (c hld).ne']
  constructor <;> intro h <;> linarith

/-! ### Rounding by search -/

/-- A number found by `searchBits` is floor(v + 1/2), when `ok m` says m − 1/2 ≤ v and v lies below the range searched. -/
theorem searchBits_eq_floor (ok : Nat → Bool) (bits : Nat) (v : ℝ) (hv : 0 ≤ v) (hb : v + 1 / 2 < 2 ^ bits)
    (hok : ∀ m : Nat, 1 ≤ m → (ok m = true ↔ (m : ℝ) - 1 / 2 ≤ v)) :
    ((searchBits ok bits 0 : Nat) : Int) = ⌊v + 1 / 2⌋ := by
  have anti : ∀ a b, 0 < a → a ≤ b → ok b = true → ok a = true := fun a b ha hab h => by
    have hab' : (a : ℝ) ≤ b := by exact_mod_cast hab
    exact (hok a ha).2 (by have := (hok b (by omega)).1 h; linarith)
  obtain ⟨h1, -, h3, h4⟩ := searchBits_spec ok anti bits 0
  set R := searchBits ok bits 0
  symm
  rw [Int.floor_eq_iff]
  push_cast
  constructor
  · rcases Nat.eq_zero_or_pos R with hR | hR
    · rw [hR]; norm_num; linarith
    · have := (hok R hR).1 (h1.resolve_left (by omega))
      linarith
  · by_cases hlt : R + 1 < 0 + 2 ^ bits
    · have hn : ¬ ok (R + 1) = true := by simp [h4 (R + 1) (by omega) hlt]
      rw [hok (R + 1) (by omega)] at hn
      push_cast at hn
      linarith
    · have : (R : ℝ) + 1 = 2 ^ bits := by exact_mod_cast (show R + 1 = 2 ^ bits by omega)
      linarith

/-- The same under a cap: a number found below 2^bits is floor(v + 1/2) or, when v is past it, the largest there is. -/
theorem searchBits_eq_cap (ok : Nat → Bool) (bits : Nat) (v : ℝ) (hv : 2 ^ bits - 1 < v)
    (hok : ∀ m : Nat, 1 ≤ m → (ok m = true ↔ (m : ℝ) - 1 / 2 ≤ v)) :
    searchBits ok bits 0 = 2 ^ bits - 1 := by
  have all : ∀ a, 0 < a → a < 2 ^ bits → ok a = true := fun a ha' ha => by
    have : (a : ℝ) + 1 ≤ 2 ^ bits := by exact_mod_cast ha
    exact (hok a ha').2 (by linarith)
  have anti : ∀ a b, 0 < a → a ≤ b → ok b = true → ok a = true := fun a b ha hab h => by
    have hab' : (a : ℝ) ≤ b := by exact_mod_cast hab
    exact (hok a ha).2 (by have := (hok b (by omega)).1 h; linarith)
  obtain ⟨-, -, h3, h4⟩ := searchBits_spec ok anti bits 0
  by_contra hne
  have := Nat.two_pow_pos bits
  have hf := h4 (2 ^ bits - 1) (by omega) (by omega)
  rw [all _ (by omega) (by omega)] at hf
  exact absurd hf (by decide)

/-! ### The window table -/

/-- What a `Turn` says of the k-th multiple of an angle. -/
structure Turn.IsMultiple (t : Turn) (d φ : ℝ) (k : Nat) : Prop where
  le : (t.half : ℝ) * Real.pi ≤ k * φ
  lt : k * φ < ((t.half : ℝ) + 1) * Real.pi
  x  : (t.x : ℝ) = d ^ k * Real.cos (k * φ)
  y  : (t.y : ℝ) * (d * Real.sin φ) = d ^ k * Real.sin (k * φ)

theorem signed_cast (a : Nat) (v : Int) : ((signed a v : Int) : ℝ) = (-1) ^ a * (v : ℝ) := by
  unfold signed
  split
  · rename_i h
    rw [(Nat.even_iff.2 h).neg_one_pow, one_mul]
  · rename_i h
    rw [(Nat.odd_iff.2 (by omega)).neg_one_pow]
    push_cast
    ring

theorem neg_one_pow_mul_self (a : Nat) : ((-1 : ℝ) ^ a) * (-1) ^ a = 1 := by
  rw [← pow_add, Even.neg_one_pow ⟨a, rfl⟩]

theorem pos_mul_nonpos {x y : ℝ} (h : 0 < x) : x * y ≤ 0 ↔ y ≤ 0 :=
  ⟨fun hc => not_lt.1 fun hn => absurd (mul_pos h hn) (not_lt.2 hc), mul_nonpos_of_nonneg_of_nonpos h.le⟩

/-- Half turns only change the sign. -/
theorem cos_add_turns (r : ℝ) (a : Nat) : Real.cos (r + a * Real.pi) = (-1) ^ a * Real.cos r := by
  simpa using Real.cos_add_nat_mul_pi r a

theorem sin_add_turns (r : ℝ) (a : Nat) : Real.sin (r + a * Real.pi) = (-1) ^ a * Real.sin r := by
  simpa using Real.sin_add_nat_mul_pi r a

/-- The numbers of an angle between 0 and π with cosine p / d. -/
structure IsAngle (p d : Int) (φ : ℝ) : Prop where
  pos  : (0 : ℝ) < d
  lo   : 0 < φ
  hi   : φ < Real.pi
  cosp : (d : ℝ) * Real.cos φ = p

theorem IsAngle.sin_sq {p d : Int} {φ : ℝ} (h : IsAngle p d φ) :
    (((d * d - p * p : Int)) : ℝ) = (d * Real.sin φ) * (d * Real.sin φ) := by
  have h1 := Real.sin_sq_add_cos_sq φ
  push_cast
  rw [← h.cosp]
  linear_combination -(d : ℝ) ^ 2 * h1

theorem Turn.twice_isMultiple {p d : Int} {φ : ℝ} (h : IsAngle p d φ) {t : Turn} {k : Nat}
    (ht : t.IsMultiple d φ k) : (t.twice p d).IsMultiple d φ (2 * k) := by
  obtain ⟨hle, hlt, hx, hy⟩ := ht
  obtain ⟨r, hr⟩ : ∃ r, (k : ℝ) * φ = r + t.half * Real.pi := ⟨k * φ - t.half * Real.pi, by ring⟩
  have hr0 : 0 ≤ r := by linarith
  have hr1 : r < Real.pi := by linarith
  have hk2 : ((2 * k : Nat) : ℝ) * φ = 2 * (k * φ) := by push_cast; ring
  have hsign : ((signed t.half t.x : Int) : ℝ) = (d : ℝ) ^ k * Real.cos r := by
    rw [signed_cast, hx, hr, cos_add_turns]
    linear_combination (d : ℝ) ^ k * Real.cos r * neg_one_pow_mul_self t.half
  have hquarter : signed t.half t.x ≤ 0 ↔ Real.pi / 2 ≤ r := by
    rw [← Int.cast_nonpos (R := ℝ), hsign, pos_mul_nonpos (pow_pos h.pos k)]
    constructor
    · intro hc
      by_contra hn
      exact absurd (Real.cos_pos_of_mem_Ioo ⟨by linarith, not_le.1 hn⟩) (not_lt.2 hc)
    · intro hc
      exact Real.cos_nonpos_of_pi_div_two_le_of_le hc (by linarith)
  refine ⟨?_, ?_, ?_, ?_⟩
  · rw [hk2, hr]
    simp only [Turn.twice]
    split <;> rename_i hq <;> rw [hquarter] at hq <;> push_cast <;> linarith
  · rw [hk2, hr]
    simp only [Turn.twice]
    split <;> rename_i hq <;> rw [hquarter] at hq <;> push_cast <;> linarith
  · have e : (((d * d - p * p) * (t.y * t.y) : Int) : ℝ) = (t.y * (d * Real.sin φ)) * (t.y * (d * Real.sin φ)) := by
      rw [Int.cast_mul, h.sin_sq]; push_cast; ring
    simp only [Turn.twice]
    rw [Int.cast_sub, e, hy, Int.cast_mul, hx, hk2, Real.cos_two_mul]
    have := Real.sin_sq_add_cos_sq ((k : ℝ) * φ)
    rw [pow_mul']
    linear_combination -(((d : ℝ) ^ k) ^ 2) * this
  · simp only [Turn.twice]
    rw [hk2, Real.sin_two_mul, pow_mul']
    push_cast
    rw [hx]
    linear_combination 2 * ((d : ℝ) ^ k * Real.cos (k * φ)) * hy

theorem Turn.next_isMultiple {p d : Int} {φ : ℝ} (h : IsAngle p d φ) {t : Turn} {k : Nat}
    (ht : t.IsMultiple d φ k) : (t.next p d).IsMultiple d φ (k + 1) := by
  obtain ⟨hle, hlt, hx, hy⟩ := ht
  obtain ⟨r, hr⟩ : ∃ r, (k : ℝ) * φ = r + t.half * Real.pi := ⟨k * φ - t.half * Real.pi, by ring⟩
  have hr0 : 0 ≤ r := by linarith
  have hr1 : r < Real.pi := by linarith
  have hlo := h.lo
  have hhi := h.hi
  have hk1 : ((k + 1 : Nat) : ℝ) * φ = k * φ + φ := by push_cast; ring
  have hsin : 0 < (d : ℝ) * Real.sin φ := mul_pos h.pos (Real.sin_pos_of_pos_of_lt_pi hlo hhi)
  have hy' : ((t.x + p * t.y : Int) : ℝ) * (d * Real.sin φ) = (d : ℝ) ^ (k + 1) * Real.sin (k * φ + φ) := by
    rw [Real.sin_add, pow_succ]
    push_cast
    rw [hx, ← h.cosp]
    linear_combination (d * Real.cos φ) * hy
  have hsign : ((signed t.half (t.x + p * t.y) : Int) : ℝ) * (d * Real.sin φ)
      = (d : ℝ) ^ (k + 1) * Real.sin (r + φ) := by
    rw [signed_cast, mul_assoc, hy', hr, show r + t.half * Real.pi + φ = r + φ + t.half * Real.pi by ring,
      sin_add_turns]
    linear_combination (d : ℝ) ^ (k + 1) * Real.sin (r + φ) * neg_one_pow_mul_self t.half
  have hturn : signed t.half (t.x + p * t.y) ≤ 0 ↔ Real.pi ≤ r + φ := by
    rw [← Int.cast_nonpos (R := ℝ), ← pos_mul_nonpos hsin, mul_comm, hsign,
      pos_mul_nonpos (pow_pos h.pos _)]
    constructor
    · intro hc
      by_contra hn
      exact absurd (Real.sin_pos_of_pos_of_lt_pi (by linarith) (not_le.1 hn)) (not_lt.2 hc)
    · intro hc
      have := Real.sin_nonneg_of_nonneg_of_le_pi (x := r + φ - Real.pi) (by linarith) (by linarith)
      rw [Real.sin_sub_pi] at this
      linarith
  refine ⟨?_, ?_, ?_, ?_⟩
  · rw [hk1, hr]
    simp only [Turn.next]
    split <;> rename_i hq <;> rw [hturn] at hq <;> push_cast <;> linarith
  · rw [hk1, hr]
    simp only [Turn.next]
    split <;> rename_i hq <;> rw [hturn] at hq <;> push_cast <;> linarith
  · have e : (((d * d - p * p) * t.y : Int) : ℝ) = (d * Real.sin φ) * (t.y * (d * Real.sin φ)) := by
      rw [Int.cast_mul, h.sin_sq]; ring
    simp only [Turn.next]
    rw [Int.cast_sub, e, hy, Int.cast_mul, hx, hk1, Real.cos_add, ← h.cosp, pow_succ]
    ring
  · simp only [Turn.next]
    rw [hk1]
    exact hy'

theorem turns_isMultiple {p d : Int} {φ : ℝ} (h : IsAngle p d φ) (bits n : Nat) (hn : n < 2 ^ bits) :
    (turns p d bits n).IsMultiple d φ n := by
  induction bits generalizing n with
  | zero =>
    obtain rfl : n = 0 := by simpa using hn
    exact ⟨by simp [turns], by simpa [turns] using Real.pi_pos, by simp [turns], by simp [turns]⟩
  | succ bits ih =>
    have ht := Turn.twice_isMultiple h (ih (n / 2) (by rw [Nat.pow_succ] at hn; omega))
    simp only [turns]
    split
    · rwa [show 2 * (n / 2) = n by omega] at ht
    · have := Turn.next_isMultiple h ht
      rwa [show 2 * (n / 2) + 1 = n by omega] at this

/-- `cosLe` compares the cosine of a multiple of π / n with p / d. -/
theorem cosLe_iff (p d : Int) (n odd : Nat) (hd : 0 < d) (hlo : -d < p) (hhi : p < d) (hn : 0 < n) (ho : odd ≤ n) :
    cosLe p d n odd = true ↔ Real.cos (Real.pi * odd / n) ≤ p / d := by
  have hd' : (0 : ℝ) < d := by exact_mod_cast hd
  have hq1 : -1 < (p : ℝ) / d := by
    have : -(d : ℝ) < p := by exact_mod_cast hlo
    rw [lt_div_iff₀ hd']; linarith
  have hq2 : (p : ℝ) / d < 1 := by rw [div_lt_one hd']; exact_mod_cast hhi
  set φ := Real.arccos (p / d) with hφ
  have hcos : Real.cos φ = p / d := Real.cos_arccos hq1.le hq2.le
  have hang : IsAngle p d φ :=
    { pos := hd'
      lo := Real.arccos_pos.2 hq2
      hi := lt_of_le_of_ne (Real.arccos_le_pi _) fun he => by
        rw [he, Real.cos_pi] at hcos; linarith
      cosp := by rw [hcos]; field_simp }
  have hn' : (0 : ℝ) < n := by exact_mod_cast hn
  have ho' : (odd : ℝ) ≤ n := by exact_mod_cast ho
  have hpi := Real.pi_pos
  have hθ : Real.pi * odd / n ∈ Set.Icc (0 : ℝ) Real.pi :=
    ⟨by positivity, by rw [div_le_iff₀ hn']; exact mul_le_mul_of_nonneg_left ho' hpi.le⟩
  rw [← hcos, Real.strictAntiOn_cos.le_iff_ge hθ ⟨hang.lo.le, hang.hi.le⟩, le_div_iff₀ hn']
  have hmsb := (msb1_bounds n (by omega)).2
  obtain ⟨hle, hlt, -, hy⟩ := turns_isMultiple hang (msb1 n) n hmsb
  simp only [cosLe, decide_eq_true_eq]
  set t := turns p d (msb1 n) n
  constructor
  · rintro (hh | ⟨hh, hy0⟩)
    · have : (t.half : ℝ) + 1 ≤ odd := by exact_mod_cast hh
      nlinarith
    · obtain ⟨r, hr⟩ : ∃ r, (n : ℝ) * φ = r + t.half * Real.pi := ⟨n * φ - t.half * Real.pi, by ring⟩
      have hs : Real.sin r = 0 := by
        have h0 : Real.sin (n * φ) = 0 := by
          have := hy.symm
          rw [hy0] at this
          simpa [hd'.ne'] using this
        rw [hr, sin_add_turns] at h0
        simpa using h0
      have hr0 : r = 0 := by
        by_contra hne
        have hrp : 0 < r := lt_of_le_of_ne (by linarith) (Ne.symm hne)
        exact absurd hs (Real.sin_pos_of_pos_of_lt_pi hrp (by linarith)).ne'
      rw [hh, hr0] at hr
      linarith
  · intro hc
    rcases lt_trichotomy t.half odd with hh | hh | hh
    · exact .inl hh
    · refine .inr ⟨hh, ?_⟩
      have he : (n : ℝ) * φ = 0 + odd * Real.pi := by rw [hh] at hle; linarith
      rw [he, sin_add_turns] at hy
      have hsin : 0 < (d : ℝ) * Real.sin φ := mul_pos hd' (Real.sin_pos_of_pos_of_lt_pi hang.lo hang.hi)
      have : (t.y : ℝ) = 0 := by simpa [hsin.ne'] using hy
      exact_mod_cast this
    · have : (odd : ℝ) + 1 ≤ t.half := by exact_mod_cast hh
      nlinarith

/-- The exact window table is the one of R147. -/
theorem coefEntry_isHannTable (size : Nat) : IsHannTable size (coefEntry size) := by
  intro i hi
  set j := min i (size - 1 - i) with hj
  have hs : 0 < size := by omega
  have hs' : (0 : ℝ) < size := by exact_mod_cast hs
  -- the two halves have the same cosine
  have hcos : Real.cos (2 * Real.pi / size * (i + 1 / 2)) = Real.cos (Real.pi * ((2 * j + 1 : Nat) : ℝ) / size) := by
    rcases le_total i (size - 1 - i) with h | h
    · rw [show j = i from min_eq_left h]
      congr 1; push_cast; field_simp
    · have hj' : (j : ℝ) = size - 1 - i := by
        rw [show j = size - 1 - i from min_eq_right h, Nat.sub_sub, Nat.cast_sub (by omega)]; push_cast; ring
      rw [← Real.cos_two_pi_sub]
      congr 1; push_cast; rw [hj']; field_simp; ring
  rw [hcos]
  set c := Real.cos (Real.pi * ((2 * j + 1 : Nat) : ℝ) / size) with hc
  have hc1 : c ≤ 1 := Real.cos_le_one _
  have hc2 : -1 ≤ c := Real.neg_one_le_cos _
  refine searchBits_eq_floor _ 13 ((1 / 2 - 1 / 2 * c) * 4096) (by nlinarith)
    (lt_of_le_of_lt (b := 4096 + 1 / 2) (by linarith) (by norm_num)) fun m hm => ?_
  simp only [Bool.and_eq_true, decide_eq_true_eq]
  by_cases hm' : m ≤ 4096
  · rw [cosLe_iff _ _ _ _ (by norm_num) (by omega) (by omega) hs (by omega), ← hj, ← hc, le_div_iff₀ (by norm_num)]
    push_cast
    simp only [hm', true_and]
    constructor <;> intro h <;> linarith
  · have : (4097 : ℝ) ≤ m := by exact_mod_cast not_le.1 hm'
    simp only [hm', false_and, false_iff, not_le]
    linarith

/-! ### The mel scale -/

/-- The logarithms of the ratios of a valid construction: those of the lower and the upper limit in their order, and
every bin's ratio positive. -/
theorem melRatio_pos (c : FilterbankInputs) (h : c.valid = true) :
    0 < melRatio c.lowerHz ∧ melRatio c.lowerHz < melRatio c.upperHz ∧ ∀ k : Nat, 0 < melRatio (k * c.hzPerBin) := by
  simp only [FilterbankInputs.valid, Bool.and_eq_true, decide_eq_true_eq] at h
  obtain ⟨⟨⟨⟨-, h1⟩, h2⟩, h3⟩, -⟩ := h
  refine ⟨by unfold melRatio; linarith, by unfold melRatio; linarith, fun k => ?_⟩
  have : 0 ≤ (k : ℚ) * c.hzPerBin := by positivity
  unfold melRatio
  linarith

theorem melRatio_cast (q : ℚ) : ((melRatio q : ℚ) : ℝ) = 1 + (q : ℝ) / 700 := by
  simp [melRatio]

theorem hzPerBin_cast (c : FilterbankInputs) (k : Nat) :
    (((k : ℚ) * c.hzPerBin : ℚ) : ℝ) = k * (1 / 2 * c.sampleRate / ((c.specSize : ℝ) - 1)) := by
  simp [FilterbankInputs.hzPerBin]

/-- The exact mel scale is the one of R210 to R218. -/
theorem MelScale.exact_isExact (c : FilterbankInputs) (h : c.valid = true) : (MelScale.exact c).IsExact c := by
  obtain ⟨hA, hAB, hF⟩ := melRatio_pos c h
  have hB : 0 < melRatio c.upperHz := hA.trans hAB
  unfold MelScale.IsExact
  intro melOf binMel below b k hb
  set LA := Real.log (melRatio c.lowerHz : ℚ) with hLA
  set LB := Real.log (melRatio c.upperHz : ℚ) with hLB
  set LF := Real.log (melRatio (k * c.hzPerBin) : ℚ) with hLF
  have hL : LA < LB := Real.log_lt_log (by exact_mod_cast hA) (by exact_mod_cast hAB)
  have hn : (0 : ℝ) < (c.channels : ℝ) + 1 := by positivity
  have hbin : binMel k = 1127 * LF := by
    simp only [binMel, melOf, hLF, melRatio_cast, hzPerBin_cast]
  have hbelow : ∀ b : Nat, below b = 1127 * (LA + (LB - LA) / (c.channels + 1) * b) := fun b => by
    simp only [below, melOf, hLA, hLB, melRatio_cast]; ring
  have hsub : ((c.channels - b : Nat) : ℝ) = c.channels - b := by push_cast [Nat.cast_sub hb]; ring
  have hsub1 : ((c.channels + 1 - b : Nat) : ℝ) = c.channels + 1 - b := by
    push_cast [Nat.cast_sub (show b ≤ c.channels + 1 by omega)]; ring
  -- the distance of the bin from the two centres, in units of a spacing
  set D := (c.channels - b) * LA + (b + 1) * LB - (c.channels + 1) * LF with hD
  have hup : below (b + 1) - binMel k = 1127 / (c.channels + 1) * D := by
    rw [hbelow, hbin, hD]; push_cast; field_simp; ring
  have hstep : below (b + 1) - below b = 1127 / (c.channels + 1) * (LB - LA) := by
    rw [hbelow, hbelow]; push_cast; field_simp; ring
  have hspan : 0 < LB - LA := by linarith
  have hsc : (0 : ℝ) < 1127 / (c.channels + 1) := by positivity
  constructor
  · change powersLe _ _ = true ↔ _
    rw [powersLe_iff _ _ (by simp [hF k]) (by simp [hA, hB])]
    simp only [logSum, List.map_cons, List.map_nil, List.sum_cons, List.sum_nil, add_zero, ← hLA, ← hLB, ← hLF]
    push_cast [hsub]
    rw [← sub_nonneg (b := binMel k), hup, mul_nonneg_iff_of_pos_left hsc, hD]
    constructor <;> intro h <;> linarith
  · intro hlo hhi
    have hw : (below (b + 1) - binMel k) / (below (b + 1) - below b) = D / (LB - LA) := by
      rw [hup, hstep, mul_div_mul_left _ _ hsc.ne']
    have hD0 : 0 ≤ D := (mul_nonneg_iff_of_pos_left hsc).1 (by rw [← hup]; linarith)
    have hD1 : D ≤ LB - LA := le_of_mul_le_mul_left (by rw [← hup, ← hstep]; linarith) hsc
    have hw0 : 0 ≤ D / (LB - LA) := div_nonneg hD0 hspan.le
    have hw1 : D / (LB - LA) ≤ 1 := (div_le_one hspan).2 hD1
    dsimp only
    rw [hw]
    constructor
    · simp only [MelScale.exact]
      refine searchBits_eq_floor _ 13 (D / (LB - LA) * 4096) (by positivity) (by norm_num; linarith) (fun m hm => ?_)
      · have hm2 : ((2 * m - 1 : Nat) : ℝ) = 2 * m - 1 := by push_cast [Nat.cast_sub (show 1 ≤ 2 * m by omega)]; ring
        rw [powersLe_iff _ _ (by simp [hF k, hB]) (by simp [hA, hB])]
        simp only [logSum, List.map_cons, List.map_nil, List.sum_cons, List.sum_nil, add_zero, ← hLA, ← hLB, ← hLF]
        push_cast [hsub, hm2]
        rw [div_mul_eq_mul_div, le_div_iff₀ hspan, hD]
        constructor <;> intro h <;> linarith
    · have hcomp : 1 - D / (LB - LA) = ((LB - LA) - D) / (LB - LA) := by field_simp
      simp only [MelScale.exact]
      refine searchBits_eq_floor _ 13 ((1 - D / (LB - LA)) * 4096) (mul_nonneg (by linarith) (by norm_num))
        (lt_of_le_of_lt (b := 4096 + 1 / 2) (by linarith) (by norm_num)) (fun m hm => ?_)
      · have hm2 : ((2 * m - 1 : Nat) : ℝ) = 2 * m - 1 := by push_cast [Nat.cast_sub (show 1 ≤ 2 * m by omega)]; ring
        rw [powersLe_iff _ _ (by simp [hA, hB]) (by simp [hA, hF k])]
        simp only [logSum, List.map_cons, List.map_nil, List.sum_cons, List.sum_nil, add_zero, ← hLA, ← hLB, ← hLF]
        push_cast [hsub1, hm2]
        rw [hcomp, div_mul_eq_mul_div, le_div_iff₀ hspan, hD]
        constructor <;> intro h <;> linarith

/-! ### The gain function -/

theorem gainBase_cast (inputBits : Int) (offset : ℚ) (x : Nat) :
    ((gainBase inputBits offset x : ℚ) : ℝ) = (x : ℝ) / (2 : ℝ) ^ inputBits + offset := by
  unfold gainBase
  push_cast
  congr 1
  rcases le_total 0 inputBits with h | h
  · obtain ⟨n, rfl⟩ := Int.eq_ofNat_of_zero_le h
    simp
  · obtain ⟨n, hn⟩ := Int.eq_ofNat_of_zero_le (Int.neg_nonneg.2 h)
    have : inputBits = -(n : Int) := by omega
    subst this
    simp

/-- `truncate` is the floor of a number that is not negative and the ceiling of one that is. -/
theorem truncate_cast (q : ℚ) : truncate q = if 0 ≤ (q : ℝ) then ⌊(q : ℝ)⌋ else ⌈(q : ℝ)⌉ := by
  rw [Rat.floor_cast, Rat.ceil_cast]
  have hd : (0 : Int) ≤ q.den := Int.natCast_nonneg _
  unfold truncate
  split
  · rename_i h
    have hq : 0 ≤ q.num := Rat.num_nonneg.2 (by exact_mod_cast h)
    rw [Int.tdiv_eq_ediv_of_nonneg hq, Rat.floor_def']
  · rename_i h
    have hq : 0 ≤ -q.num := by have := Rat.num_neg.2 (show q < 0 by exact_mod_cast not_le.1 h); omega
    rw [show ⌈q⌉ = -⌊-q⌋ by rw [Int.floor_neg, neg_neg], Rat.floor_def', Rat.num_neg_eq_neg_num, Rat.den_neg_eq_den,
      ← Int.tdiv_eq_ediv_of_nonneg hq, Int.neg_tdiv, neg_neg]

theorem roundGain_cast (g : ℚ) :
    roundGain g = if 32767 < (g : ℝ) then 32767
      else if 0 ≤ (g : ℝ) + 1 / 2 then ⌊(g : ℝ) + 1 / 2⌋ else ⌈(g : ℝ) + 1 / 2⌉ := by
  have h : ((g + 1 / 2 : ℚ) : ℝ) = (g : ℝ) + 1 / 2 := by push_cast; rfl
  rw [← h, ← truncate_cast]
  unfold roundGain
  congr 1
  exact propext (by exact_mod_cast Iff.rfl)

/-- At a positive base: the search finds the rounded gain, or the cap. -/
theorem gainFunction_of_pos (gainBits : Nat) (inputBits : Int) (strength offset : ℚ) (x : Nat)
    (hbase : 0 < (gainBase inputBits offset x : ℝ)) :
    let g : ℝ := 2 ^ gainBits * (gainBase inputBits offset x : ℝ) ^ (-(strength : ℝ))
    gainFunction gainBits inputBits strength offset x = if 32767 < g then 32767 else ⌊g + 1 / 2⌋ := by
  dsimp only
  set base := gainBase inputBits offset x with hb
  have hb0 : 0 < base := by exact_mod_cast hbase
  set g : ℝ := 2 ^ gainBits * (base : ℝ) ^ (-(strength : ℝ)) with hg
  have hgpos : 0 < g := mul_pos (by positivity) (Real.rpow_pos_of_pos hbase _)
  have hloggain : Real.log g = gainBits * Real.log 2 - strength * Real.log base := by
    rw [hg, Real.log_mul (by positivity) (Real.rpow_pos_of_pos hbase _).ne', Real.log_pow, Real.log_rpow hbase]
    ring
  have hden : (0 : ℝ) < strength.den := by exact_mod_cast strength.den_pos
  have hstr : (strength : ℝ) * strength.den = strength.num.toNat - (-strength.num).toNat := by
    have h1 : (strength : ℝ) * strength.den = strength.num := by
      rw [Rat.cast_def]; field_simp
    have h2 : ((strength.num.toNat : Int) - ((-strength.num).toNat : Int)) = strength.num := by omega
    rw [h1]
    exact_mod_cast h2.symm
  set ok : Nat → Bool := fun y =>
    powersLe [(((2 * y - 1 : Nat) : ℚ), strength.den), (base, strength.num.toNat)]
      [(2, strength.den + gainBits * strength.den), (base, (-strength.num).toNat)] with hokdef
  have hok : ∀ m : Nat, 1 ≤ m → (ok m = true ↔ (m : ℝ) - 1 / 2 ≤ g) := by
    intro m hm
    have hc : (((2 * m - 1 : Nat) : ℚ) : ℝ) = 2 * (m : ℝ) - 1 := by
      push_cast [Nat.cast_sub (show 1 ≤ 2 * m by omega)]; ring
    have hmpos : (0 : ℝ) < 2 * (m : ℝ) - 1 := by have : (1 : ℝ) ≤ m := by exact_mod_cast hm
                                                 linarith
    have hq : (0 : ℚ) < ((2 * m - 1 : Nat) : ℚ) := by exact_mod_cast (show 0 < 2 * m - 1 by omega)
    rw [hokdef, powersLe_iff]
    · have hhalf : (m : ℝ) - 1 / 2 = (2 * m - 1) / 2 := by ring
      rw [hhalf, ← Real.log_le_log_iff (by positivity) hgpos, Real.log_div hmpos.ne' two_ne_zero, hloggain]
      simp only [logSum, List.map_cons, List.map_nil, List.sum_cons, List.sum_nil, hc, add_zero]
      push_cast
      have key : (strength.den : ℝ) * (strength * Real.log base)
          = (strength.num.toNat - (-strength.num).toNat) * Real.log base := by
        rw [← hstr]; ring
      constructor
      · intro h
        have : strength.den * (Real.log (2 * m - 1) - Real.log 2)
            ≤ strength.den * (gainBits * Real.log 2 - strength * Real.log base) := by
          rw [mul_sub, mul_sub, key]; linarith
        exact le_of_mul_le_mul_left this hden
      · intro h
        have := mul_le_mul_of_nonneg_left h hden.le
        rw [mul_sub, mul_sub, key] at this
        linarith
    · simp [hq, hb0]
    · simp [hb0]
  have hf : gainFunction gainBits inputBits strength offset x = ((searchBits ok 15 0 : Nat) : Int) := by
    simp only [gainFunction, ← hb, if_pos hb0, hokdef]
  rw [hf]
  split
  · rename_i hcap
    rw [searchBits_eq_cap ok 15 g (by norm_num; exact hcap) hok]
    norm_num
  · rename_i hcap
    exact searchBits_eq_floor ok 15 g hgpos.le (by norm_num; linarith) hok

/-- At any other base, wherever the power is an integer one that does not divide by 0. -/
theorem gainFunction_of_int (gainBits : Nat) (inputBits : Int) (offset : ℚ) (n : Int) (x : Nat)
    (hbase : ¬ 0 < gainBase inputBits offset x) (hn : gainBase inputBits offset x ≠ 0 ∨ n ≤ 0) :
    gainFunction gainBits inputBits n offset x
      = roundGain (2 ^ gainBits * gainBase inputBits offset x ^ (-n)) := by
  have hn' : gainBase inputBits offset x ≠ 0 ∨ (n : ℚ) ≤ 0 := hn.imp_right fun h => by exact_mod_cast h
  simp only [gainFunction, if_neg hbase, Rat.den_intCast, Rat.num_intCast, true_and, if_pos hn']

/-- The exact gain function is the one of R269. -/
theorem gainFunction_isGainFunction (gainBits : Nat) (inputBits : Int) (strength offset : ℚ) :
    IsGainFunction gainBits inputBits strength offset (gainFunction gainBits inputBits strength offset) := by
  intro x
  dsimp only
  rw [← gainBase_cast]
  have pos : 0 < (gainBase inputBits offset x : ℝ) →
      gainFunction gainBits inputBits strength offset x
        = if 32767 < (2 ^ gainBits * (gainBase inputBits offset x : ℝ) ^ (-(strength : ℝ)) : ℝ) then 32767
          else if 0 ≤ (2 ^ gainBits * (gainBase inputBits offset x : ℝ) ^ (-(strength : ℝ)) : ℝ) + 1 / 2 then
            ⌊(2 ^ gainBits * (gainBase inputBits offset x : ℝ) ^ (-(strength : ℝ)) : ℝ) + 1 / 2⌋
          else ⌈(2 ^ gainBits * (gainBase inputBits offset x : ℝ) ^ (-(strength : ℝ)) : ℝ) + 1 / 2⌉ := fun h => by
    have hg : (0 : ℝ) < 2 ^ gainBits * (gainBase inputBits offset x : ℝ) ^ (-(strength : ℝ)) :=
      mul_pos (by positivity) (Real.rpow_pos_of_pos h _)
    rw [gainFunction_of_pos gainBits inputBits strength offset x h, if_pos (show (0 : ℝ) ≤ _ by linarith)]
  refine ⟨pos, fun h0 hs => ?_, fun n hs hn => ?_⟩
  · have h0' : gainBase inputBits offset x = 0 := by exact_mod_cast h0
    have hs' : strength < 0 := by exact_mod_cast hs
    have hnum : strength.num < 0 := Rat.num_neg.2 hs'
    have hz : (0 : ℚ) ^ (-strength.num) = 0 := zero_zpow _ (by omega)
    have hr : roundGain 0 = 0 := by decide +kernel
    simp only [gainFunction, h0', lt_irrefl, if_false, hs', hs'.le, or_true, and_true, hz, mul_zero, hr, if_true,
      ite_self]
    norm_num
  · obtain rfl : strength = (n : ℚ) := by exact_mod_cast hs
    have hcast : ((2 ^ gainBits * gainBase inputBits offset x ^ (-n) : ℚ) : ℝ)
        = 2 ^ gainBits * (gainBase inputBits offset x : ℝ) ^ (-n) := by push_cast; rfl
    by_cases hb : 0 < (gainBase inputBits offset x : ℝ)
    · have he : (gainBase inputBits offset x : ℝ) ^ (-(((n : ℚ) : ℝ))) = (gainBase inputBits offset x : ℝ) ^ (-n) := by
        rw [← Real.rpow_intCast]; push_cast; rfl
      rw [← he]
      exact pos hb
    · rw [gainFunction_of_int gainBits inputBits offset n x (fun h => hb (by exact_mod_cast h))
        (hn.imp_left fun h h' => h (by rw [h']; simp)), roundGain_cast, hcast]

end Sys2Proof.Machine
end

