-- ==== Sys2Proof/Laws/Memory.lean ====
section
/-! SUPPORT. What the element operations do: one read law per operation, the canonical form kept by each, and
equal contents being equal data. -/

namespace Sys2Proof.Machine

variable {w : Nat}

@[simp] theorem Memory.read_nil (i : Nat) : Memory.read ([] : Memory w) i = 0 := rfl

theorem Memory.read_insert (m : Memory w) (i j : Nat) (v : BitVec w) :
    Memory.read (Memory.insert m i v) j = if j = i then v else Memory.read m j := by
  induction m with
  | nil => simp [Memory.insert, Memory.read]
  | cons c m ih =>
    obtain ⟨a, x⟩ := c
    simp only [Memory.insert]
    split
    · simp [Memory.read]
    · split
      · rename_i h; subst h
        by_cases hj : j = i <;> simp [Memory.read, hj]
      · rename_i _ hia
        simp only [Memory.read, ih]
        by_cases hj : j = i
        · subst hj; simp [hia]
        · simp [hj]

theorem Memory.read_erase (m : Memory w) (i j : Nat) :
    Memory.read (Memory.erase m i) j = if j = i then 0 else Memory.read m j := by
  induction m with
  | nil => simp [Memory.erase]
  | cons c m ih =>
    obtain ⟨a, x⟩ := c
    simp only [Memory.erase]
    split
    · rename_i h; subst h
      rw [ih]
      by_cases hj : j = i <;> simp [Memory.read, hj]
    · rename_i hia
      simp only [Memory.read, ih]
      by_cases hj : j = i
      · subst hj; simp [hia]
      · simp [hj]

/-- Everything a write does to what can be read. -/
theorem Memory.read_write (m : Memory w) (i j : Nat) (v : BitVec w) :
    Memory.read (Memory.write m i v) j = if j = i then v else Memory.read m j := by
  unfold Memory.write
  split
  · rename_i h; rw [Memory.read_erase, h]
  · exact Memory.read_insert m i j v

/-- Everything a loop of writes does to what can be read. -/
theorem Memory.read_writeRange (m : Memory w) (base n : Nat) (f : Nat → BitVec w) (j : Nat) :
    Memory.read (Memory.writeRange m base n f) j
      = if base ≤ j ∧ j < base + n then f (j - base) else Memory.read m j := by
  induction n with
  | zero =>
    have h : ¬(base ≤ j ∧ j < base + 0) := by omega
    rw [if_neg h]; rfl
  | succ n ih =>
    simp only [Memory.writeRange, Memory.read_write, ih]
    by_cases hj : j = base + n
    · subst hj
      have h : base ≤ base + n ∧ base + n < base + (n + 1) := by omega
      simp
    · have h : (base ≤ j ∧ j < base + (n + 1)) ↔ (base ≤ j ∧ j < base + n) := by omega
      simp [hj, h]

theorem Memory.read_eq_zero_of_wfFrom (m : Memory w) (lo j : Nat) (h : Memory.wfFrom lo m = true)
    (hj : j < lo) : Memory.read m j = 0 := by
  induction m generalizing lo with
  | nil => rfl
  | cons c m ih =>
    obtain ⟨a, x⟩ := c
    simp only [Memory.wfFrom, Bool.and_eq_true, decide_eq_true_eq] at h
    have hja : j ≠ a := by omega
    simp only [Memory.read, hja, if_false]
    exact ih (a + 1) h.2 (by omega)

theorem Memory.wfFrom_mono (m : Memory w) (lo lo' : Nat) (hlo : lo' ≤ lo) (h : Memory.wfFrom lo m = true) :
    Memory.wfFrom lo' m = true := by
  cases m with
  | nil => rfl
  | cons c m =>
    simp only [Memory.wfFrom, Bool.and_eq_true, decide_eq_true_eq] at h ⊢
    exact ⟨⟨by omega, h.1.2⟩, h.2⟩

theorem Memory.insert_wfFrom (m : Memory w) (lo i : Nat) (v : BitVec w) (hv : v ≠ 0) (hi : lo ≤ i)
    (h : Memory.wfFrom lo m = true) : Memory.wfFrom lo (Memory.insert m i v) = true := by
  induction m generalizing lo with
  | nil =>
    simp only [Memory.insert, Memory.wfFrom, Bool.and_eq_true, decide_eq_true_eq]
    exact ⟨⟨hi, hv⟩, trivial⟩
  | cons c m ih =>
    obtain ⟨a, x⟩ := c
    simp only [Memory.wfFrom, Bool.and_eq_true, decide_eq_true_eq] at h
    simp only [Memory.insert]
    split
    · simp only [Memory.wfFrom, Bool.and_eq_true, decide_eq_true_eq]
      exact ⟨⟨hi, hv⟩, ⟨by omega, h.1.2⟩, h.2⟩
    · split
      · rename_i heq; subst heq
        simp only [Memory.wfFrom, Bool.and_eq_true, decide_eq_true_eq]
        exact ⟨⟨hi, hv⟩, h.2⟩
      · simp only [Memory.wfFrom, Bool.and_eq_true, decide_eq_true_eq]
        exact ⟨h.1, ih (a + 1) (by omega) h.2⟩

theorem Memory.erase_wfFrom (m : Memory w) (lo i : Nat) (h : Memory.wfFrom lo m = true) :
    Memory.wfFrom lo (Memory.erase m i) = true := by
  induction m generalizing lo with
  | nil => rfl
  | cons c m ih =>
    obtain ⟨a, x⟩ := c
    simp only [Memory.wfFrom, Bool.and_eq_true, decide_eq_true_eq] at h
    simp only [Memory.erase]
    split
    · exact Memory.wfFrom_mono _ (a + 1) lo (by omega) (ih (a + 1) h.2)
    · simp only [Memory.wfFrom, Bool.and_eq_true, decide_eq_true_eq]
      exact ⟨h.1, ih (a + 1) h.2⟩

/-- A write keeps the canonical form. -/
theorem Memory.write_wf (m : Memory w) (i : Nat) (v : BitVec w) (h : Memory.wf m = true) :
    Memory.wf (Memory.write m i v) = true := by
  unfold Memory.write
  split
  · exact Memory.erase_wfFrom m 0 i h
  · rename_i hv; exact Memory.insert_wfFrom m 0 i v hv (Nat.zero_le i) h

/-- A loop of writes keeps the canonical form. -/
theorem Memory.writeRange_wf (m : Memory w) (base n : Nat) (f : Nat → BitVec w) (h : Memory.wf m = true) :
    Memory.wf (Memory.writeRange m base n f) = true := by
  induction n with
  | zero => exact h
  | succ n ih => exact Memory.write_wf _ _ _ ih

/-- In canonical form equal contents are equal data, above any common bound. -/
theorem Memory.eq_of_read_from (m m' : Memory w) (lo : Nat) (h : Memory.wfFrom lo m = true)
    (h' : Memory.wfFrom lo m' = true) (e : ∀ i, Memory.read m i = Memory.read m' i) : m = m' := by
  induction m generalizing m' lo with
  | nil =>
    cases m' with
    | nil => rfl
    | cons c m' =>
      simp only [Memory.wfFrom, Bool.and_eq_true, decide_eq_true_eq] at h'
      exact absurd (by simpa [Memory.read] using (e c.1).symm) h'.1.2
  | cons c m ih =>
    obtain ⟨a, x⟩ := c
    simp only [Memory.wfFrom, Bool.and_eq_true, decide_eq_true_eq] at h
    cases m' with
    | nil => exact absurd (by simpa [Memory.read] using e a) h.1.2
    | cons c' m' =>
      obtain ⟨b, y⟩ := c'
      simp only [Memory.wfFrom, Bool.and_eq_true, decide_eq_true_eq] at h'
      have hm := Memory.read_eq_zero_of_wfFrom m (a + 1) b h.2
      have hm' := Memory.read_eq_zero_of_wfFrom m' (b + 1) a h'.2
      have hab : a = b := by
        rcases Nat.lt_trichotomy a b with hlt | heq | hgt
        · have := e a
          simp only [Memory.read, if_true, if_neg (Nat.ne_of_lt hlt), hm' (by omega)] at this
          exact absurd this h.1.2
        · exact heq
        · have := e b
          simp only [Memory.read, if_true, if_neg (Nat.ne_of_lt hgt), hm (by omega)] at this
          exact absurd this.symm h'.1.2
      subst hab
      have hxy : x = y := by simpa [Memory.read] using e a
      subst hxy
      have htail : ∀ i, Memory.read m i = Memory.read m' i := by
        intro i
        by_cases hi : i = a
        · subst hi
          rw [Memory.read_eq_zero_of_wfFrom m (i + 1) i h.2 (by omega),
            Memory.read_eq_zero_of_wfFrom m' (i + 1) i h'.2 (by omega)]
        · simpa [Memory.read, hi] using e i
      rw [ih m' (a + 1) h.2 h'.2 htail]

/-- In canonical form equal contents are equal data. -/
theorem Memory.eq_of_read (m m' : Memory w) (h : Memory.wf m = true) (h' : Memory.wf m' = true)
    (e : ∀ i, Memory.read m i = Memory.read m' i) : m = m' :=
  Memory.eq_of_read_from m m' 0 h h' e

theorem Memory.insert_within (m : Memory w) (cap i : Nat) (v : BitVec w) (hi : i < cap)
    (h : Memory.within m cap = true) : Memory.within (Memory.insert m i v) cap = true := by
  induction m with
  | nil => simp [Memory.insert, Memory.within, hi]
  | cons c m ih =>
    obtain ⟨a, x⟩ := c
    simp only [Memory.within, List.all_cons, Bool.and_eq_true, decide_eq_true_eq] at h ih
    simp only [Memory.insert]
    split
    · simp only [Memory.within, List.all_cons, Bool.and_eq_true, decide_eq_true_eq]
      exact ⟨hi, h⟩
    · split
      · simp only [Memory.within, List.all_cons, Bool.and_eq_true, decide_eq_true_eq]
        exact ⟨hi, h.2⟩
      · simp only [Memory.within, List.all_cons, Bool.and_eq_true, decide_eq_true_eq]
        exact ⟨h.1, ih h.2⟩

theorem Memory.erase_within (m : Memory w) (cap i : Nat) (h : Memory.within m cap = true) :
    Memory.within (Memory.erase m i) cap = true := by
  induction m with
  | nil => rfl
  | cons c m ih =>
    obtain ⟨a, x⟩ := c
    simp only [Memory.within, List.all_cons, Bool.and_eq_true, decide_eq_true_eq] at h ih
    simp only [Memory.erase]
    split
    · exact ih h.2
    · simp only [Memory.within, List.all_cons, Bool.and_eq_true, decide_eq_true_eq]
      exact ⟨h.1, ih h.2⟩

/-- A write inside the capacity lists nothing outside it. -/
theorem Memory.write_within (m : Memory w) (cap i : Nat) (v : BitVec w) (hi : i < cap)
    (h : Memory.within m cap = true) : Memory.within (Memory.write m i v) cap = true := by
  unfold Memory.write
  split
  · exact Memory.erase_within m cap i h
  · exact Memory.insert_within m cap i v hi h

/-- A loop of writes inside the capacity lists nothing outside it. -/
theorem Memory.writeRange_within (m : Memory w) (cap base n : Nat) (f : Nat → BitVec w) (hn : base + n ≤ cap)
    (h : Memory.within m cap = true) : Memory.within (Memory.writeRange m base n f) cap = true := by
  induction n with
  | zero => exact h
  | succ n ih => exact Memory.write_within _ cap _ _ (by omega) (ih (by omega))

end Sys2Proof.Machine
end

