-- ==== Sys2Proof/Laws/PerInstr.lean ====
section
/-! SUPPORT. For every instruction: the fields of its encoding are the ones 30_encoding.md R101 to R104 give it. -/

namespace Sys2Proof.Laws

/-- The three fields of a host word (R101), or the two of a micro code (R102). -/
def hasFields : Code → Nat → Nat → Nat → Prop
  | .host w, op, space, arg => field w 31 24 = op ∧ field w 23 16 = space ∧ field w 15 0 = arg
  | .micro c, op, space, arg => field c 7 4 = op ∧ field c 3 0 = space ∧ arg = 0

/-- A host word keeps each of its fields when they fit. -/
theorem hostWord_fields (op space arg : Nat) (ho : op < 256) (hs : space < 256) (ha : arg < 65536) :
    hasFields (.host (hostWord op space arg)) op space arg := by
  refine ⟨?_, ?_, ?_⟩ <;> simp only [field, hostWord, BitVec.toNat_ofNat] <;> omega

/-- The operation code, the space field and the argument field of an instruction's own row (R103, R104). -/
def rowFields : Instr → Nat × Nat × Nat
  | .nop => (0, 0, 0)
  | .cfgwr index => (1, 0, index)
  | .tblwr space index => (2, space, index)
  | .commit => (3, 0, 0)
  | .proc count => (4, 0, count)
  | .rst => (5, 0, 0)
  | .rd space index => (6, space, index)
  | .clr => (7, 0, 0)
  | .wFill => (1, 0, 0)
  | .wApply => (1, 1, 0)
  | .wSlide => (1, 2, 0)
  | .shCalc => (1, 3, 0)
  | .xReq => (1, 4, 0)
  | .fbEnergy => (1, 5, 0)
  | .fbAcc => (1, 6, 0)
  | .fbSqrt => (1, 7, 0)
  | .nrApply => (1, 8, 0)
  | .gcApply => (1, 9, 0)
  | .lsApply => (1, 10, 0)
  | .seqEnd => (1, 11, 0)

/-- The encoding of a well-formed instruction holds its row's fields, every bit of them. -/
def EncodedFields.Statement (i : Instr) : Prop :=
  i.wellFormed = true → hasFields (encode i) (rowFields i).1 (rowFields i).2.1 (rowFields i).2.2

theorem EncodedFields.nop : EncodedFields.Statement .nop := by
  intro h
  exact hostWord_fields 0 0 0 (by decide) (by decide) (by decide)

theorem EncodedFields.cfgwr (index : Nat) : EncodedFields.Statement (.cfgwr index) := by
  intro h
  exact hostWord_fields 1 0 index (by decide) (by decide) (by simpa [Instr.wellFormed] using h)

theorem EncodedFields.tblwr (space index : Nat) : EncodedFields.Statement (.tblwr space index) := by
  intro h
  have hw : space < 256 ∧ index < 65536 := by simpa [Instr.wellFormed] using h
  exact hostWord_fields 2 space index (by decide) hw.1 hw.2

theorem EncodedFields.commit : EncodedFields.Statement .commit := by
  intro h
  exact hostWord_fields 3 0 0 (by decide) (by decide) (by decide)

theorem EncodedFields.proc (count : Nat) : EncodedFields.Statement (.proc count) := by
  intro h
  exact hostWord_fields 4 0 count (by decide) (by decide) (by simpa [Instr.wellFormed] using h)

theorem EncodedFields.rst : EncodedFields.Statement .rst := by
  intro h
  exact hostWord_fields 5 0 0 (by decide) (by decide) (by decide)

theorem EncodedFields.rd (space index : Nat) : EncodedFields.Statement (.rd space index) := by
  intro h
  have hw : space < 256 ∧ index < 65536 := by simpa [Instr.wellFormed] using h
  exact hostWord_fields 6 space index (by decide) hw.1 hw.2

theorem EncodedFields.clr : EncodedFields.Statement .clr := by
  intro h
  exact hostWord_fields 7 0 0 (by decide) (by decide) (by decide)

theorem EncodedFields.wFill : EncodedFields.Statement .wFill := fun _ => ⟨by decide, by decide, rfl⟩

theorem EncodedFields.wApply : EncodedFields.Statement .wApply := fun _ => ⟨by decide, by decide, rfl⟩

theorem EncodedFields.wSlide : EncodedFields.Statement .wSlide := fun _ => ⟨by decide, by decide, rfl⟩

theorem EncodedFields.shCalc : EncodedFields.Statement .shCalc := fun _ => ⟨by decide, by decide, rfl⟩

theorem EncodedFields.xReq : EncodedFields.Statement .xReq := fun _ => ⟨by decide, by decide, rfl⟩

theorem EncodedFields.fbEnergy : EncodedFields.Statement .fbEnergy := fun _ => ⟨by decide, by decide, rfl⟩

theorem EncodedFields.fbAcc : EncodedFields.Statement .fbAcc := fun _ => ⟨by decide, by decide, rfl⟩

theorem EncodedFields.fbSqrt : EncodedFields.Statement .fbSqrt := fun _ => ⟨by decide, by decide, rfl⟩

theorem EncodedFields.nrApply : EncodedFields.Statement .nrApply := fun _ => ⟨by decide, by decide, rfl⟩

theorem EncodedFields.gcApply : EncodedFields.Statement .gcApply := fun _ => ⟨by decide, by decide, rfl⟩

theorem EncodedFields.lsApply : EncodedFields.Statement .lsApply := fun _ => ⟨by decide, by decide, rfl⟩

theorem EncodedFields.seqEnd : EncodedFields.Statement .seqEnd := fun _ => ⟨by decide, by decide, rfl⟩

end Sys2Proof.Laws
end

