-- ==== Sys2Proof/Laws/Step.lean ====
section
/-! SUPPORT. Everything one step can do, said once. -/

namespace Sys2Proof.Machine

theorem step_running (s : State) (n : Nat) (i : Instr) (ha : s.port.active = some n)
    (hf : fetchMicro s.regs.seq = some i) : step s = exec i s := by
  simp [step, ha, hf]

theorem step_command (s : State) (c : HostCmd) (rest : List HostCmd) (i : Instr) (ha : s.port.active = none)
    (hq : s.port.queue = c :: rest) (hd : decodeHost c.word = .ok i) :
    step s = exec i (takeCommand c rest s) := by
  simp [step, ha, hq, hd]

theorem step_illegal (s : State) (c : HostCmd) (rest : List HostCmd) (e : DecodeError)
    (ha : s.port.active = none) (hq : s.port.queue = c :: rest) (hd : decodeHost c.word = .error e) :
    step s = .next (raise .illegal (takeCommand c rest s)) := by
  simp [step, ha, hq, hd]

theorem step_idle (s : State) (ha : s.port.active = none) (hq : s.port.queue = []) : step s = .next s := by
  simp [step, ha, hq]

/-- A step is one micro-operation, a stop where the ROM holds none, one command, an illegal word, or idle. -/
theorem step_cases (s : State) :
    (∃ n i, s.port.active = some n ∧ fetchMicro s.regs.seq = some i ∧ step s = exec i s)
    ∨ (∃ n, s.port.active = some n ∧ fetchMicro s.regs.seq = none
        ∧ step s = .refused (.noMicroOp s.regs.seq.toNat))
    ∨ (∃ c rest i, s.port.active = none ∧ s.port.queue = c :: rest ∧ decodeHost c.word = .ok i
        ∧ step s = exec i (takeCommand c rest s))
    ∨ (∃ c rest, s.port.active = none ∧ s.port.queue = c :: rest
        ∧ step s = .next (raise .illegal (takeCommand c rest s)))
    ∨ (s.port.active = none ∧ s.port.queue = [] ∧ step s = .next s) := by
  cases ha : s.port.active with
  | some n =>
    cases hf : fetchMicro s.regs.seq with
    | some i => exact Or.inl ⟨n, i, rfl, rfl, step_running s n i ha hf⟩
    | none => exact Or.inr (Or.inl ⟨n, rfl, rfl, by simp [step, ha, hf]⟩)
  | none =>
    cases hq : s.port.queue with
    | nil => exact Or.inr (Or.inr (Or.inr (Or.inr ⟨rfl, rfl, step_idle s ha hq⟩)))
    | cons c rest =>
      cases hd : decodeHost c.word with
      | ok i => exact Or.inr (Or.inr (Or.inl ⟨c, rest, i, rfl, rfl, hd, step_command s c rest i ha hq hd⟩))
      | error e =>
        exact Or.inr (Or.inr (Or.inr (Or.inl ⟨c, rest, rfl, rfl, step_illegal s c rest e ha hq hd⟩)))

/-- The micro-operation of each index of the ROM. -/
theorem fetchMicro_table :
    fetchMicro 0 = some .wFill ∧ fetchMicro 1 = some .wApply ∧ fetchMicro 2 = some .wSlide
    ∧ fetchMicro 3 = some .shCalc ∧ fetchMicro 4 = some .xReq ∧ fetchMicro 5 = some .fbEnergy
    ∧ fetchMicro 6 = some .fbAcc ∧ fetchMicro 7 = some .fbSqrt ∧ fetchMicro 8 = some .nrApply
    ∧ fetchMicro 9 = some .gcApply ∧ fetchMicro 10 = some .lsApply ∧ fetchMicro 11 = some .seqEnd := by
  decide

end Sys2Proof.Machine
end

