-- ==== Sys2Proof/Machine/Surface.lean ====
section
/-! DEFINITION. The configuration surface of the document with its defaults (00_scope.md R10), the registers and tables
the host derives from it (00_scope.md R11, 70_reset_and_hazards.md R386), and the commands that load them
(70_reset_and_hazards.md R385). Nothing of the block calls them. -/

namespace Sys2Proof.Machine

/-- The 17 parameters of the configuration surface, "all overridable" (R10). Of their types the spec states three, the
integers `sample_rate`, `frame_ms`, `step_ms` (R146); the others are DESIGN CHOICE (notes/assumptions/24.md). -/
structure Surface where
  sampleRate         : Nat
  frameMs            : Nat
  stepMs             : Nat
  channels           : Nat
  lowerHz            : ℚ
  upperHz            : ℚ
  fbOutputScaleShift : Nat
  smoothingBits      : Nat
  evenSmoothing      : ℚ
  oddSmoothing       : ℚ
  minSignalRemaining : ℚ
  gcEnable           : Bool
  strength           : ℚ
  offset             : ℚ
  gainBits           : Nat
  logEnable          : Bool
  logScaleShift      : Nat
deriving DecidableEq, Repr

/-- The document's defaults (R10). It gives `fb_output_scale_shift` none (91_not_in_source.md N9): an argument. -/
def Surface.defaults (fbOutputScaleShift : Nat) : Surface where
  sampleRate         := 16000
  frameMs            := 30
  stepMs             := 10
  channels           := 40
  lowerHz            := 125
  upperHz            := 7500
  fbOutputScaleShift := fbOutputScaleShift
  smoothingBits      := 10
  evenSmoothing      := 25 / 1000
  oddSmoothing       := 6 / 100
  minSignalRemaining := 5 / 100
  gcEnable           := true
  strength           := 95 / 100
  offset             := 80
  gainBits           := 21
  logEnable          := true
  logScaleShift      := 6

/-! ### What follows from the surface -/

/-- `SIZE` (R146). -/
def Surface.size (p : Surface) : Nat :=
  samplesOfMs p.frameMs p.sampleRate

/-- `STEP` (R146). -/
def Surface.step (p : Surface) : Nat :=
  samplesOfMs p.stepMs p.sampleRate

/-- `FFT_SIZE` (R169). -/
def Surface.fftSize (p : Surface) : Nat :=
  minimalFft p.size

/-- `CORR_BITS`, which the gain construction needs before `COMMIT` derives it (R268, R316). -/
def Surface.corrBits (p : Surface) : Int :=
  corrBitsOf p.fftSize

/-- The inputs of the filterbank construction (R210), with `SPEC_SIZE` = FFT_SIZE/2 + 1. -/
def Surface.filterbankInputs (p : Surface) : FilterbankInputs where
  channels   := p.channels
  lowerHz    := p.lowerHz
  upperHz    := p.upperHz
  sampleRate := p.sampleRate
  specSize   := p.fftSize / 2 + 1

/-- The gain table of the surface (R268 to R270). -/
def Surface.gainTable (p : Surface) : List Int :=
  Machine.gainTable (gainFunction p.gainBits (inputBitsOf p.smoothingBits p.corrBits) p.strength p.offset)

/-! ### What the host loads -/

/-- Everything the host loads before `COMMIT` (R386): CFG[0 .. 15] in index order, and the seven tables. -/
structure HostLoad where
  registers  : List Int
  coef       : List Int
  filterbank : FilterbankTables
  glut       : List Int
deriving DecidableEq, Repr

/-- `SNR_SHIFT` as the host writes it. With gain control on, the formula of R268, refused where negative. With it off,
R252 has the host write 0, while R268 and R386 except no configuration from the formula: the model writes 0 and refuses
nothing, DESIGN CHOICE (notes/assumptions/26.md). -/
def Surface.snrShift (p : Surface) : Option Nat :=
  if p.gcEnable then snrShiftOf p.gainBits p.corrBits else some 0

/-- CFG[0 .. 15] for a surface and its filterbank; none where a fraction or the shift of the gain stage is refused
(R244, R268, R386). -/
def Surface.registers (p : Surface) (fb : FilterbankTables) : Option (List Int) := do
  let even ← fraction14 p.evenSmoothing
  let odd ← fraction14 p.oddSmoothing
  let least ← fraction14 p.minSignalRemaining
  let snr ← p.snrShift
  return [p.size, p.step, p.fftSize, p.channels, fb.startIndex, fb.endIndex, fb.nweight, p.fbOutputScaleShift,
    p.smoothingBits, even, odd, least, (if p.gcEnable then 1 else 0), snr, (if p.logEnable then 1 else 0),
    p.logScaleShift]

/-- `COEF` of the surface: the window of R147 at its `SIZE` (R9). -/
def Surface.coef (p : Surface) : List Int :=
  (coefTable p.size).map Int.ofNat

/-- What a surface gives the host to load, or failure, for a mel scale in some precision (R9, R386). -/
def Surface.load (p : Surface) (mel : MelScale) : Option HostLoad := do
  let fb ← buildFilterbank p.filterbankInputs p.filterbankInputs.fuel mel
  let registers ← p.registers fb
  return { registers := registers, coef := p.coef, filterbank := fb, glut := p.gainTable }

/-- The configuration registers after the `CFGWR`s of a load at power-on, before `COMMIT` derives the last two. -/
def HostLoad.cfg (l : HostLoad) : Cfg :=
  l.registers.zipIdx.foldl (fun g v => g.write v.2 v.1) Cfg.reset

/-- The commands that load and commit a configuration (R111, R385). -/
def HostLoad.commands (l : HostLoad) : List HostCmd :=
  configure (l.registers.zipIdx.map fun v => (v.2, v.1))
  ++ loadTable 0x02 l.coef
  ++ loadTable 0x07 (l.filterbank.fstart.map Int.ofNat)
  ++ loadTable 0x08 (l.filterbank.wstart.map Int.ofNat)
  ++ loadTable 0x09 (l.filterbank.width.map Int.ofNat)
  ++ loadTable 0x0A (l.filterbank.weight.map Int.ofNat)
  ++ loadTable 0x0B (l.filterbank.unweight.map Int.ofNat)
  ++ loadTable 0x0F l.glut
  ++ [commitCommand]

end Sys2Proof.Machine
end

