-- ==== Sys2Proof/Machine/DefaultConfiguration.lean ====
section
/-! DEFINITION. The document's default configuration (00_scope.md R10, R11) as the data the spec prints: the derived
registers, the window table (96_default_configuration.md V3), the filterbank tables (V30) and the two gain tables
(45_gain_control.md R272). Nothing of the block calls them; Tests/Slice0.lean holds them against the constructions. -/

namespace Sys2Proof.Machine

/-- The CFG registers a block configured with the defaults holds (R11); the document gives `FB_OUT_SHIFT` no default. -/
def defaultCfg (fbOutShift : BitVec 8) : Cfg where
  size       := 480
  step       := 160
  fftSize    := 512
  nchan      := 40
  startIndex := 5
  endIndex   := 241
  nweight    := 316
  fbOutShift := fbOutShift
  smoothBits := 10
  evenSmooth := 409
  oddSmooth  := 983
  minRemain  := 819
  gcEnable   := 1
  snrShift   := 6
  logEnable  := 1
  logShift   := 6
  corrBits   := 3
  specSize   := 257

/-- COEF for SIZE = 480 (V3). -/
def defaultCoef : List Int :=
  [0, 0, 1, 2, 4, 5, 7, 10, 13, 16, 19, 23, 27, 32, 37, 42, 48, 53, 60, 66]
  ++ [73, 81, 88, 96, 104, 113, 122, 131, 141, 151, 161, 172, 183, 194, 205, 217, 229, 242, 255, 268]
  ++ [281, 295, 309, 323, 338, 353, 368, 383, 399, 415, 431, 448, 465, 482, 499, 517, 535, 553, 572, 590]
  ++ [609, 629, 648, 668, 688, 708, 728, 749, 770, 791, 812, 833, 855, 877, 899, 921, 944, 967, 989, 1012]
  ++ [1036, 1059, 1083, 1106, 1130, 1154, 1178, 1203, 1227, 1252, 1277, 1302, 1327, 1352, 1377, 1402, 1428, 1453, 1479, 1505]
  ++ [1531, 1557, 1583, 1609, 1635, 1662, 1688, 1714, 1741, 1767, 1794, 1821, 1847, 1874, 1901, 1927, 1954, 1981, 2008, 2035]
  ++ [2061, 2088, 2115, 2142, 2169, 2195, 2222, 2249, 2275, 2302, 2329, 2355, 2382, 2408, 2434, 2461, 2487, 2513, 2539, 2565]
  ++ [2591, 2617, 2643, 2668, 2694, 2719, 2744, 2769, 2794, 2819, 2844, 2869, 2893, 2918, 2942, 2966, 2990, 3013, 3037, 3060]
  ++ [3084, 3107, 3129, 3152, 3175, 3197, 3219, 3241, 3263, 3284, 3305, 3326, 3347, 3368, 3388, 3408, 3428, 3448, 3467, 3487]
  ++ [3506, 3524, 3543, 3561, 3579, 3597, 3614, 3631, 3648, 3665, 3681, 3697, 3713, 3728, 3743, 3758, 3773, 3787, 3801, 3815]
  ++ [3828, 3841, 3854, 3867, 3879, 3891, 3902, 3913, 3924, 3935, 3945, 3955, 3965, 3974, 3983, 3992, 4000, 4008, 4015, 4023]
  ++ [4030, 4036, 4043, 4048, 4054, 4059, 4064, 4069, 4073, 4077, 4080, 4083, 4086, 4089, 4091, 4092, 4094, 4095, 4096, 4096]
  ++ [4096, 4096, 4095, 4094, 4092, 4091, 4089, 4086, 4083, 4080, 4077, 4073, 4069, 4064, 4059, 4054, 4048, 4043, 4036, 4030]
  ++ [4023, 4015, 4008, 4000, 3992, 3983, 3974, 3965, 3955, 3945, 3935, 3924, 3913, 3902, 3891, 3879, 3867, 3854, 3841, 3828]
  ++ [3815, 3801, 3787, 3773, 3758, 3743, 3728, 3713, 3697, 3681, 3665, 3648, 3631, 3614, 3597, 3579, 3561, 3543, 3524, 3506]
  ++ [3487, 3467, 3448, 3428, 3408, 3388, 3368, 3347, 3326, 3305, 3284, 3263, 3241, 3219, 3197, 3175, 3152, 3129, 3107, 3084]
  ++ [3060, 3037, 3013, 2990, 2966, 2942, 2918, 2893, 2869, 2844, 2819, 2794, 2769, 2744, 2719, 2694, 2668, 2643, 2617, 2591]
  ++ [2565, 2539, 2513, 2487, 2461, 2434, 2408, 2382, 2355, 2329, 2302, 2275, 2249, 2222, 2195, 2169, 2142, 2115, 2088, 2061]
  ++ [2035, 2008, 1981, 1954, 1927, 1901, 1874, 1847, 1821, 1794, 1767, 1741, 1714, 1688, 1662, 1635, 1609, 1583, 1557, 1531]
  ++ [1505, 1479, 1453, 1428, 1402, 1377, 1352, 1327, 1302, 1277, 1252, 1227, 1203, 1178, 1154, 1130, 1106, 1083, 1059, 1036]
  ++ [1012, 989, 967, 944, 921, 899, 877, 855, 833, 812, 791, 770, 749, 728, 708, 688, 668, 648, 629, 609]
  ++ [590, 572, 553, 535, 517, 499, 482, 465, 448, 431, 415, 399, 383, 368, 353, 338, 323, 309, 295, 281]
  ++ [268, 255, 242, 229, 217, 205, 194, 183, 172, 161, 151, 141, 131, 122, 113, 104, 96, 88, 81, 73]
  ++ [66, 60, 53, 48, 42, 37, 32, 27, 23, 19, 16, 13, 10, 7, 5, 4, 2, 1, 0, 0]

/-- FSTART of the default filterbank (V30). -/
def defaultFstart : List Nat :=
  [4, 6, 8, 8, 10, 12, 14, 16, 18, 22, 24, 26, 30, 32, 36, 38, 42, 46, 50, 54]
  ++ [58, 64, 68, 74, 78, 84, 90, 98, 104, 112, 120, 128, 136, 146, 154, 166, 176, 188, 200, 212]
  ++ [226]

/-- WSTART of the default filterbank (V30). -/
def defaultWstart : List Nat :=
  [0, 4, 8, 12, 16, 20, 24, 28, 32, 36, 40, 44, 48, 52, 56, 60, 68, 76, 80, 88]
  ++ [96, 104, 112, 120, 128, 136, 144, 152, 160, 168, 176, 184, 196, 208, 220, 232, 244, 256, 268, 284]
  ++ [300]

/-- WIDTH of the default filterbank (V30). -/
def defaultWidth : List Nat :=
  [4, 4, 4, 4, 4, 4, 4, 4, 4, 4, 4, 4, 4, 4, 4, 8, 8, 4, 8, 8]
  ++ [8, 8, 8, 8, 8, 8, 8, 8, 8, 8, 8, 12, 12, 12, 12, 12, 12, 12, 16, 16]
  ++ [16]

/-- WEIGHT of the default filterbank, in the binary32 arithmetic of R221 (V30). -/
def defaultWeight : List Nat :=
  [0, 1377, 0, 0, 2852, 321, 0, 0, 1971, 0, 0, 0, 0, 3701, 1408, 0, 0, 3281, 1124, 0]
  ++ [0, 3124, 1087, 0, 0, 3201, 1272, 0, 0, 3488, 1655, 0, 0, 3963, 2218, 513, 2943, 1314, 0, 0]
  ++ [3817, 2258, 731, 0, 0, 3332, 1866, 430, 3117, 1734, 377, 0, 0, 3141, 1833, 548, 3381, 2139, 918, 0]
  ++ [0, 3814, 2632, 1470, 325, 0, 0, 0, 0, 3294, 2185, 1092, 15, 0, 0, 0, 0, 3049, 2003, 972]
  ++ [4051, 3048, 2058, 1082, 118, 0, 0, 0, 0, 3263, 2324, 1398, 482, 0, 0, 0, 0, 3674, 2782, 1899]
  ++ [1028, 167, 0, 0, 3411, 2570, 1738, 915, 102, 0, 0, 0, 0, 3393, 2598, 1810, 1032, 261, 0, 0]
  ++ [3594, 2840, 2093, 1353, 621, 0, 0, 0, 0, 3993, 3275, 2564, 1861, 1163, 473, 0, 0, 3885, 3207, 2536]
  ++ [1870, 1211, 557, 0, 0, 4006, 3364, 2727, 2096, 1471, 850, 235, 3721, 3117, 2517, 1922, 1331, 746, 165, 0]
  ++ [0, 3685, 3113, 2546, 1983, 1424, 870, 320, 3869, 3327, 2789, 2255, 1725, 1198, 676, 157, 3737, 3226, 2717, 2213]
  ++ [1711, 1214, 719, 228, 3836, 3352, 2870, 2392, 1917, 1445, 976, 510, 46, 0, 0, 0, 0, 3682, 3225, 2770]
  ++ [2319, 1870, 1424, 980, 539, 101, 0, 0, 3762, 3329, 2898, 2470, 2045, 1622, 1202, 784, 368, 0, 0, 0]
  ++ [0, 4050, 3639, 3231, 2824, 2420, 2018, 1618, 1220, 825, 432, 40, 3747, 3360, 2975, 2592, 2211, 1832, 1455, 1079]
  ++ [706, 335, 0, 0, 4061, 3693, 3328, 2964, 2601, 2241, 1882, 1526, 1170, 817, 465, 115, 3863, 3516, 3171, 2827]
  ++ [2486, 2145, 1807, 1469, 1134, 800, 467, 136, 3903, 3575, 3248, 2923, 2599, 2277, 1956, 1636, 1318, 1002, 686, 372]
  ++ [60, 0, 0, 0, 0, 3844, 3534, 3226, 2918, 2612, 2307, 2004, 1702, 1400, 1101, 802, 505, 208, 0, 0]
  ++ [4010, 3716, 3423, 3132, 2841, 2552, 2264, 1977, 1692, 1407, 1123, 841, 560, 279, 0, 0]

/-- UNWEIGHT of the default filterbank, in the binary32 arithmetic of R221 (V30). -/
def defaultUnweight : List Nat :=
  [0, 2719, 0, 0, 1244, 3775, 0, 0, 2125, 0, 0, 0, 0, 395, 2688, 0, 0, 815, 2972, 0]
  ++ [0, 972, 3009, 0, 0, 895, 2824, 0, 0, 608, 2441, 0, 0, 133, 1878, 3583, 1153, 2782, 0, 0]
  ++ [279, 1838, 3365, 0, 0, 764, 2230, 3666, 979, 2362, 3719, 0, 0, 955, 2263, 3548, 715, 1957, 3178, 0]
  ++ [0, 282, 1464, 2626, 3771, 0, 0, 0, 0, 802, 1911, 3004, 4081, 0, 0, 0, 0, 1047, 2093, 3124]
  ++ [45, 1048, 2038, 3014, 3978, 0, 0, 0, 0, 833, 1772, 2698, 3614, 0, 0, 0, 0, 422, 1314, 2197]
  ++ [3068, 3929, 0, 0, 685, 1526, 2358, 3181, 3994, 0, 0, 0, 0, 703, 1498, 2286, 3064, 3835, 0, 0]
  ++ [502, 1256, 2003, 2743, 3475, 0, 0, 0, 0, 103, 821, 1532, 2235, 2933, 3623, 0, 0, 211, 889, 1560]
  ++ [2226, 2885, 3539, 0, 0, 90, 732, 1369, 2000, 2625, 3246, 3861, 375, 979, 1579, 2174, 2765, 3350, 3931, 0]
  ++ [0, 411, 983, 1550, 2113, 2672, 3226, 3776, 227, 769, 1307, 1841, 2371, 2898, 3420, 3939, 359, 870, 1379, 1883]
  ++ [2385, 2882, 3377, 3868, 260, 744, 1226, 1704, 2179, 2651, 3120, 3586, 4050, 0, 0, 0, 0, 414, 871, 1326]
  ++ [1777, 2226, 2672, 3116, 3557, 3995, 0, 0, 334, 767, 1198, 1626, 2051, 2474, 2894, 3312, 3728, 0, 0, 0]
  ++ [0, 46, 457, 865, 1272, 1676, 2078, 2478, 2876, 3271, 3664, 4056, 349, 736, 1121, 1504, 1885, 2264, 2641, 3017]
  ++ [3390, 3761, 0, 0, 35, 403, 768, 1132, 1495, 1855, 2214, 2570, 2926, 3279, 3631, 3981, 233, 580, 925, 1269]
  ++ [1610, 1951, 2289, 2627, 2962, 3296, 3629, 3960, 193, 521, 848, 1173, 1497, 1819, 2140, 2460, 2778, 3094, 3410, 3724]
  ++ [4036, 0, 0, 0, 0, 252, 562, 870, 1178, 1484, 1789, 2092, 2394, 2696, 2995, 3294, 3591, 3888, 0, 0]
  ++ [86, 380, 673, 964, 1255, 1544, 1832, 2119, 2404, 2689, 2973, 3255, 3536, 3817, 4096, 0]

/-- The default filterbank (V30). -/
def defaultFilterbank : FilterbankTables where
  startIndex := 5
  endIndex   := 241
  nweight    := 316
  fstart     := defaultFstart
  wstart     := defaultWstart
  width      := defaultWidth
  weight     := defaultWeight
  unweight   := defaultUnweight

/-- The place of bin k of band b in the default weight tables (R218). -/
def defaultPlace (b k : Nat) : Nat :=
  defaultWstart.getD b 0 + (k - defaultFstart.getD b 0)

/-- The mel scale of the default tables: the exact partition, with the weights V30 prints. -/
def defaultMel : MelScale where
  atOrBelow  := (MelScale.exact (Surface.defaults 0).filterbankInputs).atOrBelow
  weightOf   := fun b k => defaultWeight.getD (defaultPlace b k) 0
  unweightOf := fun b k => defaultUnweight.getD (defaultPlace b k) 0

/-- Table G7, the gain table of the default configuration: input_bits = 7 (R272). -/
def gainTable7 : List Int :=
  [32636, 32633, 32630, -6, 0, 0, 32624, -12, 0, 0, 32612, -23, -2, 0, 32587, -48, 0, 0, 32539, -96]
  ++ [0, 0, 32443, -190, 0, 0, 32253, -378, 4, 0, 31879, -739, 18, 0, 31158, -1409, 62, 0, 29811, -2567]
  ++ [202, 0, 27446, -4301, 562, 0, 23707, -6265, 1230, 0, 18672, -7458, 1952, 0, 13166, -7030, 2212, 0, 8348, -5342]
  ++ [1868, 0, 4874, -3459, 1282, 0, 2697, -2025, 774, 0, 1446, -1120, 436, 0, 762, -596, 232, 0, 398, -313]
  ++ [122, 0, 207, -164, 64, 0, 107, -85, 34, 0, 56, -45, 18, 0, 29, -22, 8, 0, 15, -13]
  ++ [6, 0, 8, -8, 4, 0, 4, -2, 0, 0, 2, -3, 2, 0, 1, 0, 0, 0, 1, -3]
  ++ [2, 0, 0, 0, 0]

/-- Table G11, the gain table of the document's vector: input_bits = 11 (R272). -/
def gainTable11 : List Int :=
  [32636, 32636, 32635, 0, 0, 0, 32635, 1, -2, 0, 32634, 1, -2, 0, 32633, -5, 2, 0, 32630, -6]
  ++ [0, 0, 32624, -12, 0, 0, 32612, -23, -2, 0, 32587, -48, 0, 0, 32539, -96, 0, 0, 32443, -190]
  ++ [0, 0, 32253, -378, 4, 0, 31879, -739, 18, 0, 31158, -1409, 62, 0, 29811, -2567, 202, 0, 27446, -4301]
  ++ [562, 0, 23707, -6265, 1230, 0, 18672, -7458, 1952, 0, 13166, -7030, 2212, 0, 8348, -5342, 1868, 0, 4874, -3459]
  ++ [1282, 0, 2697, -2025, 774, 0, 1446, -1120, 436, 0, 762, -596, 232, 0, 398, -313, 122, 0, 207, -164]
  ++ [64, 0, 107, -85, 34, 0, 56, -45, 18, 0, 29, -22, 8, 0, 15, -13, 6, 0, 8, -8]
  ++ [4, 0, 4, -2, 0]

/-- Everything the host loads for the default configuration (R386, 96_default_configuration.md P4). -/
def defaultLoad (fbOutShift : Nat) : HostLoad where
  registers  := [480, 160, 512, 40, 5, 241, 316, (fbOutShift : Int), 10, 409, 983, 819, 1, 6, 1, 6]
  coef       := defaultCoef
  filterbank := defaultFilterbank
  glut       := gainTable7

end Sys2Proof.Machine
end

