-- ==== Sys2Proof/Tests/Slice0.lean ====
section
/-! SUPPORT. The model's own tests: ill-formed terms refused, words written out from the spec's encoding tables,
one-step tests whose expected values are the vectors of 95_test_vectors.md, and, for each statement with
hypotheses, a concrete state and operands that meet them. -/

namespace Sys2Proof.Tests

open Sys2Proof Sys2Proof.Machine

/-! ### Helpers -/

/-- The elements of a space from a list, index 0 first. -/
def mem (w : Nat) (l : List Int) : Memory w :=
  Memory.writeRange [] 0 l.length fun i => BitVec.ofInt w (l.getD i 0)

/-- The first n elements of a space as signed numbers. -/
def signedElems {w : Nat} (n : Nat) (m : Memory w) : List Int :=
  (List.range n).map fun i => (Memory.read m i).toInt

/-- The first n elements of a space as unsigned numbers. -/
def elems {w : Nat} (n : Nat) (m : Memory w) : List Nat :=
  (List.range n).map fun i => (Memory.read m i).toNat

/-- A view of the next state, none where the machine stops. -/
def seen {α : Type} (f : State → α) : Result → Option α
  | .next t => some (f t)
  | .fault _ => none
  | .refused _ => none

/-- Power-on with other configuration registers. -/
def withCfg (g : Cfg) : State :=
  { State.reset with cfg := g }

/-- Power-on with a data word on the port. -/
def withData (v : Int) : State :=
  { State.reset with port := { Port.reset with wdata := BitVec.ofInt 64 v } }

/-- The smallest legal configuration: one sample, a transform of two, one channel. -/
def tinyCfg : Cfg :=
  { Cfg.reset with size := 1, step := 1, fftSize := 2, nchan := 1 }

/-- The tiny configuration loaded, before `COMMIT`. -/
def loaded : State :=
  withCfg tinyCfg

/-- The tiny configuration as `COMMIT` leaves it. -/
def idle : State :=
  { loaded with
    cfg := { tinyCfg with corrBits := BitVec.ofInt 8 (-5), specSize := 2 }
    regs := { Regs.reset with phase := .awaitingFrame } }

/-- The same block in the failed phase. -/
def broken : State :=
  { loaded with regs := { Regs.reset with phase := .failed, err := .config } }

/-! ### Well-formedness -/

theorem test_cfgwr_index_too_wide : (Instr.cfgwr 65536).wellFormed = false := by decide
theorem test_tblwr_space_too_wide : (Instr.tblwr 256 0).wellFormed = false := by decide
theorem test_tblwr_index_too_wide : (Instr.tblwr 2 65536).wellFormed = false := by decide
theorem test_proc_count_too_wide : (Instr.proc 65536).wellFormed = false := by decide
theorem test_rd_space_too_wide : (Instr.rd 256 0).wellFormed = false := by decide
theorem test_rd_index_too_wide : (Instr.rd 17 65536).wellFormed = false := by decide
theorem test_widest_operands : (Instr.tblwr 255 65535).wellFormed = true ∧ (Instr.proc 65535).wellFormed = true := by
  decide

/-- R387 (a): a `PROC 2` with one sample, and a `NOP` with one, are not commands a host may present. -/
theorem test_sample_count_checked :
    HostCmd.wellFormed ⟨0x04000002#32, 0, [7]⟩ = false ∧ HostCmd.wellFormed ⟨0#32, 0, [7]⟩ = false
      ∧ HostCmd.wellFormed ⟨0x04000002#32, 0, [7, 8]⟩ = true := by
  decide

/-! ### Decoding: words written out from R101 to R104 (V1, V2) -/

theorem test_decode_nop : decodeHost 0b00000000000000000000000000000000#32 = .ok .nop := by decide
theorem test_decode_cfgwr : decodeHost 0b00000001000000000000000000001111#32 = .ok (.cfgwr 15) := by decide
theorem test_decode_tblwr : decodeHost 0b00000010000011110000000001111100#32 = .ok (.tblwr 15 124) := by decide
theorem test_decode_commit : decodeHost 0b00000011000000000000000000000000#32 = .ok .commit := by decide
theorem test_decode_proc : decodeHost 0b00000100000000001111111111111111#32 = .ok (.proc 65535) := by decide
theorem test_decode_rst : decodeHost 0b00000101000000000000000000000000#32 = .ok .rst := by decide
theorem test_decode_rd : decodeHost 0b00000110000100000000000010000000#32 = .ok (.rd 16 128) := by decide
theorem test_decode_clr : decodeHost 0b00000111000000000000000000000000#32 = .ok .clr := by decide
theorem test_decode_wFill : decodeMicro 0b00010000#8 = .ok .wFill := by decide
theorem test_decode_wApply : decodeMicro 0b00010001#8 = .ok .wApply := by decide
theorem test_decode_wSlide : decodeMicro 0b00010010#8 = .ok .wSlide := by decide
theorem test_decode_shCalc : decodeMicro 0b00010011#8 = .ok .shCalc := by decide
theorem test_decode_xReq : decodeMicro 0b00010100#8 = .ok .xReq := by decide
theorem test_decode_fbEnergy : decodeMicro 0b00010101#8 = .ok .fbEnergy := by decide
theorem test_decode_fbAcc : decodeMicro 0b00010110#8 = .ok .fbAcc := by decide
theorem test_decode_fbSqrt : decodeMicro 0b00010111#8 = .ok .fbSqrt := by decide
theorem test_decode_nrApply : decodeMicro 0b00011000#8 = .ok .nrApply := by decide
theorem test_decode_gcApply : decodeMicro 0b00011001#8 = .ok .gcApply := by decide
theorem test_decode_lsApply : decodeMicro 0b00011010#8 = .ok .lsApply := by decide
theorem test_decode_seqEnd : decodeMicro 0b00011011#8 = .ok .seqEnd := by decide

/-- The illegal rows of V1. -/
theorem test_illegal_words :
    decodeHost 0x00000001#32 = .error .argNotZero ∧ decodeHost 0x00010000#32 = .error .spaceNotZero
      ∧ decodeHost 0x01020000#32 = .error .spaceNotZero ∧ decodeHost 0x04010003#32 = .error .spaceNotZero
      ∧ decodeHost 0x05000001#32 = .error .argNotZero ∧ decodeHost 0x07FF0000#32 = .error .spaceNotZero
      ∧ decodeHost 0x08000000#32 = .error (.reservedOp 8) ∧ decodeHost 0xFFFFFFFF#32 = .error (.reservedOp 255) := by
  decide

/-- V2: 0x1C, 0x0F and 0x00 decode to no micro-operation. -/
theorem test_illegal_codes :
    decodeMicro 0x1C#8 = .error (.notMicroOp 0x1C) ∧ decodeMicro 0x0F#8 = .error (.notMicroOp 0x0F)
      ∧ decodeMicro 0x00#8 = .error (.notMicroOp 0) := by
  decide

theorem test_table_words :
    decodeTableWord 32 0x020F007C = some (.tblwr 15 124) ∧ decodeTableWord 8 0x13 = some .shCalc
      ∧ decodeTableWord 16 0x13 = none := by
  decide

/-! ### Host commands, one step each (V1a, V70 to V73, P3 part B) -/

theorem test_nop_clears_err : seen (fun t => (t.regs.err, t.regs.phase)) (execNop broken) = some (.ok, .failed) := by
  decide

/-- `CFGWR SMOOTH_BITS, 255` is accepted, 256 is `E_RANGE`. -/
theorem test_cfgwr_u8_range :
    seen (fun t => (t.cfg.smoothBits.toNat, t.regs.err)) (execCfgwr 8 (withData 255)) = some (255, .ok)
      ∧ seen (fun t => (t.cfg.smoothBits.toNat, t.regs.err)) (execCfgwr 8 (withData 256)) = some (0, .range) := by
  decide

/-- `CFGWR SIZE, -1` is `E_RANGE`, and the phase is checked before the range. -/
theorem test_cfgwr_refusals :
    seen (fun t => t.regs.err) (execCfgwr 0 (withData (-1))) = some .range
      ∧ seen (fun t => t.regs.err) (execCfgwr 16 broken) = some .state := by
  decide

/-- `TBLWR GLUT[1], -1120` is stored, `TBLWR GLUT[0], 32768` is `E_RANGE`. -/
theorem test_tblwr_glut :
    seen (fun t => signedElems 2 t.tables.glut) (execTblwr 0x0F 1 (withData (-1120))) = some [0, -1120]
      ∧ seen (fun t => (t.tables.glut, t.regs.err)) (execTblwr 0x0F 0 (withData 32768)) = some ([], .range) := by
  decide

/-- `TBLWR IN[0]`, space 0x12 and GLUT[125] are `E_RANGE`. -/
theorem test_tblwr_refusals :
    seen (fun t => t.regs.err) (execTblwr 0x03 0 (withData 1)) = some .range
      ∧ seen (fun t => t.regs.err) (execTblwr 0x12 0 (withData 1)) = some .range
      ∧ seen (fun t => t.regs.err) (execTblwr 0x0F 125 (withData 1)) = some .range := by
  decide

/-- At power-on check 1 fails first: `E_CONFIG`, `PHASE` <- `FAILED`. -/
theorem test_commit_of_nothing_fails :
    seen (fun t => (t.regs.err, t.regs.phase)) (execCommit State.reset) = some (.config, .failed) := by
  decide

/-- P3 part B step 6: END_INDEX = 257 with 257 bins fails check 10, at the capacities of that program. -/
theorem test_commit_end_index :
    (let g := { Cfg.reset with fftSize := 512, size := 480, step := 160, nchan := 40, endIndex := 257 }
     firstFailure (commitChecks ⟨480, 512, 40, 316⟩ (fun _ => true) g Tables.reset) = some .config
      ∧ firstFailure (commitChecks ⟨480, 512, 40, 316⟩ (fun _ => true) { g with endIndex := 256 } Tables.reset) = none
      ∧ firstFailure (commitChecks ⟨480, 512, 40, 316⟩ (fun _ => false) { g with endIndex := 256 } Tables.reset)
          = some .xform) := by
  decide

theorem test_proc_starts :
    seen (fun t => (t.port.active, t.regs.seq, t.regs.nfeat))
        (execProc 3 { idle with regs := { idle.regs with featureValid := true, nfeat := 1 } }) = some (some 3, 0, 0)
      ∧ seen (fun t => (t.port.active, t.regs.err)) (execProc 1 State.reset) = some (none, .state) := by
  decide

theorem test_rst_zeroes :
    seen (fun t => (elems 1 t.bufs.inp, elems 1 t.bufs.est, elems 1 t.bufs.sig, t.regs.consumed.toNat))
        (execRst { idle with
          bufs := { Bufs.reset with inp := mem 16 [5], est := mem 32 [6], sig := mem 32 [7] }
          regs := { idle.regs with consumed := 1 } })
      = some ([0], [0], [7], 1)
      ∧ seen (fun t => t.regs.err) (execRst broken) = some .state := by
  decide

/-- `RD CFG[16]` with `CORR_BITS` = -4, and `RD LLUT[129]`. -/
theorem test_rd :
    seen (fun t => t.port.rdata) (execRd 0 16 (withCfg { Cfg.reset with corrBits := BitVec.ofInt 8 (-4) }))
        = some 0xFFFFFFFFFFFFFFFC
      ∧ seen (fun t => (t.port.rdata, t.regs.err)) (execRd 0x10 129 State.reset) = some (0, .range) := by
  decide

/-- `RD IN[0]` with IN[0] = -32768, `RD FEAT[0]` with 65535, `RD WORK[1]` with 258694041600 (V1a). -/
theorem test_memRead_extends :
    (let s := { State.reset with
        bufs := { Bufs.reset with inp := mem 16 [-32768], feat := mem 16 [65535], work := mem 64 [0, 258694041600] } }
     memRead s .inp 0 = 0xFFFFFFFFFFFF8000 ∧ memRead s .feat 0 = 0xFFFF ∧ memRead s .work 1 = 0x3C3B5DD000) := by
  decide

theorem test_clr_powers_on :
    seen (fun t => (t.regs, t.cfg)) (execClr broken) = some (Regs.reset, Cfg.reset) := by
  decide

/-! ### Micro-operations, one step each -/

/-- A `PROC` in progress over a window of four. -/
def filling (used : BitVec 16) (inp xs : List Int) : State :=
  { withCfg { Cfg.reset with size := 4, step := 2 } with
    regs := { Regs.reset with phase := .awaitingFrame, inputUsed := used }
    bufs := { Bufs.reset with inp := mem 16 inp }
    port := { Port.reset with samples := xs.map (BitVec.ofInt 16), active := some xs.length } }

/-- V5, rows 2 and 5. -/
theorem test_wFill :
    seen (fun t => (signedElems 4 t.bufs.inp, t.regs.inputUsed.toNat, t.regs.consumed.toNat, t.regs.seq, t.regs.phase))
        (execWFill (filling 3 [1000, -1000, 32767, 0] [-32768, 5, 6]))
      = some ([1000, -1000, 32767, -32768], 4, 1, 1, .frameReady)
      ∧ seen (fun t => (signedElems 4 t.bufs.inp, t.regs.inputUsed.toNat, t.regs.consumed.toNat, t.regs.seq))
        (execWFill (filling 2 [3, 4, 3, 4] [9]))
      = some ([3, 4, 9, 4], 3, 1, 11) := by
  decide

/-- A full window of four with a coefficient table. -/
def windowed (coef inp : List Int) : State :=
  { filling 4 inp [] with tables := { Tables.reset with coef := mem 16 coef } }

/-- V6, rows 1 and 2. -/
theorem test_wApply :
    seen (fun t => (signedElems 4 t.bufs.out, t.regs.peak.toNat))
        (execWApply (windowed [600, 3496, 3496, 600] [1000, -1000, 32767, -32768]))
      = some ([146, -854, 27967, -4800], 27967)
      ∧ seen (fun t => (signedElems 4 t.bufs.out, t.regs.peak.toNat))
        (execWApply (windowed [4096, 4096, 4096, 4096] [-32768, 32767, 0, 5]))
      = some ([-32768, 32767, 0, 5], 32768) := by
  decide

/-- V7: STEP = 2, and the tail kept. -/
theorem test_wSlide :
    seen (fun t => (signedElems 4 t.bufs.inp, t.regs.inputUsed.toNat)) (execWSlide (filling 4 [1, 2, 3, 4] []))
      = some ([3, 4, 3, 4], 2) := by
  decide

/-- V10, both values of the parameter. -/
theorem test_scale_shift :
    [0, 1, 3, 255, 1000, 16384, 32767, 32768].map (scaleShiftFor 14) = [15, 14, 13, 7, 5, 0, 0, 0]
      ∧ [0, 1, 3, 255, 1000, 16384, 32767, 32768].map (scaleShiftFor 15) = [15, 15, 14, 8, 6, 1, 1, 0] := by
  decide

/-- A silent frame and a peak past both values of the parameter, whichever it has. -/
theorem test_shCalc :
    seen (fun t => (t.regs.scaleShift.toNat, t.regs.seq)) (execShCalc State.reset) = some (15, 4)
      ∧ ∀ p : BitVec 16, seen (fun t => t.regs.scaleShift.toNat)
          (execShCalc { State.reset with regs := { Regs.reset with peak := p } })
        = some (BitVec.ofNat 5 (scaleShiftFor shiftBase p.toNat)).toNat :=
  ⟨by decide, fun _ => rfl⟩

/-- V11, with the answer that vector supposes. -/
theorem test_xReq :
    (let bins := fun (_ : Nat) (_ : List Sample) (_ : Nat) (k : Nat) =>
        [((10 : BitVec 16), (0 : BitVec 16)), (BitVec.ofInt 16 (-20), 30), (BitVec.ofInt 16 (-32768), 32767)].getD k 0
     signedElems 7 (xReqWith bins (withCfg { Cfg.reset with size := 4, fftSize := 4, specSize := 3 })).bufs.spec
      = [10, 0, -20, 30, -32768, 32767, 0]) := by
  decide

/-- V20, the whole region and the inner one. -/
theorem test_fbEnergy :
    (let s := fun a b => { withCfg { Cfg.reset with specSize := 3, startIndex := a, endIndex := b } with
        bufs := { Bufs.reset with spec := mem 16 [10, 0, -20, 30, -32768, 32767] } }
     seen (fun t => elems 3 t.bufs.energy) (execFbEnergy (s 0 3)) = some [100, 1300, 2147418113]
      ∧ seen (fun t => elems 3 t.bufs.energy) (execFbEnergy (s 1 2)) = some [0, 1300, 0]) := by
  decide

/-- V21 (b) and (c): the carry from band to band, and the bin past the spectrum. -/
theorem test_fbAcc :
    (let s := fun (last : Int) => { withCfg { Cfg.reset with specSize := 4, nchan := 2 } with
        tables := { Tables.reset with
          fstart := mem 16 [0, 1, last], wstart := mem 16 [0, 2, 4], width := mem 16 [2, 2, 2]
          weight := mem 16 [4096, 1024, 3072, 0, 2048, 4096], unweight := mem 16 [0, 3072, 1024, 4096, 2048, 0] }
        bufs := { Bufs.reset with energy := mem 32 [100, 200, 300, 400] } }
     seen (fun t => elems 3 t.bufs.work) (execFbAcc (s 2)) = some [614400, 1228800, 3686400]
      ∧ seen (fun t => elems 3 t.bufs.work) (execFbAcc (s 3)) = some [614400, 1228800, 2252800]) := by
  decide

/-- V22. -/
theorem test_isqrt_rounded :
    [0, 2, 3, 6, 7, 110, 111, 2 ^ 32 - 1, 2 ^ 32, 4295098368, 61162536960, 2 ^ 63, 2 ^ 64 - 1].map isqrtRounded
      = [0, 1, 2, 2, 3, 10, 11, 65535, 65536, 65537, 247311, 3037000500, 4294967295] := by
  decide +kernel

/-- V23: the root first, then the shift; WORK[0] is not read. -/
theorem test_fbSqrt :
    (let s := fun sh => { withCfg { Cfg.reset with nchan := 2 } with
        regs := { Regs.reset with scaleShift := sh }
        bufs := { Bufs.reset with work := mem 64 [123, 61162536960, 258694041600] } }
     seen (fun t => elems 2 t.bufs.sig) (execFbSqrt (s 0)) = some [247311, 508620]
      ∧ seen (fun t => elems 2 t.bufs.sig) (execFbSqrt (s 5)) = some [7728, 15894]) := by
  decide +kernel

/-- Two channels with the fractions 409, 983, 819. -/
def estimating (sig est : List Int) : State :=
  { withCfg { Cfg.reset with nchan := 2, smoothBits := 10, evenSmooth := 409, oddSmooth := 983, minRemain := 819 } with
    bufs := { Bufs.reset with sig := mem 32 sig, est := mem 32 est } }

/-- T2, the document's vector, and the decay of V40 row 3. -/
theorem test_nrApply :
    seen (fun t => (elems 2 t.bufs.sig, elems 2 t.bufs.est)) (execNrApply (estimating [247311, 508620] [0, 0]))
      = some ([241137, 478104], [6321887, 31248341])
      ∧ seen (fun t => (elems 2 t.bufs.sig, elems 2 t.bufs.est))
        (execNrApply (estimating [0, 0] [6321887, 31248341])) = some ([0, 0], [6164071, 29373516]) := by
  decide

/-- V40, the row where the scaled signal wraps, in channel 0. -/
theorem test_nrApply_wraps :
    seen (fun t => (elems 1 t.bufs.sig, elems 1 t.bufs.est)) (execNrApply (estimating [4194309, 0] [0, 0]))
      = some ([209664], [127]) := by
  decide

/-- The entries of table G11 (R272) that T3 reads. -/
def gains : Tables :=
  { Tables.reset with
    glut := Memory.writeRange (Memory.writeRange [] 86 3 fun i => BitVec.ofInt 16 ([1446, -1120, 436].getD i 0))
      94 3 fun i => BitVec.ofInt 16 ([398, -313, 122].getD i 0) }

/-- T3, the document's vector, and the disabled pass-through. -/
theorem test_gcApply :
    (let s := fun on => { withCfg { Cfg.reset with nchan := 2, gcEnable := on, snrShift := 10 } with
        tables := gains
        bufs := { Bufs.reset with sig := mem 32 [241137, 478104], est := mem 32 [6321887, 31248341] } }
     seen (fun t => elems 2 t.bufs.sig) (execGcApply (s 1)) = some [3578, 1533]
      ∧ seen (fun t => elems 2 t.bufs.sig) (execGcApply (s 0)) = some [241137, 478104]) := by
  decide

/-- R275 and V51. -/
theorem test_gain_and_shrink :
    (wdf gains 6321887).toInt = 990 ∧ (wdf gains 31248341).toInt = 219
      ∧ [0, 1023, 1024, 4096, 8191, 8192, 65536, 2 ^ 32 - 1].map shrink = [0, 0, 1, 16, 63, 64, 960, 67108799] := by
  decide

/-- T4 and T5, the document's vectors, with either value of `LOG_INTERP_SHIFT` (R297). -/
theorem test_lsApply :
    (let s := fun on sig => { withCfg { Cfg.reset with
          nchan := 2, logEnable := on, logShift := 6, corrBits := BitVec.ofInt 8 (-1) } with
        bufs := { Bufs.reset with sig := mem 32 sig } }
     elems 2 (lsApplyWith 16 (s 1 [3578, 1533])).bufs.feat = [479, 425]
      ∧ elems 2 (lsApplyWith 9 (s 1 [3578, 1533])).bufs.feat = [479, 425]
      ∧ seen (fun t => elems 2 t.bufs.feat) (execLsApply (s 0 [85964, 45998])) = some [65535, 45998]) := by
  decide

/-- V61 and V63: the largest shift, and one input where the two interpolation shifts differ. -/
theorem test_log_scaled :
    [2, 65535, 65536, 2 ^ 32 - 1].map (logScaled 16 11) = [1420, 22716, 22713, 45429]
      ∧ logScaled 16 6 271 = 358 ∧ logScaled 9 6 271 = 359 := by
  decide

theorem test_seqEnd :
    seen (fun t => (t.regs.nfeat, t.regs.featureValid, t.regs.phase, t.port.active))
        (execSeqEnd { idle with
          regs := { idle.regs with phase := .frameReady, seq := 11 }, port := { Port.reset with active := some 1 } })
      = some (1, true, .awaitingFrame, none) := by
  decide

/-! ### The step -/

/-- P3 part B step 3: an illegal word before the phase check. -/
theorem test_step_illegal_word :
    seen (fun t => (t.regs.err, t.regs.phase)) (step (State.reset.withFetchWord 32 0x05000001))
      = some (.illegal, .unconfigured) := by
  decide

/-- A placed host word and a placed micro code run as the next instruction. -/
theorem test_step_runs_placed_words :
    seen (fun t => t.regs.err) (step (State.reset.withFetchWord 32 0x04000003)) = some .state
      ∧ seen (fun t => (t.regs.seq, t.regs.scaleShift)) (step (State.reset.withFetchWord 8 0x13)) = some (4, 15) := by
  decide

/-! ### Host-side constructions -/

/-- A fraction above 1 and a negative shift are refused (R244, R268). -/
theorem test_refused_constructions :
    fraction14 (2 / 1) = none ∧ fraction14 (-1 / 2) = none ∧ fraction14 1 = some 16384 ∧ snrShiftOf 10 3 = none := by
  decide +kernel

/-- The default surface gives what the spec prints: registers (R11), the tables but `COEF` (V30, G7), loaded by 1377
words with the printed `COEF` (V3). -/
theorem test_default_load :
    ((Surface.defaults 0).load defaultMel).map (fun l => { l with coef := defaultCoef }) = some (defaultLoad 0)
      ∧ (defaultLoad 0).commands.length = 1377 := by
  decide +kernel

/-- The window tables V4 prints for the sizes 1, 2, 4 and 8. -/
theorem test_window_tables :
    [1, 2, 4, 8].map coefTable = [[4096], [2048, 2048], [600, 3496, 3496, 600],
      [156, 1264, 2832, 3940, 3940, 2832, 1264, 156]] := by
  decide +kernel

/-- The built `COEF` of the default surface has 480 entries, and every 48th, with the two in the middle, is the one V3
prints. -/
theorem test_default_window :
    (Surface.defaults 0).coef.length = 480
      ∧ ∀ i ∈ [0, 48, 96, 144, 192, 239, 240, 288, 336, 384, 432, 479],
        (coefEntry 480 i : Int) = defaultCoef.getD i 0 := by
  decide +kernel

/-- R11: the registers after `CFGWR` and `COMMIT`, for any value of the field without a default. -/
theorem test_default_registers : (defaultLoad 7).cfg.withDerived = defaultCfg 7 := by decide

/-- The checks V3 and V30 print beside the tables. -/
theorem test_default_table_sums :
    defaultCoef.sum = 983040 ∧ defaultCoef.length = 480 ∧ defaultCoef = defaultCoef.reverse
      ∧ defaultWeight.sum = 473118 ∧ defaultUnweight.sum = 493538 ∧ defaultWidth.sum = 316 := by
  decide +kernel

/-- Table G11 (R272). -/
theorem test_gain_table_11 : gainTable (gainFunction 21 11 (95 / 100) 80) = gainTable11 := by decide +kernel

/-- R269 at a base of 0 or below: (−5)^−2, (−5)^−3 rounded toward zero, an integer strength 0, and 0 to a positive
power; and the cap at a positive one. -/
theorem test_gain_at_nonpositive_bases :
    gainFunction 15 0 2 (-5) 0 = 1311 ∧ gainFunction 15 0 3 (-5) 0 = -261 ∧ gainFunction 10 0 0 (-5) 0 = 1024
      ∧ gainFunction 10 0 0 0 0 = 1024 ∧ gainFunction 15 0 (-1 / 2) 0 0 = 0 ∧ gainFunction 15 0 (-1) 0 0 = 0
      ∧ gainFunction 20 0 2 (-5) 0 = 32767 ∧ gainFunction 20 0 2 5 0 = 32767 := by
  decide +kernel

/-- R223: four channels, the second band empty: it takes the zero block and the first moves up by the pad. -/
theorem test_filterbank_with_an_empty_band :
    (let c : FilterbankInputs := ⟨4, 100, 1500, 16000, 33⟩
     buildFilterbank c c.fuel (MelScale.exact c) = some {
       startIndex := 1, endIndex := 7, nweight := 20
       fstart := [0, 0, 2, 4, 4], wstart := [4, 0, 8, 12, 16], width := [4, 4, 4, 4, 4]
       weight := [0, 0, 0, 0, 0, 617, 0, 0, 4079, 248, 0, 0, 1124, 0, 0, 0, 0, 2442, 0, 0]
       unweight := [0, 0, 0, 0, 0, 3479, 0, 0, 17, 3848, 0, 0, 2972, 0, 0, 0, 0, 1654, 4096, 0] }) := by
  decide +kernel

/-- R220: the defaults with an upper limit of 8000 Hz, and limits out of order. -/
theorem test_filterbank_failures :
    (let c : FilterbankInputs := ⟨40, 125, 8000, 16000, 257⟩
     buildFilterbank c c.fuel (MelScale.exact c) = none)
      ∧ buildFilterbank ⟨40, 125, 125, 16000, 257⟩ 1 defaultMel = none
      ∧ buildFilterbank ⟨0, 125, 7500, 16000, 257⟩ 1 defaultMel = none := by
  decide +kernel

/-- R252, R268: `SNR_SHIFT` of the defaults, with a gain depth too small, and with that depth and gain control off. -/
theorem test_snr_shift :
    (let p := Surface.defaults 0
     p.snrShift = some 6 ∧ Surface.snrShift { p with gainBits := 10 } = none
      ∧ Surface.snrShift { p with gainBits := 10, gcEnable := false } = some 0) := by
  decide

/-- R272: interval 23 of table G11 from its gains at the two ends and the midpoint. -/
theorem test_interval_coefficients : intervalCoefs 1446 995 762 = (-1120, 436) := by
  decide

/-! ### Witnesses: states and operands that meet the hypotheses of the statements -/

theorem tables_reset_legal : Tables.reset.Legal := by
  refine ⟨?_, ?_, ?_, ?_, ?_, ?_⟩ <;> intro i <;> exact ⟨show _ ≤ (0#16).toInt by decide, show (0#16).toInt ≤ _ by decide⟩

/-- The tiny configuration passes checks 1 to 15 at every admissible choice of the capacities. -/
theorem witness_ConfigLegal : ConfigLegal tinyCfg Tables.reset := by
  have hf : 2 ≤ Config.caps.maxFft := by
    have : 2 ^ 1 ≤ 2 ^ (Config.maxFftLog.val + 1) := Nat.pow_le_pow_right (by decide) (by omega)
    simpa [Config.caps] using this
  have hs : 1 ≤ Config.caps.maxSize := by simp [Config.caps]
  have hc : 1 ≤ Config.caps.maxChan := by simp [Config.caps]
  have hp : isPowerOfTwo 2 = true := by decide
  have hb : bandsFit tinyCfg Tables.reset = true := by decide
  rw [ConfigLegal, firstFailure_none_iff]
  simp only [commitChecks, hb]
  simp [tinyCfg, Cfg.reset, hf, hs, hc, hp]

/-- The tiny block right after `COMMIT` has the invariant. -/
theorem witness_Inv : Inv idle where
  canonical := by decide
  inCapacity := ⟨rfl, rfl⟩
  tablesLegal := tables_reset_legal
  disciplined :=
    { idleSeq := fun _ => rfl
      idlePhase := by decide
      activePhase := by decide
      configLegal := fun _ => ⟨witness_ConfigLegal, by unfold DerivedLegal; decide⟩
      unbuilt := by decide
      waiting := fun _ => ⟨by decide, Or.inl rfl⟩
      inFrame := by decide
      view := by decide
      nfeat := Or.inl rfl
      peak := by decide
      scaleShift := by decide
      energy := fun _ => show (0#32).toNat ≤ 2 ^ 31 by decide }

theorem witness_DecodeOfEncode :
    (Instr.tblwr 255 65535).wellFormed = true ∧ (Instr.proc 0).wellFormed = true ∧ Instr.lsApply.wellFormed = true := by
  decide

theorem witness_EncodeOfDecode :
    decodeHost 0x06FFFFFF#32 = .ok (.rd 255 65535) ∧ decodeMicro 0x1B#8 = .ok .seqEnd := by
  decide

/-- The tiny block with one command presented. -/
def presented (c : HostCmd) : State :=
  { idle with port := { Port.reset with queue := [c] } }

theorem witness_IllegalWordsAreRefused :
    (presented ⟨0x08000000#32, 0, []⟩).port.active = none
      ∧ decodeHost 0x08000000#32 = .error (.reservedOp 8) := by
  decide

theorem witness_StepRunsTheDecodedInstruction :
    (let s := State.reset.withFetchWord 8 0x1B
     s.port.active = some 0 ∧ microRom[s.regs.seq.toNat]? = some 0x1B#8 ∧ decodeMicro 0x1B#8 = .ok .seqEnd)
      ∧ (presented ⟨0x05000000#32, 0, []⟩).port.active = none ∧ decodeHost 0x05000000#32 = .ok .rst
      ∧ State.reset.port.active = none ∧ State.reset.port.queue = [] := by
  decide

theorem witness_NopSetsErrOnly : field 0x0000FFFF#32 31 24 = 0 ∧ field 0x0000FFFF#32 15 0 ≠ 0 := by decide

/-- Index 15 at its largest value, index 12 one above it, index 16, and a frozen block. -/
theorem witness_CfgwrWritesOneRegister :
    (withData 255).regs.phase = .unconfigured ∧ (withData 255).port.wdata.toInt = 255
      ∧ (withData 2).port.wdata.toInt = 2 ∧ (withData (-1)).port.wdata.toInt = -1
      ∧ idle.regs.phase ≠ .unconfigured := by
  decide

/-- GLUT[124] at its least value, and COEF[0] at its largest. -/
theorem witness_TblwrWritesOneElement :
    (withData (-32768)).regs.phase = .unconfigured ∧ Space.ofId 0x0F = some .glut
      ∧ 124 < Space.glut.capacity Config.caps ∧ -32768 ≤ (withData (-32768)).port.wdata.toInt
      ∧ Space.ofId 0x02 = some .coef ∧ 0 < Space.coef.capacity Config.caps
      ∧ (withData 4096).port.wdata.toInt = 4096 := by
  refine ⟨by decide, by decide, by decide, by decide, by decide, ?_, by decide⟩
  simp [Space.capacity, Config.caps]

theorem witness_TblwrRefusals :
    idle.regs.phase ≠ .unconfigured ∧ State.reset.regs.phase = .unconfigured ∧ Space.ofId 0x12 = none
      ∧ Space.glut.capacity Config.caps ≤ 125 ∧ (withData 4097).port.wdata.toInt = 4097
      ∧ (withData 32768).port.wdata.toInt = 32768 ∧ (withData (-32769)).port.wdata.toInt = -32769 := by
  decide

theorem witness_CommitReportsTheFirstFailingCheck :
    State.reset.regs.phase = .unconfigured ∧ loaded.regs.phase = .unconfigured := by decide

theorem witness_CommitConstructs : loaded.regs.phase = .unconfigured ∧ ConfigLegal loaded.cfg loaded.tables :=
  ⟨rfl, witness_ConfigLegal⟩

/-- For ProcStartsTheMicroProgram, RstClearsHistory and PhaseRefusals. -/
theorem witness_phases :
    idle.regs.phase = .awaitingFrame ∧ State.reset.regs.phase ≠ .awaitingFrame ∧ broken.regs.phase = .failed
      ∧ idle.regs.phase ≠ .unconfigured := by
  decide

/-- At the last index and at the capacity: CFG, REG, GLUT and LLUT, whose capacities are numbers, and FEAT. -/
theorem witness_RdAnswersTheElement :
    Space.ofId 0x00 = some .cfg ∧ 17 < Space.cfg.capacity Config.caps ∧ Space.cfg.capacity Config.caps ≤ 18
      ∧ Space.ofId 0x01 = some .reg ∧ 8 < Space.reg.capacity Config.caps ∧ Space.reg.capacity Config.caps ≤ 9
      ∧ Space.ofId 0x0F = some .glut ∧ 124 < Space.glut.capacity Config.caps ∧ Space.glut.capacity Config.caps ≤ 125
      ∧ Space.ofId 0x10 = some .llut ∧ 128 < Space.llut.capacity Config.caps ∧ Space.llut.capacity Config.caps ≤ 129
      ∧ Space.ofId 0x11 = some .feat ∧ Config.caps.maxChan - 1 < Space.feat.capacity Config.caps
      ∧ Space.feat.capacity Config.caps ≤ Config.caps.maxChan ∧ 0x11 < 0x12 := by
  refine ⟨rfl, by decide, by decide, rfl, by decide, by decide, rfl, by decide, by decide, rfl, by decide, by decide,
    rfl, Nat.sub_lt (Nat.succ_pos _) Nat.one_pos, le_refl _, by decide⟩

/-- A chunk that fills the window exactly, and an empty one. -/
theorem witness_WFillAppendsSamples :
    (let s := filling 3 [1, 2, 3, 0] [9]
     s.regs.inputUsed.toNat ≤ s.cfg.size.toNat ∧ s.port.samples[0]? = some 9 ∧ s.port.active = some 1)
      ∧ (filling 4 [1, 2, 3, 4] []).regs.inputUsed.toNat ≤ (filling 4 [1, 2, 3, 4] []).cfg.size.toNat := by
  decide

theorem witness_WApplyWindowsTheFrame :
    (let s := windowed [0, 1, 4095, 4096] [32767, -32768, 32767, -32768]
     s.cfg.size.toNat = 4 ∧
     ∀ i, i < 4 → 0 ≤ (Memory.read s.tables.coef i).toInt ∧ (Memory.read s.tables.coef i).toInt ≤ 4096) := by
  decide

theorem witness_OutOfRangeWritesStop :
    (let s := windowed [8192, 8192, 0, 0] [-16385, 16384, 0, 0]
     (Memory.read s.bufs.inp 0).toInt * (Memory.read s.tables.coef 0).toInt < -32768 * 4096
      ∧ 32768 * 4096 = (Memory.read s.bufs.inp 1).toInt * (Memory.read s.tables.coef 1).toInt)
      ∧ (filling 5 [] []).cfg.size.toNat < (filling 5 [] []).regs.inputUsed.toNat
      ∧ (filling 1 [] []).regs.inputUsed.toNat < (filling 1 [] []).cfg.step.toNat
      ∧ (let s := { withCfg { Cfg.reset with specSize := 1 } with
           tables := { Tables.reset with width := mem 16 [1], weight := mem 16 [-1] }
           bufs := { Bufs.reset with energy := mem 32 [1] } }
         (bandAcc s 0).1 < 0)
      ∧ 16384 < (withCfg { Cfg.reset with minRemain := 16385 }).cfg.minRemain.toNat
      ∧ (let s := fun q => { State.reset with
           regs := { Regs.reset with seq := q }
           port := { Port.reset with active := some 3 } }
         (s 12).port.active = some 3 ∧ 12 ≤ (s 12).regs.seq.toNat ∧ 12 ≤ (s 15).regs.seq.toNat) := by
  decide

theorem witness_WSlideDropsTheOldest :
    (let s := filling 2 [1, 2, 3, 4] []
     s.cfg.step.toNat ≤ s.cfg.size.toNat ∧ s.cfg.step.toNat ≤ s.regs.inputUsed.toNat) := by
  decide

theorem witness_ShCalcScalesByThePeak :
    (let s := fun p => { State.reset with regs := { Regs.reset with peak := p } }
     (s 0).regs.peak = 0 ∧ 2 ^ 0 ≤ (s 1).regs.peak.toNat ∧ (s 1).regs.peak.toNat < 2 ^ 1
      ∧ 2 ^ 15 ≤ (s 32768).regs.peak.toNat ∧ (s 32768).regs.peak.toNat < 2 ^ 16) := by
  decide

/-- For FbAccSumsTheBands and FbAccStaysBelowTwoPow59. -/
theorem witness_FbAcc :
    State.reset.tables.Legal ∧ ∀ k, (Memory.read State.reset.bufs.energy k).toNat ≤ 2 ^ 31 :=
  ⟨tables_reset_legal, fun _ => show (0#32).toNat ≤ 2 ^ 31 by decide⟩

theorem witness_IsqrtRoundsToNearest :
    (2 ^ 64 - 1 < 2 ^ 64 ∧ (2 ^ 32 - 1) * (2 ^ 32 - 1) ≤ 2 ^ 64 - 1 ∧ 2 ^ 64 - 1 < (2 ^ 32 - 1 + 1) * (2 ^ 32 - 1 + 1))
      ∧ (0 < 2 ^ 64 ∧ 0 * 0 ≤ 0 ∧ 0 < (0 + 1) * (0 + 1)) := by
  decide

/-- For NrApplyBlendsAndSubtracts and NrApplyOutputBounds: the fractions at 1.0, a zero signal and one that does not
wrap. -/
theorem witness_NrApply :
    (let s := { estimating [0, 4194303] [7, 7] with cfg := { (estimating [0, 4194303] [7, 7]).cfg with
        evenSmooth := 16384, oddSmooth := 16384, minRemain := 16384 } }
     1 < s.cfg.nchan.toNat ∧ s.cfg.evenSmooth.toNat ≤ 16384 ∧ s.cfg.oddSmooth.toNat ≤ 16384
      ∧ s.cfg.minRemain.toNat ≤ 16384 ∧ (Memory.read s.bufs.sig 0).toNat = 0
      ∧ (Memory.read s.bufs.sig 1).toNat * 2 ^ s.cfg.smoothBits.toNat < 2 ^ 32) := by
  decide

/-- For GcApplyDisabledPassesThrough and GcApplyCompresses. -/
theorem witness_GcApply :
    (withCfg { Cfg.reset with gcEnable := 0 }).cfg.gcEnable = 0
      ∧ (withCfg { Cfg.reset with gcEnable := 1 }).cfg.gcEnable = 1 := by
  decide

theorem witness_LsApplyScalesAndSaturates :
    (let s := fun on v => { withCfg { Cfg.reset with nchan := 1, logEnable := on } with
        bufs := { Bufs.reset with sig := mem 32 [v] } }
     (s 0 2).cfg.logEnable = 0 ∧ (s 1 1).cfg.logEnable = 1 ∧ (Memory.read (s 1 1).bufs.sig 0).toNat * 2 ^ 0 ≤ 1
      ∧ 2 ≤ (Memory.read (s 1 2).bufs.sig 0).toNat * 2 ^ 0) := by
  decide

theorem witness_SeqEndReturns :
    ({ idle with regs := { idle.regs with phase := .frameReady, seq := 11 } } : State).regs.phase = .frameReady
      ∧ idle.regs.phase ≠ .frameReady := by
  decide

theorem witness_MicroProgramControlFlow :
    fetchMicro (BitVec.ofNat 4 0) = some .wFill ∧ seen (fun t => t.regs.seq) (exec .wFill (filling 3 [] [9])) = some 1
      ∧ seen (fun t => t.regs.seq) (exec .wFill (filling 2 [] [9])) = some 11
      ∧ fetchMicro (BitVec.ofNat 4 10) = some .lsApply ∧ seen (fun t => t.regs.seq) (exec .lsApply idle) = some 11
      ∧ fetchMicro (BitVec.ofNat 4 11) = some .seqEnd ∧ seen (fun t => t.regs.seq) (exec .seqEnd idle) = some 0 := by
  decide

theorem witness_MicroOpsKeepTheConfiguration :
    encode .shCalc = .micro 0x13#8 ∧ seen (fun t => t.regs.seq) (exec .shCalc idle) = some 4 := by
  decide

/-- For ProcAsTheHostSeesIt, FeedYieldsTheFrames and FeedIsChunkingInvariant: `PROC` with no sample and with the one that
fills the window. -/
theorem witness_ProcAsTheHostSeesIt :
    Inv idle ∧ idle.port.active = none ∧ idle.regs.phase = .awaitingFrame ∧ idle.regs.inputUsed = 0
      ∧ idle.regs.inputUsed.toNat + ([] : List Sample).length < idle.cfg.size.toNat
      ∧ idle.cfg.size.toNat ≤ idle.regs.inputUsed.toNat + [(7 : Sample)].length :=
  ⟨witness_Inv, by decide⟩

/-- No sample, the one that fills the window, and more than fit. -/
theorem witness_RstIsAsGoodAsCommit :
    Inv idle ∧ idle.port.active = none ∧ idle.regs.phase = .awaitingFrame
      ∧ ∀ xs ∈ ([[], [7], [8, 9]] : List (List Sample)), xs.length < 65536 :=
  ⟨witness_Inv, rfl, rfl, by decide⟩

/-- For StepKeepsTheInvariant, StepKeepsTheCanonicalForm, StepNeverStops, EveryCommandReturns, ConfigurationIsFrozen,
PhaseTransitions (an idle block, and one with a command) and FailedUntilClr (a failed one). -/
theorem witness_steps :
    step idle = .next idle ∧ Inv idle ∧ idle.canonical = true ∧ idle.regs.phase.configured = true
      ∧ step (presented ⟨0#32, 0, []⟩) = .next (presented ⟨0#32, 0, []⟩ |> takeCommand ⟨0#32, 0, []⟩ [] |> finish 0)
      ∧ step broken = .next broken ∧ broken.regs.phase = .failed ∧ broken.port.active = none :=
  ⟨rfl, witness_Inv, by decide, by decide, rfl, rfl, by decide, by decide⟩

/-- For ScaleShiftUsesTheRange, ShrinkIsMonotone, WdfStaysInThirtyTwoBits, LogScaledStaysBelowTheClamp and
MinimalFftIsMinimal: the ends of their ranges. -/
theorem witness_ranges :
    (1 ≤ 1 ∧ 1 ≤ 32767) ∧ (1 ≤ 32767 ∧ 32767 ≤ 32767) ∧ 8191 ≤ 8192 ∧ 2 ^ 32 - 1 < 2 ^ 32
      ∧ (2 < 3 ∧ 3 < 2 ^ 32 ∧ 2 ^ (2 - 1) ≤ 3 ∧ 3 < 2 ^ 2) ∧ (2 ^ (32 - 1) ≤ 2 ^ 32 - 1 ∧ 2 ^ 32 - 1 < 2 ^ 32)
      ∧ (2 ≤ 2 ∧ 2 < 2 ^ 32 ∧ 2 ^ 1 ≤ 2 ∧ 2 < 2 ^ (1 + 1) ∧ 11 ≤ 11 ∧ 16 = 16)
      ∧ (2 ≤ 2 ^ 32 - 1 ∧ 2 ^ 31 ≤ 2 ^ 32 - 1 ∧ 2 ^ 32 - 1 < 2 ^ (31 + 1) ∧ 0 ≤ 11 ∧ 9 = 9) := by
  decide

/-- For WindowProductFits: a coefficient at each end of its range. -/
theorem witness_WindowProductFits :
    (let s := windowed [0, 4096] [-32768, -32768]
     (Memory.read s.tables.coef 0).toInt = 0 ∧ (Memory.read s.tables.coef 1).toInt = 4096) := by
  decide

theorem witness_ConstructedLayoutIsAligned :
    (layoutBands (fun _ k => decide (k < 4)) 8 1 2).bands[0]?.isSome = true
      ∧ (layoutBands (fun _ k => decide (k < 4)) 8 1 2).bands[1]?.isSome = true := by
  decide

end Sys2Proof.Tests
end

section
/-! Where the model stops: when each micro-operation that can stop does so, as a condition on the state, and the step
that finds no micro-operation at `SEQ` (00_scope.md R15, 30_encoding.md R107, 41_window.md R139). -/

namespace Sys2Proof.Machine

/-! ### W.APPLY -/

/-- The 12-bit shift of R133 read backwards: the bounds of s16 on the shifted value are bounds on the product itself. -/
theorem fitsSigned_windowValue_iff (s : State) (i : Nat) :
    fitsSigned 16 (windowValue s i) = true ↔
      -32768 * 4096 ≤ (Memory.read s.bufs.inp i).toInt * (Memory.read s.tables.coef i).toInt ∧
        (Memory.read s.bufs.inp i).toInt * (Memory.read s.tables.coef i).toInt < 32768 * 4096 := by
  rw [fitsSigned_iff, windowValue, Int.le_ediv_iff_mul_le (by decide), Int.ediv_lt_iff_lt_mul (by decide)]
  rfl

theorem execWApply_refused_iff (s : State) :
    execWApply s = .refused .windowRange ↔
      ∃ i, i < s.cfg.size.toNat ∧ ¬ fitsSigned 16 (windowValue s i) = true := by
  rw [execWApply, ite_eq_right_iff]
  simp

/-! ### W.FILL, W.SLIDE -/

theorem execWFill_fault_iff (s : State) :
    execWFill s = .fault .valueOutside ↔ s.cfg.size.toNat < s.regs.inputUsed.toNat := by
  rw [execWFill, ite_eq_left_iff]
  simp

theorem execWSlide_fault_iff (s : State) :
    execWSlide s = .fault .valueOutside ↔
      s.cfg.size.toNat < s.cfg.step.toNat ∨ s.regs.inputUsed.toNat < s.cfg.step.toNat := by
  rw [execWSlide, ite_eq_left_iff]
  simp [or_iff_not_imp_left]

/-! ### FB.ACC -/

theorem execFbAcc_fault_iff (s : State) :
    execFbAcc s = .fault .valueOutside ↔
      ∃ b, b ≤ s.cfg.nchan.toNat ∧ ¬ fitsUnsigned 64 (bandAcc s b).1 = true := by
  rw [execFbAcc, ite_eq_right_iff]
  simp

/-! ### NR.APPLY -/

/-- 1.0 is 16384 = 2^14 (R236). -/
theorem fractionsLegal_iff (g : Cfg) :
    fractionsLegal g = true ↔
      g.evenSmooth.toNat ≤ 16384 ∧ g.oddSmooth.toNat ≤ 16384 ∧ g.minRemain.toNat ≤ 16384 := by
  simp only [fractionsLegal, Bool.and_eq_true, decide_eq_true_eq, and_assoc]
  rfl

theorem execNrApply_fault_iff (s : State) :
    execNrApply s = .fault .valueOutside ↔ ¬ fractionsLegal s.cfg = true := by
  rw [execNrApply, ite_eq_right_iff]
  simp

/-! ### The fetch -/

/-- The ROM holds its twelve micro-operations at 0 to 11 and nothing past them. -/
theorem fetchMicro_eq_none {seq : BitVec 4} (h : 12 ≤ seq.toNat) : fetchMicro seq = none := by
  have hrom : microRom[seq.toNat]? = none := List.getElem?_eq_none h
  simp [fetchMicro, hrom]

theorem step_noMicroOp (s : State) (n : Nat) (ha : s.port.active = some n) (hf : fetchMicro s.regs.seq = none) :
    step s = .refused (.noMicroOp s.regs.seq.toNat) := by
  simp [step, ha, hf]

/-! ### The obligation -/

/-- Settles O24: each part is the condition under which its operation stops, met by the value the part names. -/
theorem outOfRangeWritesStop : Obligations.OutOfRangeWritesStop := by
  intro s
  refine ⟨fun i hi => ?wApply, (execWFill_fault_iff s).2, (execWSlide_fault_iff s).2,
    fun b hb hsum => ?fbAcc, fun hfrac => ?nrApply, fun n ha hseq => ?fetch⟩
  case wApply =>
    intro prod hprod
    refine (execWApply_refused_iff s).2 ⟨i, hi, fun hfits => ?_⟩
    obtain ⟨hlo, hhi⟩ := (fitsSigned_windowValue_iff s i).1 hfits
    exact hprod.elim (not_lt.2 hlo) (not_le.2 hhi)
  case fbAcc =>
    refine (execFbAcc_fault_iff s).2 ⟨b, hb, fun hfits => ?_⟩
    obtain ⟨hlo, hhi⟩ := (fitsUnsigned_iff 64 _).1 hfits
    exact hsum.elim (not_lt.2 hlo) (not_le.2 hhi)
  case nrApply =>
    refine (execNrApply_fault_iff s).2 fun hlegal => ?_
    obtain ⟨heven, hodd, hmin⟩ := (fractionsLegal_iff s.cfg).1 hlegal
    omega
  case fetch => exact step_noMicroOp s n ha (fetchMicro_eq_none hseq)

end Sys2Proof.Machine
end

section
/-! The registers of 10_state.md: the bits of `STATUS` (R23), and what a micro-operation that answers has done to `SEQ`
(R22, R318) and left of the configuration (R20, R71). -/

namespace Sys2Proof.Machine

/-! ### STATUS -/

theorem Phase.configured_iff (p : Phase) : p.configured = true ↔ p = .awaitingFrame ∨ p = .frameReady := by
  cases p <;> decide

theorem Regs.status_bit0 (r : Regs) : r.status.getLsbD 0 = r.phase.configured := by
  simp only [Regs.status, BitVec.getLsbD_append]
  simp

theorem Regs.status_bit1 (r : Regs) : r.status.getLsbD 1 = decide (r.phase = .failed) := by
  simp only [Regs.status, BitVec.getLsbD_append]
  simp

theorem Regs.status_bit2 (r : Regs) : r.status.getLsbD 2 = r.featureValid := by
  simp only [Regs.status, BitVec.getLsbD_append]
  simp

/-- Settles O20, from what each bit of `STATUS` is computed from. -/
theorem statusBits : Obligations.StatusBits := by
  intro r
  rw [r.status_bit0, r.status_bit1, r.status_bit2]
  exact ⟨r.phase.configured_iff, decide_eq_true_iff, Iff.rfl⟩

/-! ### What a micro-operation that answers has done

The operations with a condition or a branch; the other arms of `exec` are a single next state. -/

/-- Everything `W.FILL` can answer: the buffer is full and a frame begins, or samples are still missing. -/
theorem execWFill_next {s t : State} (h : execWFill s = .next t) :
    s.regs.inputUsed.toNat ≤ s.cfg.size.toNat ∧
    ((s.cfg.size.toNat ≤ s.regs.inputUsed.toNat + fillCount s ∧
        t = { s with
          regs := { s.regs with
            consumed := BitVec.ofNat 16 (fillCount s)
            inputUsed := BitVec.ofNat 16 (s.regs.inputUsed.toNat + fillCount s)
            seq := 1
            phase := .frameReady }
          bufs := { s.bufs with
            inp := Memory.writeRange s.bufs.inp s.regs.inputUsed.toNat (fillCount s) (sampleAt s) }
          freeCtr := s.freeCtr + (fillCount s - s.port.samples.length) }) ∨
      (s.regs.inputUsed.toNat + fillCount s < s.cfg.size.toNat ∧
        t = { s with
          regs := { s.regs with
            consumed := BitVec.ofNat 16 (fillCount s)
            inputUsed := BitVec.ofNat 16 (s.regs.inputUsed.toNat + fillCount s)
            seq := 11 }
          bufs := { s.bufs with
            inp := Memory.writeRange s.bufs.inp s.regs.inputUsed.toNat (fillCount s) (sampleAt s) }
          freeCtr := s.freeCtr + (fillCount s - s.port.samples.length) })) := by
  unfold execWFill at h
  split at h
  · cases h
  · next hused =>
    refine ⟨not_lt.1 hused, ?_⟩
    by_cases hready : s.cfg.size.toNat ≤ s.regs.inputUsed.toNat + fillCount s
    · exact .inl ⟨hready, by simpa [hready] using h.symm⟩
    · exact .inr ⟨not_le.1 hready, by simpa [hready] using h.symm⟩

theorem execWApply_next {s t : State} (h : execWApply s = .next t) :
    (∀ i, i < s.cfg.size.toNat → fitsSigned 16 (windowValue s i) = true) ∧
    t = { s with
      regs := { s.regs with peak := BitVec.ofNat 16 (peakOf s s.cfg.size.toNat), seq := 2 }
      bufs := { s.bufs with
        out := Memory.writeRange s.bufs.out 0 s.cfg.size.toNat (fun i => BitVec.ofInt 16 (windowValue s i)) } } := by
  unfold execWApply at h
  split at h
  · next hfits => exact ⟨by simpa using hfits, (Host.Outcome.next.inj h).symm⟩
  · cases h

theorem execWSlide_next {s t : State} (h : execWSlide s = .next t) :
    s.cfg.step.toNat ≤ s.cfg.size.toNat ∧ s.cfg.step.toNat ≤ s.regs.inputUsed.toNat ∧
    t = { s with
      regs := { s.regs with inputUsed := BitVec.ofNat 16 (s.regs.inputUsed.toNat - s.cfg.step.toNat), seq := 3 }
      bufs := { s.bufs with
        inp := Memory.writeRange s.bufs.inp 0 (s.cfg.size.toNat - s.cfg.step.toNat)
          (fun i => Memory.read s.bufs.inp (i + s.cfg.step.toNat)) } } := by
  unfold execWSlide at h
  split at h
  · cases h
  · next hstep => exact ⟨by omega, by omega, (Host.Outcome.next.inj h).symm⟩

theorem execFbAcc_next {s t : State} (h : execFbAcc s = .next t) :
    (∀ b, b ≤ s.cfg.nchan.toNat → fitsUnsigned 64 (bandAcc s b).1 = true) ∧
    t = { s with
      regs := { s.regs with seq := 7 }
      bufs := { s.bufs with
        work := Memory.writeRange s.bufs.work 0 (s.cfg.nchan.toNat + 1)
          (fun b => BitVec.ofInt 64 (bandAcc s b).1) } } := by
  unfold execFbAcc at h
  split at h
  · next hfits => exact ⟨by simpa using hfits, (Host.Outcome.next.inj h).symm⟩
  · cases h

theorem execNrApply_next {s t : State} (h : execNrApply s = .next t) :
    fractionsLegal s.cfg = true ∧
    t = { s with
      regs := { s.regs with seq := 9 }
      bufs := { s.bufs with
        sig := Memory.writeRange s.bufs.sig 0 s.cfg.nchan.toNat
          (fun i => BitVec.ofNat 32 (max (subtracted s i) (noiseFloor s i)))
        est := Memory.writeRange s.bufs.est 0 s.cfg.nchan.toNat (fun i => BitVec.ofNat 32 (blended s i)) } } := by
  unfold execNrApply at h
  split at h
  · next hlegal => exact ⟨hlegal, (Host.Outcome.next.inj h).symm⟩
  · cases h

/-- Everything `GC.APPLY` can answer: the compressed signal, or with `GC_ENABLE` = 0 the signal as it was (R252). -/
theorem execGcApply_next {s t : State} (h : execGcApply s = .next t) :
    t = goSeq 10 { s with
      bufs := { s.bufs with
        sig := Memory.writeRange s.bufs.sig 0 s.cfg.nchan.toNat
          (fun i => BitVec.ofNat 32 (shrink (signalToNoise s i))) } } ∨
    t = goSeq 10 s := by
  unfold execGcApply at h
  split at h
  · exact .inl (Host.Outcome.next.inj h).symm
  · exact .inr (Host.Outcome.next.inj h).symm

/-- Everything `SEQ.END` can answer: the features of a finished frame published, or the not-ready exit (R319). -/
theorem execSeqEnd_next {s t : State} (h : execSeqEnd s = .next t) :
    (s.regs.phase = .frameReady ∧
      t = { s with
        regs := { s.regs with nfeat := s.cfg.nchan, featureValid := true, phase := .awaitingFrame, seq := 0 }
        port := { s.port with active := none } }) ∨
    (s.regs.phase ≠ .frameReady ∧
      t = { s with regs := { s.regs with seq := 0 }, port := { s.port with active := none } }) := by
  unfold execSeqEnd at h
  by_cases hp : s.regs.phase = .frameReady
  · exact .inl ⟨hp, by simpa [hp] using h.symm⟩
  · exact .inr ⟨hp, by simpa [hp] using h.symm⟩

/-! ### Control flow -/

/-- The index read back from the micro-operation the ROM holds there: the two at which the flow branches or ends, then the
others in order. -/
theorem fetchMicro_cases {seq : BitVec 4} {i : Instr} (h : fetchMicro seq = some i) :
    (seq = 0 ∧ i = .wFill) ∨ (seq = 11 ∧ i = .seqEnd) ∨ (seq = 1 ∧ i = .wApply) ∨ (seq = 2 ∧ i = .wSlide) ∨
    (seq = 3 ∧ i = .shCalc) ∨ (seq = 4 ∧ i = .xReq) ∨ (seq = 5 ∧ i = .fbEnergy) ∨ (seq = 6 ∧ i = .fbAcc) ∨
    (seq = 7 ∧ i = .fbSqrt) ∨ (seq = 8 ∧ i = .nrApply) ∨ (seq = 9 ∧ i = .gcApply) ∨
    (seq = 10 ∧ i = .lsApply) := by
  have hlt : seq.toNat < 12 := by
    by_contra hge
    rw [fetchMicro_eq_none (not_lt.1 hge)] at h
    cases h
  obtain ⟨k, hk⟩ : ∃ k, k = seq.toNat := ⟨_, rfl⟩
  obtain rfl : seq = BitVec.ofNat 4 k := by rw [hk, BitVec.ofNat_toNat, BitVec.setWidth_eq]
  rw [← hk] at hlt
  interval_cases k <;> cases h <;> decide

/-- `W.FILL` goes to index 1 or 11, `SEQ.END` to 0, every other micro-operation to the next index (R318). -/
theorem exec_micro_seq {s t : State} {seq : BitVec 4} {i : Instr} (hf : fetchMicro seq = some i)
    (hx : exec i s = .next t) :
    (seq = 0 ∧ (t.regs.seq = 1 ∨ t.regs.seq = 11)) ∨ (seq = 11 ∧ t.regs.seq = 0) ∨
    (1 ≤ seq.toNat ∧ seq.toNat ≤ 10 ∧ t.regs.seq = seq + 1) := by
  rcases fetchMicro_cases hf with ⟨rfl, rfl⟩ | ⟨rfl, rfl⟩ | ⟨rfl, rfl⟩ | ⟨rfl, rfl⟩ | ⟨rfl, rfl⟩ | ⟨rfl, rfl⟩ |
    ⟨rfl, rfl⟩ | ⟨rfl, rfl⟩ | ⟨rfl, rfl⟩ | ⟨rfl, rfl⟩ | ⟨rfl, rfl⟩ | ⟨rfl, rfl⟩
  · obtain ⟨-, ⟨-, rfl⟩ | ⟨-, rfl⟩⟩ := execWFill_next hx
    · exact .inl ⟨rfl, .inl rfl⟩
    · exact .inl ⟨rfl, .inr rfl⟩
  · obtain ⟨-, rfl⟩ | ⟨-, rfl⟩ := execSeqEnd_next hx <;> exact .inr (.inl ⟨rfl, rfl⟩)
  all_goals refine .inr (.inr ⟨by decide, by decide, ?_⟩)
  · obtain ⟨-, rfl⟩ := execWApply_next hx; rfl
  · obtain ⟨-, -, rfl⟩ := execWSlide_next hx; rfl
  · cases hx; rfl
  · cases hx; rfl
  · cases hx; rfl
  · obtain ⟨-, rfl⟩ := execFbAcc_next hx; rfl
  · cases hx; rfl
  · obtain ⟨-, rfl⟩ := execNrApply_next hx; rfl
  · obtain rfl | rfl := execGcApply_next hx <;> rfl
  · cases hx; rfl

/-- Settles O45: the index k is the one `SEQ` held, so its successor is k + 1. -/
theorem microProgramControlFlow : Obligations.MicroProgramControlFlow := by
  intro s t k i hk hf hx
  have hval : (BitVec.ofNat 4 k).toNat = k := by
    rw [BitVec.toNat_ofNat]
    exact Nat.mod_eq_of_lt (by omega)
  rcases exec_micro_seq hf hx with ⟨h0, hseq⟩ | ⟨h11, hseq⟩ | ⟨h1, h10, hseq⟩
  · have hk0 : k = 0 := by rw [← hval, h0]; rfl
    exact ⟨fun _ => hseq, by omega, by omega⟩
  · have hk11 : k = 11 := by rw [← hval, h11]; rfl
    exact ⟨by omega, by omega, fun _ => hseq⟩
  · have hnext : t.regs.seq.toNat = k + 1 := by
      rw [hseq, BitVec.toNat_add, hval]
      exact Nat.mod_eq_of_lt (by change k + 1 < 2 ^ 4; omega)
    exact ⟨by omega, fun _ _ => hnext, by omega⟩

/-! ### What every micro-operation leaves -/

/-- Settles O46, by the micro-operations: each writes working registers and buffers only. -/
theorem microOpsKeepTheConfiguration : Obligations.MicroOpsKeepTheConfiguration := by
  intro s t i c hc hx
  cases i with
  | nop | cfgwr _ | tblwr _ _ | commit | proc _ | rst | rd _ _ | clr => cases hc
  | wFill => obtain ⟨-, ⟨-, rfl⟩ | ⟨-, rfl⟩⟩ := execWFill_next hx <;> exact ⟨rfl, rfl, rfl, rfl⟩
  | wApply => obtain ⟨-, rfl⟩ := execWApply_next hx; exact ⟨rfl, rfl, rfl, rfl⟩
  | wSlide => obtain ⟨-, -, rfl⟩ := execWSlide_next hx; exact ⟨rfl, rfl, rfl, rfl⟩
  | fbAcc => obtain ⟨-, rfl⟩ := execFbAcc_next hx; exact ⟨rfl, rfl, rfl, rfl⟩
  | nrApply => obtain ⟨-, rfl⟩ := execNrApply_next hx; exact ⟨rfl, rfl, rfl, rfl⟩
  | gcApply => obtain rfl | rfl := execGcApply_next hx <;> exact ⟨rfl, rfl, rfl, rfl⟩
  | seqEnd => obtain ⟨-, rfl⟩ | ⟨-, rfl⟩ := execSeqEnd_next hx <;> exact ⟨rfl, rfl, rfl, rfl⟩
  | shCalc | xReq | fbEnergy | fbSqrt | lsApply => cases hx; exact ⟨rfl, rfl, rfl, rfl⟩

end Sys2Proof.Machine
end

section
/-! The invariant is kept (10_state.md R50): the reachable states are of three kinds, an unbuilt block, a configured one
between frames and a frame in progress, each with a rule that rebuilds the invariant from what the kind demands. Each
command and each micro-operation then says which kind it leads to. -/

namespace Sys2Proof.Machine

/-! ### Spaces in canonical form and inside their capacity -/

structure Memory.Fits {w : Nat} (m : Memory w) (cap : Nat) : Prop where
  wf     : Memory.wf m = true
  within : Memory.within m cap = true

theorem Memory.fits_nil {w : Nat} (cap : Nat) : Memory.Fits ([] : Memory w) cap := ⟨rfl, rfl⟩

theorem Memory.Fits.write {w cap i : Nat} {m : Memory w} (h : Memory.Fits m cap) (v : BitVec w) (hi : i < cap) :
    Memory.Fits (Memory.write m i v) cap :=
  ⟨Memory.write_wf m i v h.wf, Memory.write_within m cap i v hi h.within⟩

theorem Memory.Fits.writeRange {w cap base n : Nat} {m : Memory w} (h : Memory.Fits m cap) (f : Nat → BitVec w)
    (hn : base + n ≤ cap) : Memory.Fits (Memory.writeRange m base n f) cap :=
  ⟨Memory.writeRange_wf m base n f h.wf, Memory.writeRange_within m cap base n f hn h.within⟩

theorem Memory.Fits.writeFirst {w cap n : Nat} {m : Memory w} (h : Memory.Fits m cap) (f : Nat → BitVec w)
    (hn : n ≤ cap) : Memory.Fits (Memory.writeRange m 0 n f) cap :=
  h.writeRange f ((Nat.zero_add n).trans_le hn)

/-- The tables' share of `canonical` and `inCapacity`, one field per space. -/
structure Tables.Fits (t : Tables) : Prop where
  coef     : Memory.Fits t.coef (Space.coef.capacity Config.caps)
  fstart   : Memory.Fits t.fstart (Space.fstart.capacity Config.caps)
  wstart   : Memory.Fits t.wstart (Space.wstart.capacity Config.caps)
  width    : Memory.Fits t.width (Space.width.capacity Config.caps)
  weight   : Memory.Fits t.weight (Space.weight.capacity Config.caps)
  unweight : Memory.Fits t.unweight (Space.unweight.capacity Config.caps)
  glut     : Memory.Fits t.glut (Space.glut.capacity Config.caps)

/-- The buffers' share of `canonical` and `inCapacity`, one field per space. -/
structure Bufs.Fits (b : Bufs) : Prop where
  inp    : Memory.Fits b.inp (Space.inp.capacity Config.caps)
  out    : Memory.Fits b.out (Space.out.capacity Config.caps)
  spec   : Memory.Fits b.spec (Space.spec.capacity Config.caps)
  energy : Memory.Fits b.energy (Space.energy.capacity Config.caps)
  work   : Memory.Fits b.work (Space.work.capacity Config.caps)
  sig    : Memory.Fits b.sig (Space.sig.capacity Config.caps)
  est    : Memory.Fits b.est (Space.est.capacity Config.caps)
  feat   : Memory.Fits b.feat (Space.feat.capacity Config.caps)

theorem Tables.fits_iff (t : Tables) : t.Fits ↔ t.wf = true ∧ t.inCapacity Config.caps = true := by
  simp only [Tables.wf, Tables.inCapacity, Bool.and_eq_true, and_assoc]
  constructor
  · rintro ⟨⟨_, _⟩, ⟨_, _⟩, ⟨_, _⟩, ⟨_, _⟩, ⟨_, _⟩, ⟨_, _⟩, ⟨_, _⟩⟩
    simp only [*, and_self]
  · rintro ⟨_, _, _, _, _, _, _, _, _, _, _, _, _, _⟩
    constructor <;> constructor <;> assumption

theorem Bufs.fits_iff (b : Bufs) : b.Fits ↔ b.wf = true ∧ b.inCapacity Config.caps = true := by
  simp only [Bufs.wf, Bufs.inCapacity, Bool.and_eq_true, and_assoc]
  constructor
  · rintro ⟨⟨_, _⟩, ⟨_, _⟩, ⟨_, _⟩, ⟨_, _⟩, ⟨_, _⟩, ⟨_, _⟩, ⟨_, _⟩, ⟨_, _⟩⟩
    simp only [*, and_self]
  · rintro ⟨_, _, _, _, _, _, _, _, _, _, _, _, _, _, _, _⟩
    constructor <;> constructor <;> assumption

theorem Tables.reset_fits : Tables.reset.Fits := by
  constructor <;> exact Memory.fits_nil _

theorem Bufs.reset_fits : Bufs.reset.Fits := by
  constructor <;> exact Memory.fits_nil _

theorem Memory.inRange_nil {lo hi : Int} (h : lo ≤ 0 ∧ 0 ≤ hi) : Memory.inRange [] lo hi := fun _ => h

theorem Tables.reset_legal : Tables.reset.Legal := by
  constructor <;> exact Memory.inRange_nil (by decide)

/-- A number in a range inside s16 is stored unchanged, so the element written is in that range. -/
theorem Memory.inRange_write {m : Memory 16} {lo hi v : Int} (h : Memory.inRange m lo hi) (i : Nat)
    (hs16 : -32768 ≤ lo ∧ hi ≤ 32767) (hlo : lo ≤ v) (hhi : v ≤ hi) :
    Memory.inRange (Memory.write m i (BitVec.ofInt 16 v)) lo hi := by
  have hv : (BitVec.ofInt 16 v).toInt = v :=
    toInt_ofInt_of_fits v ((fitsSigned_iff 16 v).2 (by norm_num; omega))
  intro j
  rw [Memory.read_write]
  split
  · rw [hv]; exact ⟨hlo, hhi⟩
  · exact h j

/-- `TBLWR` inside the space's capacity and range keeps both properties of the tables (R313). -/
theorem Tables.write_fits_legal {t : Tables} {sp : Space} {lo hi v : Int} {i : Nat} (hf : t.Fits) (hl : t.Legal)
    (hr : sp.tableRange = some (lo, hi)) (hi' : i < sp.capacity Config.caps) (hlo : lo ≤ v) (hhi : v ≤ hi) :
    (t.write sp i v).Fits ∧ (t.write sp i v).Legal := by
  cases sp with
  | cfg | reg | inp | out | spec | energy | work | sig | est | llut | feat => cases hr
  | coef =>
    cases hr
    exact ⟨{ hf with coef := hf.coef.write _ hi' },
      { hl with coef := Memory.inRange_write hl.coef i (by decide) hlo hhi }⟩
  | fstart =>
    cases hr
    exact ⟨{ hf with fstart := hf.fstart.write _ hi' },
      { hl with fstart := Memory.inRange_write hl.fstart i (by decide) hlo hhi }⟩
  | wstart =>
    cases hr
    exact ⟨{ hf with wstart := hf.wstart.write _ hi' },
      { hl with wstart := Memory.inRange_write hl.wstart i (by decide) hlo hhi }⟩
  | width =>
    cases hr
    exact ⟨{ hf with width := hf.width.write _ hi' },
      { hl with width := Memory.inRange_write hl.width i (by decide) hlo hhi }⟩
  | weight =>
    cases hr
    exact ⟨{ hf with weight := hf.weight.write _ hi' },
      { hl with weight := Memory.inRange_write hl.weight i (by decide) hlo hhi }⟩
  | unweight =>
    cases hr
    exact ⟨{ hf with unweight := hf.unweight.write _ hi' },
      { hl with unweight := Memory.inRange_write hl.unweight i (by decide) hlo hhi }⟩
  | glut => exact ⟨{ hf with glut := hf.glut.write _ hi' }, { hl with }⟩

/-! ### The configuration -/

/-- The checks of `COMMIT` that bound what the micro-operations write (R314, checks 2 to 4, 6 and 8). -/
structure Cfg.Bounds (g : Cfg) : Prop where
  fft_le       : g.fftSize.toNat ≤ Config.caps.maxFft
  size_pos     : 1 ≤ g.size.toNat
  size_le      : g.size.toNat ≤ Config.caps.maxSize
  step_pos     : 1 ≤ g.step.toNat
  step_le_size : g.step.toNat ≤ g.size.toNat
  nchan_le     : g.nchan.toNat ≤ Config.caps.maxChan

theorem ConfigLegal.bounds {g : Cfg} {t : Tables} (h : ConfigLegal g t) : g.Bounds := by
  rw [ConfigLegal, firstFailure_none_iff] at h
  simp only [commitChecks, List.forall_mem_cons, Bool.and_eq_true, decide_eq_true_eq] at h
  obtain ⟨-, hfft, hpos, hsize, -, ⟨hstep, hstep'⟩, -, hchan, -⟩ := h
  exact ⟨hfft, hpos, hsize, hstep, hstep', hchan⟩

/-- The checks read neither derived register, and `XfmInit` only matters for check 16. -/
theorem configLegal_withDerived {g : Cfg} {t : Tables} {init : Nat → Bool}
    (h : firstFailure (commitChecks Config.caps init g t) = none) : ConfigLegal g.withDerived t := by
  rw [firstFailure_none_iff] at h
  rw [ConfigLegal, firstFailure_none_iff]
  simp only [commitChecks, List.forall_mem_cons] at h ⊢
  obtain ⟨h1, h2, h3, h4, h5, h6, h7, h8, h9, h10, h11, h12, h13, h14, h15, -, hnil⟩ := h
  exact ⟨h1, h2, h3, h4, h5, h6, h7, h8, h9, h10, h11, h12, h13, h14, h15, trivial, hnil⟩

/-- The derived registers hold what they are computed from: neither computation leaves its register (R315, R316). -/
theorem Cfg.withDerived_derivedLegal (g : Cfg) : DerivedLegal g.withDerived := by
  have hfft : g.fftSize.toNat < 2 ^ 16 := g.fftSize.isLt
  have hmsb : msb1 g.fftSize.toNat ≤ 16 := by
    by_cases h0 : g.fftSize.toNat = 0
    · rw [h0, msb1_zero]; decide
    · have hpow := (msb1_bounds _ h0).1.trans_lt hfft
      have := (Nat.pow_lt_pow_iff_right (by decide)).1 hpow
      omega
  constructor
  · rw [Cfg.withDerived_specSize, BitVec.toNat_ofNat, Cfg.withDerived_fftSize]
    exact Nat.mod_eq_of_lt (by omega)
  · rw [Cfg.withDerived_corrBits, BitVec.toInt_ofInt, Cfg.withDerived_fftSize, corrBitsOf, fbHalfBits]
    simp only [Int.bmod]
    split <;> omega

/-! ### The parts of the invariant -/

theorem inv_iff (s : State) : Inv s ↔ s.tables.Fits ∧ s.bufs.Fits ∧ s.tables.Legal ∧ Disciplined s := by
  rw [Tables.fits_iff, Bufs.fits_iff]
  constructor
  · rintro ⟨hcanon, ⟨htcap, hbcap⟩, hlegal, hdisc⟩
    obtain ⟨ht, hb⟩ := (Bool.and_eq_true _ _).mp hcanon
    exact ⟨⟨ht, htcap⟩, ⟨hb, hbcap⟩, hlegal, hdisc⟩
  · rintro ⟨⟨ht, htcap⟩, ⟨hb, hbcap⟩, hlegal, hdisc⟩
    exact ⟨(Bool.and_eq_true _ _).mpr ⟨ht, hb⟩, ⟨htcap, hbcap⟩, hlegal, hdisc⟩

theorem Inv.tablesFit {s : State} (h : Inv s) : s.tables.Fits := ((inv_iff s).1 h).1

theorem Inv.bufsFit {s : State} (h : Inv s) : s.bufs.Fits := ((inv_iff s).1 h).2.1

/-- `ERR`, the counter of free values and the port but for its record of the running `PROC` are not spoken of. -/
theorem Inv.of_err_port {s : State} (h : Inv s) (e : ErrCode) (p : Port) (f : Nat)
    (hp : p.active = s.port.active) :
    Inv { s with regs := { s.regs with err := e }, port := p, freeCtr := f } where
  canonical := h.canonical
  inCapacity := h.inCapacity
  tablesLegal := h.tablesLegal
  disciplined :=
    { idleSeq := fun ha => h.disciplined.idleSeq (hp.symm.trans ha)
      idlePhase := fun ha => h.disciplined.idlePhase (hp.symm.trans ha)
      activePhase := fun ha => h.disciplined.activePhase (hp ▸ ha)
      configLegal := h.disciplined.configLegal
      unbuilt := h.disciplined.unbuilt
      waiting := h.disciplined.waiting
      inFrame := h.disciplined.inFrame
      view := fun hv => ⟨hp.trans (h.disciplined.view hv).1, (h.disciplined.view hv).2⟩
      nfeat := h.disciplined.nfeat
      peak := h.disciplined.peak
      scaleShift := h.disciplined.scaleShift
      energy := h.disciplined.energy }

theorem inv_finish {s : State} (h : Inv s) (a : DataWord) : Inv (finish a s) :=
  h.of_err_port .ok { s.port with rdata := a } s.freeCtr rfl

theorem inv_takeCommand {s : State} (h : Inv s) (c : HostCmd) (rest : List HostCmd) : Inv (takeCommand c rest s) :=
  h.of_err_port s.regs.err { s.port with queue := rest, wdata := c.wdata, samples := c.samples } s.freeCtr rfl

theorem inv_raise_refusal {s : State} (h : Inv s) (e : ErrCode) (he : e.isConstruction = false) :
    Inv (raise e s) := by
  rw [raise_refusal e s he]
  exact h.of_err_port e { s.port with rdata := 0 } s.freeCtr rfl

/-! ### An unbuilt block -/

/-- Before a construction and after a failed one: idle, every buffer and every register 0 but `PHASE`, `ERR` and what
the host wrote (R356, R380). -/
structure Unbuilt (s : State) : Prop where
  phase    : s.regs.phase.configured = false
  idle     : s.port.active = none
  bufs     : s.bufs = Bufs.reset
  corrBits : s.cfg.corrBits = 0
  specSize : s.cfg.specSize = 0
  regs     : { s.regs with phase := .unconfigured, err := .ok } = Regs.reset

theorem Inv.unbuilt {s : State} (h : Inv s) (hp : s.regs.phase.configured = false) : Unbuilt s := by
  obtain ⟨hbufs, hcorr, hspec, hregs⟩ := h.disciplined.unbuilt hp
  refine ⟨hp, ?_, hbufs, hcorr, hspec, hregs⟩
  by_contra ha
  exact Bool.false_ne_true (hp.symm.trans (h.disciplined.activePhase ha))

/-- The invariant asks nothing more of an unbuilt block than its tables. -/
theorem Unbuilt.inv {s : State} (h : Unbuilt s) (ht : s.tables.Fits) (hl : s.tables.Legal) : Inv s := by
  have hseq : s.regs.seq = 0 := congrArg Regs.seq h.regs
  have hview : s.regs.featureValid = false := congrArg Regs.featureValid h.regs
  have hnfeat : s.regs.nfeat = 0 := congrArg Regs.nfeat h.regs
  have hpeak : s.regs.peak = 0 := congrArg Regs.peak h.regs
  have hshift : s.regs.scaleShift = 0 := congrArg Regs.scaleShift h.regs
  have hnot : s.regs.phase ≠ .awaitingFrame ∧ s.regs.phase ≠ .frameReady := by
    constructor <;> intro hp <;> simpa [hp, Phase.configured] using h.phase
  refine (inv_iff s).2 ⟨ht, h.bufs ▸ Bufs.reset_fits, hl, ?_⟩
  exact
    { idleSeq := fun _ => hseq
      idlePhase := fun _ => hnot.2
      activePhase := fun ha => absurd h.idle ha
      configLegal := fun hc => absurd (h.phase.symm.trans hc) Bool.false_ne_true
      unbuilt := fun _ => ⟨h.bufs, h.corrBits, h.specSize, h.regs⟩
      waiting := fun hp => absurd hp hnot.1
      inFrame := fun hp => absurd hp hnot.2
      view := fun hv => absurd (hview.symm.trans hv) Bool.false_ne_true
      nfeat := .inl hnfeat
      peak := by rw [hpeak]; decide
      scaleShift := by rw [hshift]; decide
      energy := fun k => by rw [h.bufs]; exact Nat.zero_le _ }

/-! ### A configured block -/

/-- What the invariant asks of a configured block whatever its phase. -/
structure Working (s : State) : Prop where
  configLegal  : ConfigLegal s.cfg s.tables
  derivedLegal : DerivedLegal s.cfg
  view         : s.regs.featureValid = true → s.port.active = none ∧ s.regs.nfeat = s.cfg.nchan
  nfeat        : s.regs.nfeat = 0 ∨ s.regs.nfeat = s.cfg.nchan
  peak         : s.regs.peak.toNat ≤ 32768
  scaleShift   : s.regs.scaleShift.toNat ≤ 15
  energy       : ∀ k, (Memory.read s.bufs.energy k).toNat ≤ 2 ^ 31

theorem Inv.working {s : State} (h : Inv s) (hp : s.regs.phase.configured = true) : Working s where
  configLegal := (h.disciplined.configLegal hp).1
  derivedLegal := (h.disciplined.configLegal hp).2
  view := h.disciplined.view
  nfeat := h.disciplined.nfeat
  peak := h.disciplined.peak
  scaleShift := h.disciplined.scaleShift
  energy := h.disciplined.energy

/-- Waiting for samples, between commands or on the not-ready exit of a `PROC` (R50 (a), R318). -/
theorem Working.disciplined_of_waiting {s : State} (h : Working s) (hp : s.regs.phase = .awaitingFrame)
    (hused : s.regs.inputUsed.toNat < s.cfg.size.toNat)
    (hseq : s.regs.seq = 0 ∨ s.regs.seq = 11 ∧ s.port.active ≠ none) : Disciplined s where
  idleSeq := fun ha => hseq.elim id fun h11 => absurd ha h11.2
  idlePhase := fun _ => by rw [hp]; decide
  activePhase := fun _ => by rw [hp]; rfl
  configLegal := fun _ => ⟨h.configLegal, h.derivedLegal⟩
  unbuilt := fun hc => by rw [hp] at hc; cases hc
  waiting := fun _ => ⟨hused, hseq.imp_right And.left⟩
  inFrame := fun hf => by rw [hp] at hf; cases hf
  view := h.view
  nfeat := h.nfeat
  peak := h.peak
  scaleShift := h.scaleShift
  energy := h.energy

/-- A frame in progress, inside a `PROC` only (R21, R131, R135, R318). -/
theorem Working.disciplined_of_inFrame {s : State} (h : Working s) (hp : s.regs.phase = .frameReady)
    (ha : s.port.active ≠ none) (hseq : 1 ≤ s.regs.seq.toNat ∧ s.regs.seq.toNat ≤ 11)
    (hused : s.regs.inputUsed.toNat =
      if s.regs.seq.toNat ≤ 2 then s.cfg.size.toNat else s.cfg.size.toNat - s.cfg.step.toNat) : Disciplined s where
  idleSeq := fun ha' => absurd ha' ha
  idlePhase := fun ha' => absurd ha' ha
  activePhase := fun _ => by rw [hp]; rfl
  configLegal := fun _ => ⟨h.configLegal, h.derivedLegal⟩
  unbuilt := fun hc => by rw [hp] at hc; cases hc
  waiting := fun hw => by rw [hp] at hw; cases hw
  inFrame := fun _ => ⟨hseq.1, hseq.2, hused⟩
  view := h.view
  nfeat := h.nfeat
  peak := h.peak
  scaleShift := h.scaleShift
  energy := h.energy

/-! ### The host commands -/

theorem bareCommand_ok {space arg : Nat} {i j : Instr} (h : bareCommand space arg i = .ok j) : i = j := by
  unfold bareCommand at h
  split_ifs at h
  exact Except.ok.inj h

theorem argCommand_ok {space : Nat} {i j : Instr} (h : argCommand space i = .ok j) : i = j := by
  unfold argCommand at h
  split_ifs at h
  exact Except.ok.inj h

/-- What the decoder reads from a word of the port is no micro-operation (R100, R103). -/
theorem encode_host_of_decodeHost {w : HostWord} {i : Instr} (h : decodeHost w = .ok i) :
    ∃ w', encode i = .host w' := by
  simp only [decodeHost] at h
  split at h
  · obtain rfl := bareCommand_ok h; exact ⟨_, rfl⟩
  · obtain rfl := argCommand_ok h; exact ⟨_, rfl⟩
  · cases h; exact ⟨_, rfl⟩
  · obtain rfl := bareCommand_ok h; exact ⟨_, rfl⟩
  · obtain rfl := argCommand_ok h; exact ⟨_, rfl⟩
  · obtain rfl := bareCommand_ok h; exact ⟨_, rfl⟩
  · cases h; exact ⟨_, rfl⟩
  · obtain rfl := bareCommand_ok h; exact ⟨_, rfl⟩
  · cases h

/-- `CFGWR` writes neither derived register (R312). -/
theorem Cfg.write_derived (g : Cfg) (i : Nat) (v : Int) :
    (g.write i v).corrBits = g.corrBits ∧ (g.write i v).specSize = g.specSize := by
  unfold Cfg.write
  split <;> exact ⟨rfl, rfl⟩

theorem inv_execCfgwr {s t : State} (h : Inv s) {index : Nat} (hx : execCfgwr index s = .next t) : Inv t := by
  unfold execCfgwr at hx
  split_ifs at hx with hp hi hv <;> cases hx
  · exact inv_raise_refusal h _ rfl
  · exact inv_raise_refusal h _ rfl
  · have hu := h.unbuilt (by rw [not_not.1 hp]; rfl)
    obtain ⟨hcorr, hspec⟩ := s.cfg.write_derived index s.port.value
    have hinv : Inv { s with cfg := s.cfg.write index s.port.value } :=
      Unbuilt.inv
        { hu with corrBits := hcorr.trans hu.corrBits, specSize := hspec.trans hu.specSize }
        h.tablesFit h.tablesLegal
    exact inv_finish hinv 0
  · exact inv_raise_refusal h _ rfl

theorem inv_tblwr {s : State} (h : Inv s) (space index : Nat) : Inv (tblwrWith Config.caps space index s) := by
  obtain ⟨-, e⟩ | ⟨-, e⟩ | ⟨sp, lo, hi, hp, -, hr, hcap, hlo, hhi, e⟩ := tblwrWith_cases Config.caps space index s <;>
    rw [e]
  · exact inv_raise_refusal h _ rfl
  · exact inv_raise_refusal h _ rfl
  · obtain ⟨hfits, hlegal⟩ := Tables.write_fits_legal h.tablesFit h.tablesLegal hr hcap hlo hhi
    have hu := h.unbuilt (by rw [hp]; rfl)
    have hinv : Inv { s with tables := s.tables.write sp index s.port.value } :=
      Unbuilt.inv { hu with } hfits hlegal
    exact inv_finish hinv 0

/-- Whatever code `COMMIT` reports, the block it leaves unbuilt has the invariant (R351 (a), R356). -/
theorem inv_raise_unbuilt {s : State} (h : Inv s) (hp : s.regs.phase = .unconfigured) (e : ErrCode) :
    Inv (raise e s) := by
  have hu := h.unbuilt (by rw [hp]; rfl)
  refine Unbuilt.inv { hu with phase := ?_ } h.tablesFit h.tablesLegal
  rw [raise_phase, hp]
  split <;> rfl

theorem inv_constructed {s : State} {init : Nat → Bool} (h : Inv s)
    (hc : firstFailure (commitChecks Config.caps init s.cfg s.tables) = none) : Inv (constructed s) := by
  have hlegal := configLegal_withDerived hc
  have hw : Working (constructed s) :=
    { configLegal := hlegal
      derivedLegal := s.cfg.withDerived_derivedLegal
      view := nofun
      nfeat := .inl rfl
      peak := Nat.zero_le _
      scaleShift := Nat.zero_le _
      energy := fun _ => Nat.zero_le _ }
  exact (inv_iff _).2 ⟨h.tablesFit, Bufs.reset_fits, h.tablesLegal,
    hw.disciplined_of_waiting rfl hlegal.bounds.size_pos (.inl rfl)⟩

theorem inv_commit {s : State} (h : Inv s) (init : Nat → Bool) : Inv (commitWith Config.caps init s) := by
  obtain ⟨-, e⟩ | ⟨err, hp, -, e⟩ | ⟨-, hc, e⟩ := commitWith_cases Config.caps init s <;> rw [e]
  · exact inv_raise_refusal h _ rfl
  · exact inv_raise_unbuilt h hp err
  · exact inv_constructed h hc

theorem inv_execProc {s t : State} (h : Inv s) {count : Nat} (hx : execProc count s = .next t) : Inv t := by
  unfold execProc at hx
  split_ifs at hx with hp <;> cases hx
  · exact inv_raise_refusal h _ rfl
  · rw [not_not] at hp
    have hw := h.working (by rw [hp]; rfl)
    refine (inv_iff _).2 ⟨h.tablesFit, h.bufsFit, h.tablesLegal,
      Working.disciplined_of_waiting { hw with view := nofun, nfeat := .inl rfl } hp (h.disciplined.waiting hp).1
        (.inl rfl)⟩

theorem Bufs.Fits.cleared {b : Bufs} (h : b.Fits) :
    Bufs.Fits { b with inp := [], out := [], spec := [], work := [], est := [] } :=
  { h with
    inp := Memory.fits_nil _
    out := Memory.fits_nil _
    spec := Memory.fits_nil _
    work := Memory.fits_nil _
    est := Memory.fits_nil _ }

theorem inv_execRst {s t : State} (h : Inv s) (hx : execRst s = .next t) : Inv t := by
  unfold execRst at hx
  split_ifs at hx with hp <;> cases hx
  · exact inv_raise_refusal h _ rfl
  · rw [not_not] at hp
    have hw := h.working (by rw [hp]; rfl)
    have hw' : Working (historyCleared s) :=
      { hw with view := nofun, nfeat := .inl rfl, peak := Nat.zero_le _ }
    have hinv : Inv (historyCleared s) :=
      (inv_iff _).2 ⟨h.tablesFit, h.bufsFit.cleared, h.tablesLegal,
        hw'.disciplined_of_waiting hp hw.configLegal.bounds.size_pos (.inl rfl)⟩
    exact inv_finish hinv 0

theorem inv_rd {s : State} (h : Inv s) (space index : Nat) : Inv (rdWith Config.caps space index s) := by
  obtain e | ⟨sp, -, -, e⟩ := rdWith_cases Config.caps space index s <;> rw [e]
  · exact inv_raise_refusal h _ rfl
  · exact inv_finish h _

theorem inv_powerOn {p : Port} (hp : p.active = none) (f : Nat) :
    Inv { State.reset with port := p, freeCtr := f } :=
  Unbuilt.inv ⟨rfl, hp, rfl, rfl, rfl, rfl⟩ Tables.reset_fits Tables.reset_legal

/-- Every host command carried out by an idle block keeps the invariant. -/
theorem inv_hostCommand {s t : State} {i : Instr} {w : HostWord} (h : Inv s) (ha : s.port.active = none)
    (hi : encode i = .host w) (hx : exec i s = .next t) : Inv t := by
  cases i with
  | wFill | wApply | wSlide | shCalc | xReq | fbEnergy | fbAcc | fbSqrt | nrApply | gcApply | lsApply | seqEnd =>
    cases hi
  | nop => cases hx; exact inv_finish h 0
  | cfgwr index => exact inv_execCfgwr h hx
  | tblwr space index => cases hx; exact inv_tblwr h space index
  | commit => cases hx; exact inv_commit h _
  | proc count => exact inv_execProc h hx
  | rst => exact inv_execRst h hx
  | rd space index => cases hx; exact inv_rd h space index
  | clr => cases hx; exact inv_finish (inv_powerOn ha s.freeCtr) 0

/-! ### The values the micro-operations write -/

/-- A window value inside s16 has a magnitude of at most 32768, and so has the largest of them (R134). -/
theorem peakOf_le {s : State} {n : Nat} (h : ∀ i, i < n → fitsSigned 16 (windowValue s i) = true) :
    peakOf s n ≤ 32768 := by
  induction n with
  | zero => exact Nat.zero_le _
  | succ n ih =>
    have hlast := (fitsSigned_iff 16 _).1 (h n n.lt_succ_self)
    norm_num at hlast
    exact max_le (ih fun i hi => h i (hi.trans n.lt_succ_self)) (by omega)

/-- For both admissible bases (R163). -/
theorem scaleShiftFor_le (peak : Nat) : scaleShiftFor shiftBase peak ≤ 15 := by
  have hbase : shiftBase ≤ 15 := by
    unfold shiftBase
    split <;> decide
  unfold scaleShiftFor
  split <;> omega

/-- Two squares of s16 numbers (R35, R181). -/
theorem binEnergy_le (s : State) (k : Nat) : binEnergy s k ≤ 2 ^ 31 := by
  have hsq (x : BitVec 16) : x.toInt.natAbs ^ 2 ≤ 2 ^ 30 := by
    have hlo := BitVec.le_toInt x
    have hhi := BitVec.toInt_lt (x := x)
    norm_num at hlo hhi
    have habs : x.toInt.natAbs ≤ 2 ^ 15 := by omega
    exact Nat.pow_le_pow_left habs 2
  unfold binEnergy
  split
  · have h1 := hsq (Memory.read s.bufs.spec (2 * k))
    have h2 := hsq (Memory.read s.bufs.spec (2 * k + 1))
    omega
  · exact Nat.zero_le _

/-! ### The micro-operations -/

/-- Inside a `PROC`, `SEQ` between 1 and 10 means a frame in progress (R318). -/
theorem Inv.frameReady_of_seq {s : State} (h : Inv s) (ha : s.port.active ≠ none)
    (hseq : 1 ≤ s.regs.seq.toNat ∧ s.regs.seq.toNat ≤ 10) : s.regs.phase = .frameReady := by
  obtain hp | hp := s.regs.phase.configured_iff.1 (h.disciplined.activePhase ha)
  · obtain h0 | h11 := (h.disciplined.waiting hp).2
    · rw [h0] at hseq; exact absurd hseq (by decide)
    · rw [h11] at hseq; exact absurd hseq (by decide)
  · exact hp

/-- `SEQ` at 0 inside a `PROC` means waiting for samples. -/
theorem Inv.awaitingFrame_of_seq {s : State} (h : Inv s) (ha : s.port.active ≠ none) (hseq : s.regs.seq = 0) :
    s.regs.phase = .awaitingFrame := by
  obtain hp | hp := s.regs.phase.configured_iff.1 (h.disciplined.activePhase ha)
  · exact hp
  · obtain ⟨hpos, -⟩ := h.disciplined.inFrame hp
    rw [hseq] at hpos
    exact absurd hpos (by decide)

/-- A micro-operation of a frame in progress keeps the invariant when it writes `PEAK`, `SCALE_SHIFT`, the buffers and
the energies inside their ranges and keeps `INPUT_USED` as its new index demands. -/
theorem inv_inFrame {s : State} (h : Inv s) (ha : s.port.active ≠ none) (hp : s.regs.phase = .frameReady)
    {used peak : BitVec 16} {shift : BitVec 5} {seq : BitVec 4} {b : Bufs}
    (hseq : 1 ≤ seq.toNat ∧ seq.toNat ≤ 11)
    (hused : used.toNat = if seq.toNat ≤ 2 then s.cfg.size.toNat else s.cfg.size.toNat - s.cfg.step.toNat)
    (hpeak : peak.toNat ≤ 32768) (hshift : shift.toNat ≤ 15) (hb : b.Fits)
    (henergy : ∀ k, (Memory.read b.energy k).toNat ≤ 2 ^ 31) :
    Inv { s with
      regs := { s.regs with inputUsed := used, peak := peak, scaleShift := shift, seq := seq }, bufs := b } := by
  have hw := h.working (by rw [hp]; rfl)
  exact (inv_iff _).2 ⟨h.tablesFit, hb, h.tablesLegal,
    Working.disciplined_of_inFrame { hw with peak := hpeak, scaleShift := hshift, energy := henergy } hp ha hseq hused⟩

theorem Working.specSize_le {s : State} (h : Working s) : s.cfg.specSize.toNat ≤ Config.caps.maxFft / 2 + 1 := by
  rw [h.derivedLegal.1]
  have := h.configLegal.bounds.fft_le
  omega

theorem inv_execWFill {s t : State} (h : Inv s) (ha : s.port.active ≠ none) (hseq : s.regs.seq = 0)
    (hx : execWFill s = .next t) : Inv t := by
  have hp := h.awaitingFrame_of_seq ha hseq
  have hw := h.working (by rw [hp]; rfl)
  have hsize : s.cfg.size.toNat < 2 ^ 16 := s.cfg.size.isLt
  obtain ⟨hused, hcase⟩ := execWFill_next hx
  have hfull : s.regs.inputUsed.toNat + fillCount s ≤ s.cfg.size.toNat := by
    have : fillCount s ≤ s.cfg.size.toNat - s.regs.inputUsed.toNat := min_le_right _ _
    omega
  have hvalue : (BitVec.ofNat 16 (s.regs.inputUsed.toNat + fillCount s)).toNat
      = s.regs.inputUsed.toNat + fillCount s := by
    rw [BitVec.toNat_ofNat]
    exact Nat.mod_eq_of_lt (by omega)
  have hbufs : Bufs.Fits { s.bufs with
      inp := Memory.writeRange s.bufs.inp s.regs.inputUsed.toNat (fillCount s) (sampleAt s) } :=
    { h.bufsFit with inp := h.bufsFit.inp.writeRange _ (hfull.trans hw.configLegal.bounds.size_le) }
  obtain ⟨hready, rfl⟩ | ⟨hshort, rfl⟩ := hcase
  · have hfirst : 1 ≤ (1 : BitVec 4).toNat ∧ (1 : BitVec 4).toNat ≤ 11 := by decide
    refine (inv_iff _).2 ⟨h.tablesFit, hbufs, h.tablesLegal,
      Working.disciplined_of_inFrame { hw with } rfl ha hfirst ?_⟩
    exact hvalue.trans (le_antisymm hfull hready)
  · refine (inv_iff _).2 ⟨h.tablesFit, hbufs, h.tablesLegal,
      Working.disciplined_of_waiting { hw with } hp ?_ (.inr ⟨rfl, ha⟩)⟩
    exact hvalue.trans_lt hshort

theorem inv_execWApply {s t : State} (h : Inv s) (ha : s.port.active ≠ none) (hseq : s.regs.seq = 1)
    (hx : execWApply s = .next t) : Inv t := by
  have hp := h.frameReady_of_seq ha (by rw [hseq]; decide)
  have hw := h.working (by rw [hp]; rfl)
  obtain ⟨hfits, rfl⟩ := execWApply_next hx
  have hused : s.regs.inputUsed.toNat = s.cfg.size.toNat := by
    obtain ⟨-, -, hused⟩ := h.disciplined.inFrame hp
    rwa [hseq] at hused
  have hpeak : (BitVec.ofNat 16 (peakOf s s.cfg.size.toNat)).toNat ≤ 32768 := by
    rw [BitVec.toNat_ofNat]
    exact (Nat.mod_le _ _).trans (peakOf_le hfits)
  exact inv_inFrame h ha hp (by decide) hused hpeak hw.scaleShift
    { h.bufsFit with out := h.bufsFit.out.writeFirst _ hw.configLegal.bounds.size_le } hw.energy

theorem inv_execWSlide {s t : State} (h : Inv s) (ha : s.port.active ≠ none) (hseq : s.regs.seq = 2)
    (hx : execWSlide s = .next t) : Inv t := by
  have hp := h.frameReady_of_seq ha (by rw [hseq]; decide)
  have hw := h.working (by rw [hp]; rfl)
  obtain ⟨-, -, rfl⟩ := execWSlide_next hx
  have hused : s.regs.inputUsed.toNat = s.cfg.size.toNat := by
    obtain ⟨-, -, hused⟩ := h.disciplined.inFrame hp
    rwa [hseq] at hused
  have hleft : (BitVec.ofNat 16 (s.regs.inputUsed.toNat - s.cfg.step.toNat)).toNat
      = s.cfg.size.toNat - s.cfg.step.toNat := by
    have hsize : s.cfg.size.toNat < 2 ^ 16 := s.cfg.size.isLt
    rw [BitVec.toNat_ofNat, hused]
    exact Nat.mod_eq_of_lt (by omega)
  exact inv_inFrame h ha hp (by decide) hleft hw.peak hw.scaleShift
    { h.bufsFit with
      inp := h.bufsFit.inp.writeFirst _ ((Nat.sub_le _ _).trans hw.configLegal.bounds.size_le) } hw.energy

/-- After the slide no micro-operation touches `INPUT_USED` or `PEAK`. -/
theorem inv_afterSlide {s : State} (h : Inv s) (ha : s.port.active ≠ none)
    (hfrom : 3 ≤ s.regs.seq.toNat ∧ s.regs.seq.toNat ≤ 10) {shift : BitVec 5} {seq : BitVec 4} {b : Bufs}
    (hto : 3 ≤ seq.toNat ∧ seq.toNat ≤ 11) (hshift : shift.toNat ≤ 15) (hb : b.Fits)
    (henergy : ∀ k, (Memory.read b.energy k).toNat ≤ 2 ^ 31) :
    Inv { s with regs := { s.regs with scaleShift := shift, seq := seq }, bufs := b } := by
  have hp := h.frameReady_of_seq ha ⟨by omega, hfrom.2⟩
  obtain ⟨-, -, hused⟩ := h.disciplined.inFrame hp
  rw [if_neg (by omega)] at hused
  exact inv_inFrame h ha hp ⟨by omega, hto.2⟩ (by rw [if_neg (by omega)]; exact hused) h.disciplined.peak hshift hb
    henergy

theorem energy_le_after_fbEnergy (s : State) (h : ∀ k, (Memory.read s.bufs.energy k).toNat ≤ 2 ^ 31) (n k : Nat) :
    (Memory.read (Memory.writeRange s.bufs.energy 0 n fun j => BitVec.ofNat 32 (binEnergy s j)) k).toNat
      ≤ 2 ^ 31 := by
  rw [Memory.read_writeRange]
  split
  · rw [BitVec.toNat_ofNat]
    exact (Nat.mod_le _ _).trans (binEnergy_le s _)
  · exact h k

/-- Both exits lead back to waiting: a finished frame has slid by `STEP` ≥ 1, an unfinished one never filled up. -/
theorem inv_execSeqEnd {s t : State} (h : Inv s) (ha : s.port.active ≠ none) (hseq : s.regs.seq = 11)
    (hx : execSeqEnd s = .next t) : Inv t := by
  have hconf := h.disciplined.activePhase ha
  have hw := h.working hconf
  obtain ⟨hp, rfl⟩ | ⟨hp, rfl⟩ := execSeqEnd_next hx
  · have hused : s.regs.inputUsed.toNat < s.cfg.size.toNat := by
      obtain ⟨-, -, hused⟩ := h.disciplined.inFrame hp
      rw [hseq, if_neg (by decide)] at hused
      have hpos := hw.configLegal.bounds.size_pos
      have hstep := hw.configLegal.bounds.step_pos
      omega
    exact (inv_iff _).2 ⟨h.tablesFit, h.bufsFit, h.tablesLegal,
      Working.disciplined_of_waiting { hw with view := fun _ => ⟨rfl, rfl⟩, nfeat := .inr rfl } rfl hused (.inl rfl)⟩
  · have hp' := (s.regs.phase.configured_iff.1 hconf).resolve_right hp
    exact (inv_iff _).2 ⟨h.tablesFit, h.bufsFit, h.tablesLegal,
      Working.disciplined_of_waiting { hw with view := fun hv => ⟨rfl, (hw.view hv).2⟩ } hp'
        (h.disciplined.waiting hp').1 (.inl rfl)⟩

/-- Every micro-operation at the index `SEQ` holds inside a `PROC` keeps the invariant; the ones after the slide, because
each writes its buffer inside its capacity. -/
theorem inv_micro {s t : State} {i : Instr} (h : Inv s) (ha : s.port.active ≠ none)
    (hf : fetchMicro s.regs.seq = some i) (hx : exec i s = .next t) : Inv t := by
  have hw := h.working (h.disciplined.activePhase ha)
  have hb := h.bufsFit
  have hspec := hw.specSize_le
  have hchan := hw.configLegal.bounds.nchan_le
  rcases fetchMicro_cases hf with ⟨hs, rfl⟩ | ⟨hs, rfl⟩ | ⟨hs, rfl⟩ | ⟨hs, rfl⟩ | ⟨hs, rfl⟩ | ⟨hs, rfl⟩ | ⟨hs, rfl⟩ |
    ⟨hs, rfl⟩ | ⟨hs, rfl⟩ | ⟨hs, rfl⟩ | ⟨hs, rfl⟩ | ⟨hs, rfl⟩
  · exact inv_execWFill h ha hs hx
  · exact inv_execSeqEnd h ha hs hx
  · exact inv_execWApply h ha hs hx
  · exact inv_execWSlide h ha hs hx
  -- After the slide, in the order of the ROM.
  all_goals have hfrom : 3 ≤ s.regs.seq.toNat ∧ s.regs.seq.toNat ≤ 10 := by rw [hs]; decide
  · cases hx
    refine inv_afterSlide h ha hfrom (by decide) ?_ hb hw.energy
    rw [BitVec.toNat_ofNat]
    exact (Nat.mod_le _ _).trans (scaleShiftFor_le _)
  · cases hx
    have hcap : 2 * s.cfg.specSize.toNat ≤ Config.caps.maxFft + 2 := by omega
    exact inv_afterSlide h ha hfrom (by decide) hw.scaleShift { hb with spec := hb.spec.writeFirst _ hcap } hw.energy
  · cases hx
    exact inv_afterSlide h ha hfrom (by decide) hw.scaleShift { hb with energy := hb.energy.writeFirst _ hspec }
      (energy_le_after_fbEnergy s hw.energy _)
  · obtain ⟨-, rfl⟩ := execFbAcc_next hx
    exact inv_afterSlide h ha hfrom (by decide) hw.scaleShift
      { hb with work := hb.work.writeFirst _ (Nat.succ_le_succ hchan) } hw.energy
  · cases hx
    exact inv_afterSlide h ha hfrom (by decide) hw.scaleShift { hb with sig := hb.sig.writeFirst _ hchan } hw.energy
  · obtain ⟨-, rfl⟩ := execNrApply_next hx
    exact inv_afterSlide h ha hfrom (by decide) hw.scaleShift
      { hb with sig := hb.sig.writeFirst _ hchan, est := hb.est.writeFirst _ hchan } hw.energy
  · obtain rfl | rfl := execGcApply_next hx
    · exact inv_afterSlide h ha hfrom (by decide) hw.scaleShift { hb with sig := hb.sig.writeFirst _ hchan } hw.energy
    · exact inv_afterSlide h ha hfrom (by decide) hw.scaleShift hb hw.energy
  · cases hx
    exact inv_afterSlide h ha hfrom (by decide) hw.scaleShift { hb with feat := hb.feat.writeFirst _ hchan } hw.energy

/-! ### The obligation -/

/-- Settles O49, by what a step can be: a micro-operation, a command, an illegal word or nothing. -/
theorem stepKeepsTheInvariant : Obligations.StepKeepsTheInvariant := by
  intro s t h hx
  rcases step_cases s with ⟨n, i, ha, hf, e⟩ | ⟨n, -, -, e⟩ | ⟨c, rest, i, ha, -, hd, e⟩ | ⟨c, rest, -, -, e⟩ |
    ⟨-, -, e⟩ <;> rw [e] at hx
  · exact inv_micro h (by rw [ha]; nofun) hf hx
  · cases hx
  · obtain ⟨w, hw⟩ := encode_host_of_decodeHost hd
    exact inv_hostCommand (inv_takeCommand h c rest) ha hw hx
  · cases hx
    exact inv_raise_refusal (inv_takeCommand h c rest) .illegal rfl
  · cases hx
    exact h

end Sys2Proof.Machine
end

section
/-! The spaces and how they are reached (20_memory.md): the number `MemRead` answers (R78), the canonical form of the
spaces, kept by every write (R74), and the configuration frozen between `COMMIT` and `CLR` (R81, R393). -/

namespace Sys2Proof.Machine

/-! ### What a host command that answers has done

The commands with a refusal of their own; `TBLWR`, `COMMIT` and `RD` have their lemma in the laws of the shared
operations. -/

/-- Everything `CFGWR` can answer: two refusals, the phase before the operands (R335), or one register written. -/
theorem execCfgwr_next {s t : State} {index : Nat} (h : execCfgwr index s = .next t) :
    (s.regs.phase ≠ .unconfigured ∧ t = raise .state s) ∨
    (s.regs.phase = .unconfigured ∧
      (15 < index ∨ ¬ fitsUnsigned (cfgTypeBits index) s.port.value = true) ∧ t = raise .range s) ∨
    (s.regs.phase = .unconfigured ∧ index ≤ 15 ∧ fitsUnsigned (cfgTypeBits index) s.port.value = true ∧
      t = finish 0 { s with cfg := s.cfg.write index s.port.value }) := by
  unfold execCfgwr at h
  split_ifs at h with hphase hindex hfits <;> cases h
  · exact .inl ⟨hphase, rfl⟩
  · exact .inr (.inl ⟨not_not.1 hphase, .inl hindex, rfl⟩)
  · exact .inr (.inr ⟨not_not.1 hphase, not_lt.1 hindex, hfits, rfl⟩)
  · exact .inr (.inl ⟨not_not.1 hphase, .inr hfits, rfl⟩)

/-- Everything `PROC` can answer: a refusal, or the micro-program started (R317). -/
theorem execProc_next {s t : State} {count : Nat} (h : execProc count s = .next t) :
    (s.regs.phase ≠ .awaitingFrame ∧ t = raise .state s) ∨
    (s.regs.phase = .awaitingFrame ∧
      t = { s with
        regs := { s.regs with featureValid := false, nfeat := 0, err := .ok, seq := 0 }
        port := { s.port with rdata := 0, active := some count } }) := by
  unfold execProc at h
  split_ifs at h with hphase <;> cases h
  · exact .inl ⟨hphase, rfl⟩
  · exact .inr ⟨not_not.1 hphase, rfl⟩

/-- Everything `RST` can answer: a refusal, or the history cleared (R322). -/
theorem execRst_next {s t : State} (h : execRst s = .next t) :
    (s.regs.phase ≠ .awaitingFrame ∧ t = raise .state s) ∨
    (s.regs.phase = .awaitingFrame ∧ t = finish 0 (historyCleared s)) := by
  unfold execRst at h
  split_ifs at h with hphase <;> cases h
  · exact .inl ⟨hphase, rfl⟩
  · exact .inr ⟨not_not.1 hphase, rfl⟩

/-! ### The configuration between COMMIT and CLR -/

/-- What the sequencer fetches is a micro-operation, no host command (R100, R104). -/
theorem encode_micro_of_fetchMicro {seq : BitVec 4} {i : Instr} (h : fetchMicro seq = some i) :
    ∃ c, encode i = .micro c := by
  rcases fetchMicro_cases h with ⟨-, rfl⟩ | ⟨-, rfl⟩ | ⟨-, rfl⟩ | ⟨-, rfl⟩ | ⟨-, rfl⟩ | ⟨-, rfl⟩ | ⟨-, rfl⟩ |
    ⟨-, rfl⟩ | ⟨-, rfl⟩ | ⟨-, rfl⟩ | ⟨-, rfl⟩ | ⟨-, rfl⟩ <;> exact ⟨_, rfl⟩

/-- In a configured block `CFGWR`, `TBLWR` and `COMMIT` are refused, and no other host command but `CLR` writes what
they write (R81). -/
theorem hostCommand_keeps_configuration {s t : State} {i : Instr} {w : HostWord}
    (hp : s.regs.phase.configured = true) (hi : encode i = .host w) (hclr : i ≠ .clr) (hx : exec i s = .next t) :
    t.cfg = s.cfg ∧ t.tables = s.tables := by
  have hbuilt : s.regs.phase ≠ .unconfigured := fun hu => by rw [hu] at hp; cases hp
  cases i with
  | wFill | wApply | wSlide | shCalc | xReq | fbEnergy | fbAcc | fbSqrt | nrApply | gcApply | lsApply | seqEnd =>
    cases hi
  | nop => cases hx; exact ⟨rfl, rfl⟩
  | cfgwr index =>
    obtain ⟨-, rfl⟩ | ⟨hu, -⟩ | ⟨hu, -⟩ := execCfgwr_next hx
    · exact ⟨rfl, rfl⟩
    all_goals exact absurd hu hbuilt
  | tblwr space index =>
    cases hx
    obtain ⟨-, e⟩ | ⟨hu, -⟩ | ⟨-, -, -, hu, -⟩ := tblwrWith_cases Config.caps space index s
    · rw [e]; exact ⟨rfl, rfl⟩
    all_goals exact absurd hu hbuilt
  | commit =>
    cases hx
    obtain ⟨-, e⟩ | ⟨-, hu, -⟩ | ⟨hu, -⟩ := commitWith_cases Config.caps Config.xfmInit s
    · rw [e]; exact ⟨rfl, rfl⟩
    all_goals exact absurd hu hbuilt
  | proc count => obtain ⟨-, rfl⟩ | ⟨-, rfl⟩ := execProc_next hx <;> exact ⟨rfl, rfl⟩
  | rst => obtain ⟨-, rfl⟩ | ⟨-, rfl⟩ := execRst_next hx <;> exact ⟨rfl, rfl⟩
  | rd space index =>
    cases hx
    obtain e | ⟨_, -, -, e⟩ := rdWith_cases Config.caps space index s <;> rw [e] <;> exact ⟨rfl, rfl⟩
  | clr => exact absurd rfl hclr

/-- Settles O53, by what a step can be; a command carried out is `CLR`, or one that a configured block refuses or that
writes no register of the configuration. -/
theorem configurationIsFrozen : Obligations.ConfigurationIsFrozen := by
  intro s t hp hx
  rcases step_cases s with ⟨n, i, -, hf, e⟩ | ⟨n, -, -, e⟩ | ⟨c, rest, i, ha, hq, hd, e⟩ | ⟨c, rest, -, -, e⟩ |
    ⟨-, -, e⟩ <;> rw [e] at hx
  · obtain ⟨c, hc⟩ := encode_micro_of_fetchMicro hf
    obtain ⟨hcfg, htables, -⟩ := microOpsKeepTheConfiguration s t i c hc hx
    exact .inl ⟨hcfg, htables⟩
  · cases hx
  · by_cases hclr : i = .clr
    · exact .inr ⟨ha, c, rest, hq, hclr ▸ hd⟩
    · obtain ⟨w, hw⟩ := encode_host_of_decodeHost hd
      exact .inl (hostCommand_keeps_configuration (s := takeCommand c rest s) hp hw hclr hx)
  · cases hx; exact .inl ⟨rfl, rfl⟩
  · cases hx; exact .inl ⟨rfl, rfl⟩

/-! ### The canonical form, space by space -/

/-- The tables' share of `canonical`, one field per space. -/
structure Tables.Canonical (t : Tables) : Prop where
  coef     : Memory.wf t.coef = true
  fstart   : Memory.wf t.fstart = true
  wstart   : Memory.wf t.wstart = true
  width    : Memory.wf t.width = true
  weight   : Memory.wf t.weight = true
  unweight : Memory.wf t.unweight = true
  glut     : Memory.wf t.glut = true

/-- The buffers' share of `canonical`, one field per space. -/
structure Bufs.Canonical (b : Bufs) : Prop where
  inp    : Memory.wf b.inp = true
  out    : Memory.wf b.out = true
  spec   : Memory.wf b.spec = true
  energy : Memory.wf b.energy = true
  work   : Memory.wf b.work = true
  sig    : Memory.wf b.sig = true
  est    : Memory.wf b.est = true
  feat   : Memory.wf b.feat = true

theorem Tables.canonical_iff (t : Tables) : t.Canonical ↔ t.wf = true := by
  simp only [Tables.wf, Bool.and_eq_true, and_assoc]
  exact ⟨fun ⟨h1, h2, h3, h4, h5, h6, h7⟩ => ⟨h1, h2, h3, h4, h5, h6, h7⟩,
    fun ⟨h1, h2, h3, h4, h5, h6, h7⟩ => ⟨h1, h2, h3, h4, h5, h6, h7⟩⟩

theorem Bufs.canonical_iff (b : Bufs) : b.Canonical ↔ b.wf = true := by
  simp only [Bufs.wf, Bool.and_eq_true, and_assoc]
  exact ⟨fun ⟨h1, h2, h3, h4, h5, h6, h7, h8⟩ => ⟨h1, h2, h3, h4, h5, h6, h7, h8⟩,
    fun ⟨h1, h2, h3, h4, h5, h6, h7, h8⟩ => ⟨h1, h2, h3, h4, h5, h6, h7, h8⟩⟩

theorem State.canonical_iff (s : State) : s.canonical = true ↔ s.tables.Canonical ∧ s.bufs.Canonical := by
  rw [Tables.canonical_iff, Bufs.canonical_iff, State.canonical, Bool.and_eq_true]

theorem Bufs.reset_canonical : Bufs.reset.Canonical := by
  constructor <;> rfl

/-- Whichever space it names, `TBLWR` writes one element of it or none. -/
theorem Tables.Canonical.write {t : Tables} (h : t.Canonical) (sp : Space) (i : Nat) (v : Int) :
    (t.write sp i v).Canonical := by
  cases sp with
  | cfg | reg | inp | out | spec | energy | work | sig | est | llut | feat => exact h
  | coef => exact { h with coef := Memory.write_wf _ _ _ h.coef }
  | fstart => exact { h with fstart := Memory.write_wf _ _ _ h.fstart }
  | wstart => exact { h with wstart := Memory.write_wf _ _ _ h.wstart }
  | width => exact { h with width := Memory.write_wf _ _ _ h.width }
  | weight => exact { h with weight := Memory.write_wf _ _ _ h.weight }
  | unweight => exact { h with unweight := Memory.write_wf _ _ _ h.unweight }
  | glut => exact { h with glut := Memory.write_wf _ _ _ h.glut }

/-- The buffers `RST` clears are left with no listed element (R322). -/
theorem historyCleared_canonical {s : State} (h : s.canonical = true) : (historyCleared s).canonical = true := by
  obtain ⟨ht, hb⟩ := s.canonical_iff.1 h
  exact (State.canonical_iff _).2 ⟨ht, { hb with inp := rfl, out := rfl, spec := rfl, work := rfl, est := rfl }⟩

/-- Every host command leaves the spaces alone, empties them, or writes one element. -/
theorem hostCommand_keeps_canonical {s t : State} {i : Instr} {w : HostWord} (h : s.canonical = true)
    (hi : encode i = .host w) (hx : exec i s = .next t) : t.canonical = true := by
  obtain ⟨ht, hb⟩ := s.canonical_iff.1 h
  cases i with
  | wFill | wApply | wSlide | shCalc | xReq | fbEnergy | fbAcc | fbSqrt | nrApply | gcApply | lsApply | seqEnd =>
    cases hi
  | nop => cases hx; exact h
  | cfgwr index => obtain ⟨-, rfl⟩ | ⟨-, -, rfl⟩ | ⟨-, -, -, rfl⟩ := execCfgwr_next hx <;> exact h
  | tblwr space index =>
    cases hx
    obtain ⟨-, e⟩ | ⟨-, e⟩ | ⟨sp, _, _, -, -, -, -, -, -, e⟩ := tblwrWith_cases Config.caps space index s <;> rw [e]
    · exact h
    · exact h
    · exact (State.canonical_iff _).2 ⟨ht.write sp index s.port.value, hb⟩
  | commit =>
    cases hx
    obtain ⟨-, e⟩ | ⟨_, -, -, e⟩ | ⟨-, -, e⟩ := commitWith_cases Config.caps Config.xfmInit s <;> rw [e]
    · exact h
    · exact h
    · exact (State.canonical_iff _).2 ⟨ht, Bufs.reset_canonical⟩
  | proc count => obtain ⟨-, rfl⟩ | ⟨-, rfl⟩ := execProc_next hx <;> exact h
  | rst =>
    obtain ⟨-, rfl⟩ | ⟨-, rfl⟩ := execRst_next hx
    · exact h
    · exact historyCleared_canonical (s := s) h
  | rd space index =>
    cases hx
    obtain e | ⟨_, -, -, e⟩ := rdWith_cases Config.caps space index s <;> rw [e] <;> exact h
  | clr => cases hx; rfl

/-- Every micro-operation leaves each buffer alone or rewrites it by one loop of writes. -/
theorem micro_keeps_canonical {s t : State} {i : Instr} {c : MicroCode} (h : s.canonical = true)
    (hi : encode i = .micro c) (hx : exec i s = .next t) : t.canonical = true := by
  obtain ⟨ht, hb⟩ := s.canonical_iff.1 h
  obtain ⟨-, htables, -⟩ := microOpsKeepTheConfiguration s t i c hi hx
  refine t.canonical_iff.2 ⟨htables ▸ ht, ?_⟩
  cases i with
  | nop | cfgwr _ | tblwr _ _ | commit | proc _ | rst | rd _ _ | clr => cases hi
  | shCalc => cases hx; exact hb
  | seqEnd => obtain ⟨-, rfl⟩ | ⟨-, rfl⟩ := execSeqEnd_next hx <;> exact hb
  | wFill =>
    obtain ⟨-, ⟨-, rfl⟩ | ⟨-, rfl⟩⟩ := execWFill_next hx <;>
      exact { hb with inp := Memory.writeRange_wf _ _ _ _ hb.inp }
  | wApply => obtain ⟨-, rfl⟩ := execWApply_next hx; exact { hb with out := Memory.writeRange_wf _ _ _ _ hb.out }
  | wSlide => obtain ⟨-, -, rfl⟩ := execWSlide_next hx; exact { hb with inp := Memory.writeRange_wf _ _ _ _ hb.inp }
  | xReq => cases hx; exact { hb with spec := Memory.writeRange_wf _ _ _ _ hb.spec }
  | fbEnergy => cases hx; exact { hb with energy := Memory.writeRange_wf _ _ _ _ hb.energy }
  | fbAcc => obtain ⟨-, rfl⟩ := execFbAcc_next hx; exact { hb with work := Memory.writeRange_wf _ _ _ _ hb.work }
  | fbSqrt => cases hx; exact { hb with sig := Memory.writeRange_wf _ _ _ _ hb.sig }
  | nrApply =>
    obtain ⟨-, rfl⟩ := execNrApply_next hx
    exact { hb with sig := Memory.writeRange_wf _ _ _ _ hb.sig, est := Memory.writeRange_wf _ _ _ _ hb.est }
  | gcApply =>
    obtain rfl | rfl := execGcApply_next hx
    · exact { hb with sig := Memory.writeRange_wf _ _ _ _ hb.sig }
    · exact hb
  | lsApply => cases hx; exact { hb with feat := Memory.writeRange_wf _ _ _ _ hb.feat }

/-- Settles O50, by what a step can be: taking a command and refusing a word touch no space. -/
theorem stepKeepsTheCanonicalForm : Obligations.StepKeepsTheCanonicalForm := by
  intro s t h hx
  rcases step_cases s with ⟨n, i, -, hf, e⟩ | ⟨n, -, -, e⟩ | ⟨c, rest, i, -, -, hd, e⟩ | ⟨c, rest, -, -, e⟩ |
    ⟨-, -, e⟩ <;> rw [e] at hx
  · obtain ⟨c, hc⟩ := encode_micro_of_fetchMicro hf
    exact micro_keeps_canonical h hc hx
  · cases hx
  · obtain ⟨w, hw⟩ := encode_host_of_decodeHost hd
    exact hostCommand_keeps_canonical (s := takeCommand c rest s) h hw hx
  · cases hx; exact h
  · cases hx; exact h

/-! ### The number MemRead answers -/

/-- The elements of LLUT are u16 numbers (R286). -/
theorem llut_lt (k : Nat) : llut k < 2 ^ 16 := by
  have htable : llutTable.all (fun v => decide (v < 2 ^ 16)) = true := rfl
  rw [llut, List.getD_eq_getElem?_getD]
  cases hk : llutTable[k]? with
  | none => decide
  | some v => exact of_decide_eq_true (List.all_eq_true.1 htable v (List.mem_of_getElem? hk))

theorem memRead_llut (s : State) (i : Nat) : (memRead s .llut i).toNat = llut i := by
  have hlt := llut_lt i
  exact (BitVec.toNat_ofNat _ _).trans (Nat.mod_eq_of_lt (by omega))

theorem memRead_phase {s : State} {p : Phase} (h : s.regs.phase = p) :
    (memRead s .reg 0).toNat = p.code.toNat :=
  h ▸ BitVec.toNat_setWidth_of_le (by decide)

theorem memRead_err {s : State} {e : ErrCode} (h : s.regs.err = e) : (memRead s .reg 3).toNat = e.code.toNat :=
  h ▸ BitVec.toNat_setWidth_of_le (by decide)

/-- Settles O17: every answer but LLUT's is an element or a register extended to the data word, and LLUT's fit it. -/
theorem memReadKeepsTheNumber : Obligations.MemReadKeepsTheNumber := by
  intro s i
  have sext {w : Nat} (x : BitVec w) (h : w ≤ 64 := by decide) : (x.signExtend 64).toInt = x.toInt :=
    BitVec.toInt_signExtend_of_le h
  have zext {w : Nat} (x : BitVec w) (h : w ≤ 64 := by decide) : (x.setWidth 64).toNat = x.toNat :=
    BitVec.toNat_setWidth_of_le h
  exact ⟨
    -- The signed spaces and `CORR_BITS`, then the unsigned spaces and LLUT (R30).
    sext _, sext _, sext _, sext _, sext _, sext _, sext _, sext _,
    zext _, zext _, zext _, zext _, zext _, zext _, zext _, zext _, memRead_llut s i,
    -- `PHASE`, `SEQ`, `STATUS`, `ERR` and REG[4..8] (R24).
    memRead_phase, memRead_phase, memRead_phase, memRead_phase, zext _, zext _,
    memRead_err, memRead_err, memRead_err, memRead_err, memRead_err, memRead_err, memRead_err,
    zext _, zext _, zext _, zext _, zext _,
    -- CFG[0..15] and CFG[17] (R40).
    zext _, zext _, zext _, zext _, zext _, zext _, zext _, zext _, zext _,
    zext _, zext _, zext _, zext _, zext _, zext _, zext _, zext _⟩

end Sys2Proof.Machine
end

section
/-! The encoding (30_encoding.md): a code is accepted exactly when it holds the fields of an instruction's own row (R103,
R104). The round trips and the match and mask rule follow from that equivalence and from what the fields of a word are. -/

namespace Sys2Proof.Laws

/-! ### What the decoder accepts -/

theorem bareCommand_ok_iff (space arg : Nat) (i j : Instr) :
    bareCommand space arg i = .ok j ↔ space = 0 ∧ arg = 0 ∧ i = j := by
  unfold bareCommand
  split_ifs <;> simp_all

theorem argCommand_ok_iff (space : Nat) (i j : Instr) :
    argCommand space i = .ok j ↔ space = 0 ∧ i = j := by
  unfold argCommand
  split_ifs <;> simp_all

/-- A word is read as the one host command whose row has the word's three fields (R101, R103). -/
theorem decodeHost_ok_iff (w : HostWord) (i : Instr) :
    decodeHost w = .ok i ↔
      (∃ w', encode i = .host w') ∧ hasFields (.host w) (rowFields i).1 (rowFields i).2.1 (rowFields i).2.2 := by
  constructor
  · intro h
    refine ⟨Machine.encode_host_of_decodeHost h, ?_⟩
    simp only [decodeHost] at h
    split at h
    case h_1 hop | h_4 hop | h_6 hop | h_8 hop =>
      obtain ⟨hspace, harg, rfl⟩ := (bareCommand_ok_iff _ _ _ _).1 h
      exact ⟨hop, hspace, harg⟩
    case h_2 hop | h_5 hop =>
      obtain ⟨hspace, rfl⟩ := (argCommand_ok_iff _ _ _).1 h
      exact ⟨hop, hspace, rfl⟩
    case h_3 hop | h_7 hop =>
      cases h
      exact ⟨hop, rfl, rfl⟩
    case h_9 => cases h
  · rintro ⟨⟨w', hw'⟩, hop, hspace, harg⟩
    cases i with
    | wFill | wApply | wSlide | shCalc | xReq | fbEnergy | fbAcc | fbSqrt | nrApply | gcApply | lsApply | seqEnd =>
      cases hw'
    | nop | commit | rst | clr =>
      simp only [rowFields] at hop hspace harg
      simp only [decodeHost, hop, bareCommand_ok_iff]
      exact ⟨hspace, harg, trivial⟩
    | cfgwr index | proc count =>
      simp only [rowFields] at hop hspace harg
      simp only [decodeHost, hop, argCommand_ok_iff]
      exact ⟨hspace, by rw [harg]⟩
    | tblwr space index | rd space index =>
      simp only [rowFields] at hop hspace harg
      simp only [decodeHost, hop, hspace, harg]

/-- A ROM byte is read as the one micro-operation whose row has the byte's two fields (R102, R104). -/
theorem decodeMicro_ok_iff (c : MicroCode) (i : Instr) :
    decodeMicro c = .ok i ↔
      (∃ c', encode i = .micro c') ∧ hasFields (.micro c) (rowFields i).1 (rowFields i).2.1 (rowFields i).2.2 := by
  constructor
  · intro h
    unfold decodeMicro at h
    split at h
    · cases h
    · next hhigh =>
      split at h <;> cases h
      all_goals next hlow => exact ⟨⟨_, rfl⟩, not_not.1 hhigh, hlow, rfl⟩
  · rintro ⟨⟨c', hc'⟩, hhigh, hlow, -⟩
    cases i with
    | nop | cfgwr _ | tblwr _ _ | commit | proc _ | rst | rd _ _ | clr => cases hc'
    | wFill | wApply | wSlide | shCalc | xReq | fbEnergy | fbAcc | fbSqrt | nrApply | gcApply | lsApply | seqEnd =>
      simp only [rowFields] at hhigh hlow
      simp [decodeMicro, hhigh, hlow]

/-! ### The fields of a code -/

theorem encodedFields (i : Instr) : EncodedFields.Statement i := by
  cases i with
  | nop => exact EncodedFields.nop
  | cfgwr index => exact EncodedFields.cfgwr index
  | tblwr space index => exact EncodedFields.tblwr space index
  | commit => exact EncodedFields.commit
  | proc count => exact EncodedFields.proc count
  | rst => exact EncodedFields.rst
  | rd space index => exact EncodedFields.rd space index
  | clr => exact EncodedFields.clr
  | wFill => exact EncodedFields.wFill
  | wApply => exact EncodedFields.wApply
  | wSlide => exact EncodedFields.wSlide
  | shCalc => exact EncodedFields.shCalc
  | xReq => exact EncodedFields.xReq
  | fbEnergy => exact EncodedFields.fbEnergy
  | fbAcc => exact EncodedFields.fbAcc
  | fbSqrt => exact EncodedFields.fbSqrt
  | nrApply => exact EncodedFields.nrApply
  | gcApply => exact EncodedFields.gcApply
  | lsApply => exact EncodedFields.lsApply
  | seqEnd => exact EncodedFields.seqEnd

theorem field_lt {n : Nat} (w : BitVec n) (hi lo : Nat) : field w hi lo < 2 ^ (hi + 1 - lo) :=
  Nat.mod_lt _ (Nat.two_pow_pos _)

/-- The three fields cover all 32 bits (R101). -/
theorem hostWord_of_fields (w : HostWord) : hostWord (field w 31 24) (field w 23 16) (field w 15 0) = w := by
  have hw : w.toNat < 2 ^ 32 := w.isLt
  refine BitVec.eq_of_toNat_eq ?_
  simp only [hostWord, field, BitVec.toNat_ofNat]
  omega

/-- Under the high nibble 1 the low nibble is the index k of the code (R102). -/
theorem microCode_of_fields (c : MicroCode) (hhigh : field c 7 4 = 1) : microCode (field c 3 0) = c := by
  have hc : c.toNat < 2 ^ 8 := c.isLt
  refine BitVec.eq_of_toNat_eq ?_
  simp only [microCode, field, BitVec.toNat_ofNat] at hhigh ⊢
  omega

theorem encode_host_eq {i : Instr} {w : HostWord} (h : encode i = .host w) :
    w = hostWord (rowFields i).1 (rowFields i).2.1 (rowFields i).2.2 := by
  cases i <;> cases h <;> rfl

theorem encode_micro_eq {i : Instr} {c : MicroCode} (h : encode i = .micro c) :
    c = microCode (rowFields i).2.1 := by
  cases i <;> cases h <;> rfl

/-- The two operand fields of its row are all of an instruction's operands (R100, R106). -/
theorem wellFormed_of_rowFields_lt {i : Instr} (hspace : (rowFields i).2.1 < 256) (harg : (rowFields i).2.2 < 65536) :
    i.wellFormed = true := by
  cases i with
  | cfgwr index | proc count => exact decide_eq_true harg
  | tblwr space index | rd space index => exact Bool.and_eq_true_iff.2 ⟨decide_eq_true hspace, decide_eq_true harg⟩
  | nop | commit | rst | clr => rfl
  | wFill | wApply | wSlide | shCalc | xReq | fbEnergy | fbAcc | fbSqrt | nrApply | gcApply | lsApply | seqEnd => rfl

/-! ### The round trips -/

/-- Settles O1: the code of a well-formed instruction holds its row's fields, and the decoder asks for no more. -/
theorem decodeOfEncode : Obligations.DecodeOfEncode := by
  intro i hwf
  have hfields := encodedFields i hwf
  cases hcode : encode i with
  | host w =>
    rw [hcode] at hfields
    exact (decodeHost_ok_iff w i).2 ⟨⟨w, hcode⟩, hfields⟩
  | micro c =>
    rw [hcode] at hfields
    exact (decodeMicro_ok_iff c i).2 ⟨⟨c, hcode⟩, hfields⟩

/-- Settles O2: what is accepted holds its row's fields, and a code is determined by its fields. -/
theorem encodeOfDecode : Obligations.EncodeOfDecode := by
  constructor
  · intro w i h
    obtain ⟨⟨w', hw'⟩, hop, hspace, harg⟩ := (decodeHost_ok_iff w i).1 h
    refine ⟨?_, wellFormed_of_rowFields_lt (hspace ▸ field_lt w 23 16) (harg ▸ field_lt w 15 0)⟩
    rw [hw', encode_host_eq hw', ← hop, ← hspace, ← harg, hostWord_of_fields]
  · intro c i h
    obtain ⟨⟨c', hc'⟩, hhigh, hlow, harg⟩ := (decodeMicro_ok_iff c i).1 h
    have hindex : (rowFields i).1 = 1 := by cases i <;> cases hc' <;> rfl
    have hk : (rowFields i).2.1 < 256 := hlow ▸ (field_lt c 3 0).trans (by decide)
    refine ⟨?_, wellFormed_of_rowFields_lt hk (harg ▸ by decide)⟩
    rw [hc', encode_micro_eq hc', ← hlow, microCode_of_fields c (hhigh.trans hindex)]

/-! ### Match and mask -/

/-- A mask of all bits from k up compares what stands above bit k, when the match is 0 below it. -/
theorem and_highMask_eq_iff (w m : HostWord) (k : Nat) (hm : m.toNat % 2 ^ k = 0) :
    w &&& (BitVec.allOnes 32 <<< k) = m ↔ w.toNat / 2 ^ k = m.toNat / 2 ^ k := by
  have hmasked : (w &&& (BitVec.allOnes 32 <<< k)).toNat = w.toNat / 2 ^ k * 2 ^ k := by
    rw [← BitVec.shiftLeft_ushiftRight, BitVec.toNat_shiftLeft, BitVec.toNat_ushiftRight, Nat.shiftLeft_eq,
      Nat.shiftRight_eq_div_pow]
    exact Nat.mod_eq_of_lt ((Nat.div_mul_le_self _ _).trans_lt w.isLt)
  rw [← BitVec.toNat_inj, hmasked]
  nth_rewrite 1 [← Nat.div_mul_cancel (Nat.dvd_of_mod_eq_zero hm)]
  exact Nat.mul_left_inj (Nat.two_pow_pos k).ne'

/-- The mask of a command without operands (R103). -/
theorem and_fullMask_eq_iff (w : HostWord) (op : Nat) (ho : op < 256) :
    w &&& 0xFFFFFFFF#32 = hostWord op 0 0 ↔ field w 31 24 = op ∧ field w 23 16 = 0 ∧ field w 15 0 = 0 := by
  have hw : w.toNat < 2 ^ 32 := w.isLt
  rw [show (0xFFFFFFFF#32) = BitVec.allOnes 32 <<< 0 from rfl, and_highMask_eq_iff _ _ _ (Nat.mod_one _)]
  simp only [hostWord, field, BitVec.toNat_ofNat]
  omega

/-- The mask of a command with an `ARG` operand only (R103). -/
theorem and_opSpaceMask_eq_iff (w : HostWord) (op : Nat) (ho : op < 256) :
    w &&& 0xFFFF0000#32 = hostWord op 0 0 ↔ field w 31 24 = op ∧ field w 23 16 = 0 := by
  have hw : w.toNat < 2 ^ 32 := w.isLt
  have hm : (hostWord op 0 0).toNat % 2 ^ 16 = 0 := by
    simp only [hostWord, BitVec.toNat_ofNat]; omega
  rw [show (0xFFFF0000#32) = BitVec.allOnes 32 <<< 16 from rfl, and_highMask_eq_iff _ _ _ hm]
  simp only [hostWord, field, BitVec.toNat_ofNat]
  omega

/-- The mask of a command with both operands (R103). -/
theorem and_opMask_eq_iff (w : HostWord) (op : Nat) (ho : op < 256) :
    w &&& 0xFF000000#32 = hostWord op 0 0 ↔ field w 31 24 = op := by
  have hw : w.toNat < 2 ^ 32 := w.isLt
  have hm : (hostWord op 0 0).toNat % 2 ^ 24 = 0 := by
    simp only [hostWord, BitVec.toNat_ofNat]; omega
  rw [show (0xFF000000#32) = BitVec.allOnes 32 <<< 24 from rfl, and_highMask_eq_iff _ _ _ hm]
  simp only [hostWord, field, BitVec.toNat_ofNat]
  omega

/-- A command is read exactly when the word holds its row's fields; those that name an operand hold of themselves. -/
theorem decodeHost_ok_iff_of_host {w w' : HostWord} {i : Instr} (h : encode i = .host w') :
    decodeHost w = .ok i ↔
      field w 31 24 = (rowFields i).1 ∧ field w 23 16 = (rowFields i).2.1 ∧ field w 15 0 = (rowFields i).2.2 := by
  rw [decodeHost_ok_iff]
  exact and_iff_right ⟨w', h⟩

/-- Settles O3: each mask keeps the fields in which the row of R103 leaves no operand, and the match gives their values. -/
theorem hostWordSelectedByMatchAndMask : Obligations.HostWordSelectedByMatchAndMask := by
  intro w
  have bare {w' : HostWord} {i : Instr} (h : encode i = .host w') (op : Nat) (hop : op < 256)
      (hrow : rowFields i = (op, 0, 0)) : decodeHost w = .ok i ↔ w &&& 0xFFFFFFFF#32 = hostWord op 0 0 := by
    rw [decodeHost_ok_iff_of_host h, and_fullMask_eq_iff w op hop, hrow]
  have argOnly {w' : HostWord} {i : Instr} (h : encode i = .host w') (op : Nat) (hop : op < 256)
      (hrow : rowFields i = (op, 0, field w 15 0)) :
      decodeHost w = .ok i ↔ w &&& 0xFFFF0000#32 = hostWord op 0 0 := by
    rw [decodeHost_ok_iff_of_host h, and_opSpaceMask_eq_iff w op hop, hrow]
    simp only [and_true]
  have both {w' : HostWord} {i : Instr} (h : encode i = .host w') (op : Nat) (hop : op < 256)
      (hrow : rowFields i = (op, field w 23 16, field w 15 0)) :
      decodeHost w = .ok i ↔ w &&& 0xFF000000#32 = hostWord op 0 0 := by
    rw [decodeHost_ok_iff_of_host h, and_opMask_eq_iff w op hop, hrow]
    simp only [and_true]
  exact ⟨bare rfl 0 (by decide) rfl, argOnly rfl 1 (by decide) rfl, both rfl 2 (by decide) rfl,
    bare rfl 3 (by decide) rfl, argOnly rfl 4 (by decide) rfl, bare rfl 5 (by decide) rfl,
    both rfl 6 (by decide) rfl, bare rfl 7 (by decide) rfl⟩

/-- Settles O5: the decoder evaluated on each word. -/
theorem writtenWordsDecode : Obligations.WrittenWordsDecode :=
  ⟨by decide, by decide, by decide, by decide, by decide, by decide, by decide⟩

end Sys2Proof.Laws
end

section
/-! A whole `PROC` and `FEED` (30_encoding.md R111, 47_frontend_commands.md R317 to R321, R333). From a state with the
invariant no micro-operation stops, so the micro-program runs to `SEQ.END`; what a `PROC` returns is then said once, and
`FEED` is an induction over its commands. -/

namespace Sys2Proof.Machine

/-! ### No micro-operation stops -/

theorem ConfigLegal.nchan_pos {g : Cfg} {t : Tables} (h : ConfigLegal g t) : 1 ≤ g.nchan.toNat := by
  rw [ConfigLegal, firstFailure_none_iff] at h
  simp only [commitChecks, List.forall_mem_cons, decide_eq_true_eq] at h
  obtain ⟨-, -, -, -, -, -, hchan, -⟩ := h
  exact hchan

theorem ConfigLegal.fractionsLegal {g : Cfg} {t : Tables} (h : ConfigLegal g t) : fractionsLegal g = true := by
  rw [ConfigLegal, firstFailure_none_iff] at h
  simp only [commitChecks, List.forall_mem_cons] at h
  obtain ⟨-, -, -, -, -, -, -, -, -, -, -, -, hfractions, -⟩ := h
  exact hfractions

/-- A coefficient `TBLWR` accepts is at most 1.0, so the window product keeps to the sample's range (R138). -/
theorem fitsSigned_windowValue {s : State} (h : s.tables.Legal) (i : Nat) : fitsSigned 16 (windowValue s i) = true := by
  obtain ⟨hc0, hc1⟩ := h.coef i
  have hlo := BitVec.le_toInt (Memory.read s.bufs.inp i)
  have hhi := BitVec.toInt_lt (x := Memory.read s.bufs.inp i)
  norm_num at hlo hhi
  rw [fitsSigned_windowValue_iff]
  constructor <;> nlinarith

theorem energyAt_le {s : State} (h : ∀ k, (Memory.read s.bufs.energy k).toNat ≤ 2 ^ 31) (k : Nat) :
    energyAt s k ≤ 2 ^ 31 := by
  unfold energyAt
  split
  · exact h k
  · exact Nat.zero_le _

/-- One term of a band's sum: a weight of at most 2^12 times an energy of at most 2^31. -/
theorem weighted_bounds {x e : Int} (hx0 : 0 ≤ x) (hx : x ≤ 4096) (he0 : 0 ≤ e) (he : e ≤ 2 ^ 31) :
    0 ≤ x * e ∧ x * e ≤ 2 ^ 43 :=
  ⟨mul_nonneg hx0 he0, (mul_le_mul hx he he0 (by decide)).trans (by decide)⟩

theorem bandLoop_bounds {s : State} (hl : s.tables.Legal) (he : ∀ k, (Memory.read s.bufs.energy k).toNat ≤ 2 ^ 31)
    (b : Nat) {carry : Int} (hc : 0 ≤ carry) (n : Nat) :
    (0 ≤ (bandLoop s b carry n).1 ∧ (bandLoop s b carry n).1 ≤ carry + n * 2 ^ 43) ∧
      0 ≤ (bandLoop s b carry n).2 ∧ (bandLoop s b carry n).2 ≤ n * 2 ^ 43 := by
  induction n with
  | zero => simpa [bandLoop] using hc
  | succ j ih =>
    obtain ⟨⟨hw0, hw⟩, hu0, hu⟩ := ih
    have he0 : (0 : Int) ≤ energyAt s ((Memory.read s.tables.fstart b).toNat + j) := Int.natCast_nonneg _
    have he1 : (energyAt s ((Memory.read s.tables.fstart b).toNat + j) : Int) ≤ 2 ^ 31 := mod_cast energyAt_le he _
    obtain ⟨hwl, hwh⟩ := hl.weight ((Memory.read s.tables.wstart b).toNat + j)
    obtain ⟨hul, huh⟩ := hl.unweight ((Memory.read s.tables.wstart b).toNat + j)
    have hwt := weighted_bounds hwl hwh he0 he1
    have hut := weighted_bounds hul huh he0 he1
    simp only [bandLoop, Nat.cast_succ]
    omega

theorem Tables.Legal.width_le {t : Tables} (h : t.Legal) (b : Nat) : (Memory.read t.width b).toNat ≤ 32767 := by
  obtain ⟨hlo, hhi⟩ := h.width b
  have hcond := BitVec.toInt_eq_toNat_cond (Memory.read t.width b)
  split at hcond <;> omega

/-- A band is at most 32767 entries wide (R313), and the carry is a sum over the band before (R185, R188). -/
theorem bandAcc_bounds {s : State} (hl : s.tables.Legal) (he : ∀ k, (Memory.read s.bufs.energy k).toNat ≤ 2 ^ 31)
    (b : Nat) :
    (0 ≤ (bandAcc s b).1 ∧ (bandAcc s b).1 < 2 ^ 59) ∧ 0 ≤ (bandAcc s b).2 ∧ (bandAcc s b).2 < 2 ^ 58 := by
  induction b with
  | zero =>
    have hloop := bandLoop_bounds hl he 0 le_rfl (Memory.read s.tables.width 0).toNat
    have := hl.width_le 0
    simp only [bandAcc]
    omega
  | succ b ih =>
    have hloop := bandLoop_bounds hl he (b + 1) ih.2.1 (Memory.read s.tables.width (b + 1)).toNat
    have := hl.width_le (b + 1)
    simp only [bandAcc]
    omega

theorem fetchMicro_isSome : ∀ seq : BitVec 4, seq.toNat < 12 → (fetchMicro seq).isSome = true := by
  decide

/-- Inside a `PROC` the micro-operation at `SEQ` answers: what could stop one is excluded by the ranges of the tables and
of the configuration and by the buffer being full when the window slides. -/
theorem exec_micro_answers {s : State} {i : Instr} (h : Inv s) (ha : s.port.active ≠ none)
    (hf : fetchMicro s.regs.seq = some i) : ∃ t, exec i s = .next t := by
  have hw := h.working (h.disciplined.activePhase ha)
  have hbounds := hw.configLegal.bounds
  rcases fetchMicro_cases hf with ⟨hs, rfl⟩ | ⟨-, rfl⟩ | ⟨-, rfl⟩ | ⟨hs, rfl⟩ | ⟨-, rfl⟩ | ⟨-, rfl⟩ | ⟨-, rfl⟩ |
    ⟨-, rfl⟩ | ⟨-, rfl⟩ | ⟨-, rfl⟩ | ⟨-, rfl⟩ | ⟨-, rfl⟩
  · obtain ⟨hused, -⟩ := h.disciplined.waiting (h.awaitingFrame_of_seq ha hs)
    exact ⟨_, if_neg (not_lt.2 hused.le)⟩
  · exact ⟨_, rfl⟩
  · exact ⟨_, if_pos (by simp [fitsSigned_windowValue h.tablesLegal])⟩
  · have hp := h.frameReady_of_seq ha (by rw [hs]; decide)
    obtain ⟨-, -, hused⟩ := h.disciplined.inFrame hp
    rw [hs, if_pos (by decide)] at hused
    have hstep := hbounds.step_le_size
    exact ⟨_, if_neg (by omega)⟩
  · exact ⟨_, rfl⟩
  · exact ⟨_, rfl⟩
  · exact ⟨_, rfl⟩
  · refine ⟨_, if_pos (List.all_eq_true.2 fun b _ => (fitsUnsigned_iff 64 _).2 ?_)⟩
    obtain ⟨⟨h0, h1⟩, -⟩ := bandAcc_bounds h.tablesLegal hw.energy b
    exact ⟨h0, h1.trans (by decide)⟩
  · exact ⟨_, rfl⟩
  · exact ⟨_, if_pos hw.configLegal.fractionsLegal⟩
  · by_cases hgc : s.cfg.gcEnable = 1
    · exact ⟨_, if_pos hgc⟩
    · exact ⟨_, if_neg hgc⟩
  · exact ⟨_, rfl⟩

/-! ### The micro-program of a frame -/

/-- Between the fill and `SEQ.END` a micro-operation leaves `PHASE`, `CONSUMED` and the port (R318). -/
theorem exec_frame_keeps {s t : State} {i : Instr} (hf : fetchMicro s.regs.seq = some i)
    (hseq : 1 ≤ s.regs.seq.toNat ∧ s.regs.seq.toNat ≤ 10) (hx : exec i s = .next t) :
    t.regs.phase = s.regs.phase ∧ t.regs.consumed = s.regs.consumed ∧ t.port = s.port := by
  rcases fetchMicro_cases hf with ⟨hs, -⟩ | ⟨hs, -⟩ | ⟨-, rfl⟩ | ⟨-, rfl⟩ | ⟨-, rfl⟩ | ⟨-, rfl⟩ | ⟨-, rfl⟩ |
    ⟨-, rfl⟩ | ⟨-, rfl⟩ | ⟨-, rfl⟩ | ⟨-, rfl⟩ | ⟨-, rfl⟩
  · rw [hs] at hseq; exact absurd hseq (by decide)
  · rw [hs] at hseq; exact absurd hseq (by decide)
  · obtain ⟨-, rfl⟩ := execWApply_next hx; exact ⟨rfl, rfl, rfl⟩
  · obtain ⟨-, -, rfl⟩ := execWSlide_next hx; exact ⟨rfl, rfl, rfl⟩
  · cases hx; exact ⟨rfl, rfl, rfl⟩
  · cases hx; exact ⟨rfl, rfl, rfl⟩
  · cases hx; exact ⟨rfl, rfl, rfl⟩
  · obtain ⟨-, rfl⟩ := execFbAcc_next hx; exact ⟨rfl, rfl, rfl⟩
  · cases hx; exact ⟨rfl, rfl, rfl⟩
  · obtain ⟨-, rfl⟩ := execNrApply_next hx; exact ⟨rfl, rfl, rfl⟩
  · obtain rfl | rfl := execGcApply_next hx <;> exact ⟨rfl, rfl, rfl⟩
  · cases hx; exact ⟨rfl, rfl, rfl⟩

theorem runCommand_continue {s t : State} (n : Nat) (hx : step s = .next t) (ha : t.port.active ≠ none) :
    runCommand (n + 1) s = runCommand n t := by
  simp [runCommand, hx, Option.isSome_iff_ne_none.2 ha]

theorem runCommand_return {s t : State} (n : Nat) (hx : step s = .next t) (ha : t.port.active = none) :
    runCommand (n + 1) s = .next t := by
  simp [runCommand, hx, ha]

/-- What a `PROC` leaves on either exit: the block waiting again, with the invariant, the configuration as it was. -/
structure Returned (s t : State) : Prop where
  inv   : Inv t
  idle  : t.port.active = none
  phase : t.regs.phase = .awaitingFrame
  cfg   : t.cfg = s.cfg

/-- `SEQ.END` ends the `PROC` on either exit, with the features of a frame it finished (R319). -/
theorem runCommand_seqEnd (k : Nat) {s : State} {n : Nat} (h : Inv s) (hn : s.port.active = some n)
    (hseq : s.regs.seq = 11) :
    ∃ t, runCommand (k + 1) s = .next t ∧ Returned s t ∧ t.regs.consumed = s.regs.consumed ∧
      t.regs.inputUsed = s.regs.inputUsed ∧
      t.regs.nfeat = if s.regs.phase = .frameReady then s.cfg.nchan else s.regs.nfeat := by
  have ha : s.port.active ≠ none := by rw [hn]; nofun
  obtain ⟨t, hx⟩ : ∃ t, execSeqEnd s = .next t := ⟨_, rfl⟩
  have hrun := (step_running s n .seqEnd hn (by rw [hseq]; rfl)).trans hx
  have hinv := inv_execSeqEnd h ha hseq hx
  obtain ⟨hp, rfl⟩ | ⟨hp, rfl⟩ := execSeqEnd_next hx
  · exact ⟨_, runCommand_return k hrun rfl, ⟨hinv, rfl, rfl, rfl⟩, rfl, rfl, (if_pos hp).symm⟩
  · have hwaiting := (s.regs.phase.configured_iff.1 (h.disciplined.activePhase ha)).resolve_right hp
    exact ⟨_, runCommand_return k hrun rfl, ⟨hinv, rfl, hwaiting, rfl⟩, rfl, rfl, (if_neg hp).symm⟩

/-- A frame in progress whose remaining k + 1 micro-operations are allowed for is finished: its features are published,
and of its samples the overlap is kept (R135, R319). -/
theorem runCommand_frame (k : Nat) (s : State) (h : Inv s) (ha : s.port.active ≠ none)
    (hp : s.regs.phase = .frameReady) (hk : s.regs.seq.toNat + k = 11) :
    ∃ t, runCommand (k + 1) s = .next t ∧ Returned s t ∧ t.regs.consumed = s.regs.consumed ∧
      t.regs.nfeat = s.cfg.nchan ∧ t.regs.inputUsed.toNat = s.cfg.size.toNat - s.cfg.step.toNat := by
  obtain ⟨hseq, -, hused⟩ := h.disciplined.inFrame hp
  obtain ⟨n, hn⟩ := Option.ne_none_iff_exists'.1 ha
  induction k generalizing s with
  | zero =>
    have hlast : s.regs.seq = 11 := BitVec.eq_of_toNat_eq (by simpa using hk)
    rw [if_neg (by omega)] at hused
    obtain ⟨t, ht, hret, htc, htu, htn⟩ := runCommand_seqEnd 0 h hn hlast
    exact ⟨t, ht, hret, htc, htn.trans (if_pos hp), by rw [htu, hused]⟩
  | succ k ih =>
    obtain ⟨i, hf⟩ := Option.isSome_iff_exists.1 (fetchMicro_isSome s.regs.seq (by omega))
    obtain ⟨u, hx⟩ := exec_micro_answers h ha hf
    have hrun := (step_running s n i hn hf).trans hx
    have hinv := inv_micro h ha hf hx
    obtain ⟨c, hc⟩ := encode_micro_of_fetchMicro hf
    obtain ⟨hcfg, -⟩ := microOpsKeepTheConfiguration s u i c hc hx
    obtain ⟨hphase, hconsumed, hport⟩ := exec_frame_keeps hf ⟨hseq, by omega⟩ hx
    have hk' : u.regs.seq.toNat + k = 11 := by
      obtain ⟨h0, -⟩ | ⟨h11, -⟩ | ⟨-, -, hnext⟩ := exec_micro_seq hf hx
      · rw [h0] at hseq; exact absurd hseq (by decide)
      · rw [h11] at hk; exact absurd hk (by simp)
      · rw [hnext, BitVec.toNat_add]; simp; omega
    have hau : u.port.active ≠ none := by rwa [hport]
    obtain ⟨hsequ, -, husedu⟩ := hinv.disciplined.inFrame (hphase.trans hp)
    obtain ⟨t, ht, hret, htc, htn, htu⟩ :=
      ih u hinv hau (hphase.trans hp) hk' hsequ husedu (hport ▸ hn)
    exact ⟨t, (runCommand_continue _ hrun hau).trans ht, { hret with cfg := hret.cfg.trans hcfg },
      htc.trans hconsumed, htn.trans (congrArg Cfg.nchan hcfg), by rw [htu, hcfg]⟩

/-! ### A whole PROC -/

/-- R131, R319, R321: an idle block waiting for samples consumes what it still needs of `n` samples; a frame it can
complete gives its features and keeps the overlap, else it has only gathered. -/
structure ProcReturned (s t : State) (n : Nat) : Prop extends Returned s t where
  consumed : t.regs.consumed.toNat = min n (s.cfg.size.toNat - s.regs.inputUsed.toNat)
  gathered : s.regs.inputUsed.toNat + n < s.cfg.size.toNat →
    t.regs.nfeat = 0 ∧ t.regs.inputUsed.toNat = s.regs.inputUsed.toNat + n
  framed   : s.cfg.size.toNat ≤ s.regs.inputUsed.toNat + n →
    t.regs.nfeat = s.cfg.nchan ∧ t.regs.inputUsed.toNat = s.cfg.size.toNat - s.cfg.step.toNat

/-- From `W.FILL` on, with the 12 steps the micro-program can take. -/
theorem runCommand_microProgram {s : State} {n : Nat} (h : Inv s) (hn : s.port.active = some n)
    (hseq : s.regs.seq = 0) (hnfeat : s.regs.nfeat = 0) :
    ∃ t, runCommand 12 s = .next t ∧ ProcReturned s t n := by
  have ha : s.port.active ≠ none := by rw [hn]; nofun
  have hp := h.awaitingFrame_of_seq ha hseq
  obtain ⟨hused, -⟩ := h.disciplined.waiting hp
  have hf : fetchMicro s.regs.seq = some .wFill := by rw [hseq]; rfl
  have hcount : s.port.count = n := by rw [Port.count, hn]; rfl
  have hfill : fillCount s = min n (s.cfg.size.toNat - s.regs.inputUsed.toNat) := by rw [fillCount, hcount]
  have hsize : s.cfg.size.toNat < 2 ^ 16 := s.cfg.size.isLt
  obtain ⟨u, hx⟩ := exec_micro_answers h ha hf
  have hinv := inv_micro h ha hf hx
  have hrun := (step_running s n .wFill hn hf).trans hx
  have hconsumed : (BitVec.ofNat 16 (fillCount s)).toNat = fillCount s := by
    rw [BitVec.toNat_ofNat]
    exact Nat.mod_eq_of_lt (by omega)
  obtain ⟨-, ⟨hready, rfl⟩ | ⟨hshort, rfl⟩⟩ := execWFill_next hx
  · obtain ⟨t, ht, hret, htc, htn, htu⟩ := runCommand_frame 10 _ hinv ha rfl rfl
    exact ⟨t, (runCommand_continue 11 hrun ha).trans ht,
      { hret with
        cfg := hret.cfg
        consumed := by rw [htc, hconsumed, hfill]
        gathered := by omega
        framed := fun _ => ⟨htn, htu⟩ }⟩
  · obtain ⟨t, ht, hret, htc, htu, htn⟩ := runCommand_seqEnd 10 hinv hn rfl
    have hleft : (BitVec.ofNat 16 (s.regs.inputUsed.toNat + fillCount s)).toNat
        = s.regs.inputUsed.toNat + fillCount s := by
      rw [BitVec.toNat_ofNat]
      exact Nat.mod_eq_of_lt (by omega)
    have hwaiting : s.regs.phase ≠ .frameReady := by rw [hp]; decide
    exact ⟨t, (runCommand_continue 11 hrun ha).trans ht,
      { hret with
        cfg := hret.cfg
        consumed := by rw [htc, hconsumed, hfill]
        gathered := fun _ => ⟨htn.trans ((if_neg hwaiting).trans hnfeat), by rw [htu, hleft]; omega⟩
        framed := by omega }⟩

theorem decodeHost_procCommand {xs : List Sample} (h : xs.length < 65536) :
    decodeHost (procCommand xs).word = .ok (.proc xs.length) :=
  Laws.decodeOfEncode (.proc xs.length) (decide_eq_true h)

/-- `PROC` from any idle block that waits for samples returns (R317 to R321). -/
theorem command_proc {s : State} {xs : List Sample} (h : Inv s) (ha : s.port.active = none)
    (hp : s.regs.phase = .awaitingFrame) (hlen : xs.length < 65536) :
    ∃ t, command (procCommand xs) s = .next t ∧ ProcReturned s t xs.length := by
  have htaken : Inv (takeCommand (procCommand xs) s.port.queue (s.issue (procCommand xs))) :=
    h.of_err_port s.regs.err _ s.freeCtr rfl
  obtain ⟨u, hx⟩ : ∃ u, execProc xs.length (takeCommand (procCommand xs) s.port.queue (s.issue (procCommand xs)))
      = .next u := ⟨_, if_neg (not_not.2 hp)⟩
  have hrun := (step_command (s.issue (procCommand xs)) _ _ _ ha rfl (decodeHost_procCommand hlen)).trans hx
  have hinv := inv_execProc htaken hx
  obtain ⟨hne, -⟩ | ⟨-, rfl⟩ := execProc_next hx
  · exact absurd hp hne
  · obtain ⟨t, ht, hret⟩ := runCommand_microProgram hinv rfl rfl rfl
    exact ⟨t, (runCommand_continue 12 hrun nofun).trans ht, { hret with cfg := hret.cfg }⟩

/-! ### FEED -/

/-- The frames in `total` samples, the buffered ones and the stream's (R136, R333). -/
def frameCount (size step total : Nat) : Nat :=
  if total < size then 0 else (total - size) / step + 1

theorem frameCount_of_lt {size step total : Nat} (h : total < size) : frameCount size step total = 0 :=
  if_pos h

/-- A frame taken off the stream leaves the frames of what remains, `step` samples shorter. -/
theorem frameCount_of_le {size step total : Nat} (hstep : 0 < step) (hle : step ≤ size) (h : size ≤ total) :
    frameCount size step total = frameCount size step (total - step) + 1 := by
  rw [frameCount, if_neg (not_lt.2 h), frameCount]
  split
  · rw [Nat.div_eq_of_lt (by omega)]
  · rw [Nat.div_eq_sub_div hstep (by omega), Nat.sub_right_comm]

theorem length_featureView (s : State) : (featureView s).length = s.regs.nfeat.toNat := by
  simp [featureView]

theorem feed_nil (n : Nat) (s : State) : feed n [] s = some (s, []) := by
  cases n <;> simp [feed]

theorem feed_cons {n : Nat} {xs : List Sample} {s t u : State} {views : List (List (BitVec 16))} (hne : xs ≠ [])
    (hc : command (procCommand (xs.take 65535)) s = .next t)
    (hf : feed n (xs.drop t.regs.consumed.toNat) t = some (u, views)) :
    feed (n + 1) xs s = some (u, if t.regs.nfeat = 0 then views else featureView t :: views) := by
  simp [feed, hne, hc, hf]

/-- What a `FEED` to an idle block that waits for samples leaves: the block waiting again, `NCHAN` features for every
frame of the buffered samples and the stream. -/
structure Fed (s t : State) (xs : List Sample) (views : List (List (BitVec 16))) : Prop extends Returned s t where
  frames   : views.length = frameCount s.cfg.size.toNat s.cfg.step.toNat (s.regs.inputUsed.toNat + xs.length)
  features : ∀ v ∈ views, v.length = s.cfg.nchan.toNat

theorem fed_nil {s : State} (h : Inv s) (ha : s.port.active = none) (hp : s.regs.phase = .awaitingFrame) :
    Fed s s [] [] where
  inv := h
  idle := ha
  phase := hp
  cfg := rfl
  frames := (frameCount_of_lt (h.disciplined.waiting hp).1).symm
  features := nofun

/-- One `PROC` and then the rest: it either takes the whole stream without completing a frame, or it completes one. -/
theorem Fed.cons {s t u : State} {xs : List Sample} {views : List (List (BitVec 16))} (h : Inv s)
    (hp : s.regs.phase = .awaitingFrame) (hret : ProcReturned s t (xs.take 65535).length)
    (hfed : Fed t u (xs.drop t.regs.consumed.toNat) views) :
    Fed s u xs (if t.regs.nfeat = 0 then views else featureView t :: views) := by
  obtain ⟨hused, -⟩ := h.disciplined.waiting hp
  have hlegal := (h.working (by rw [hp]; rfl)).configLegal
  have hsize : s.cfg.size.toNat < 2 ^ 16 := s.cfg.size.isLt
  have hconsumed := hret.consumed
  have hgathered := hret.gathered
  have hframed := hret.framed
  have hframes := hfed.frames
  have hfeatures := hfed.features
  rw [List.length_take] at hconsumed hgathered hframed
  rw [hret.cfg, List.length_drop] at hframes
  rw [hret.cfg] at hfeatures
  by_cases hshort : s.regs.inputUsed.toNat + xs.length < s.cfg.size.toNat
  · obtain ⟨hnfeat, hleft⟩ := hgathered (by omega)
    have htotal : t.regs.inputUsed.toNat + (xs.length - t.regs.consumed.toNat)
        = s.regs.inputUsed.toNat + xs.length := by omega
    rw [if_pos hnfeat]
    exact { hfed with cfg := hfed.cfg.trans hret.cfg, frames := htotal ▸ hframes, features := hfeatures }
  · obtain ⟨hnfeat, hleft⟩ := hframed (by omega)
    have hnonzero : t.regs.nfeat ≠ 0 := by
      intro h0
      have hpos := hlegal.nchan_pos
      rw [← hnfeat, h0] at hpos
      exact absurd hpos (by decide)
    have hstep := hlegal.bounds.step_pos
    have hstep' := hlegal.bounds.step_le_size
    have htotal : t.regs.inputUsed.toNat + (xs.length - t.regs.consumed.toNat)
        = s.regs.inputUsed.toNat + xs.length - s.cfg.step.toNat := by omega
    rw [if_neg hnonzero]
    refine { hfed with cfg := hfed.cfg.trans hret.cfg, frames := ?_, features := ?_ }
    · rw [List.length_cons, hframes, htotal, frameCount_of_le hstep hstep' (not_lt.1 hshort)]
    · exact List.forall_mem_cons.2 ⟨by rw [length_featureView, hnfeat], hfeatures⟩

/-- By the number of `PROC`s still allowed: the buffer is never full between commands, so each consumes a sample. -/
theorem feed_spec (n : Nat) (xs : List Sample) (s : State) (h : Inv s) (ha : s.port.active = none)
    (hp : s.regs.phase = .awaitingFrame) (hlen : xs.length ≤ n) :
    ∃ t views, feed n xs s = some (t, views) ∧ Fed s t xs views := by
  induction n generalizing xs s with
  | zero =>
    obtain rfl := List.eq_nil_of_length_eq_zero (Nat.le_zero.1 hlen)
    exact ⟨s, [], feed_nil 0 s, fed_nil h ha hp⟩
  | succ n ih =>
    by_cases hne : xs = []
    · subst hne
      exact ⟨s, [], feed_nil _ s, fed_nil h ha hp⟩
    · obtain ⟨t, hc, hret⟩ := command_proc (xs := xs.take 65535) h ha hp (by rw [List.length_take]; omega)
      have hprogress : (xs.drop t.regs.consumed.toNat).length ≤ n := by
        obtain ⟨hused, -⟩ := h.disciplined.waiting hp
        have hpos := List.length_pos_iff.2 hne
        have hconsumed := hret.consumed
        rw [List.length_take] at hconsumed
        rw [List.length_drop]
        omega
      obtain ⟨u, views, hf, hfed⟩ := ih _ t hret.inv hret.idle hret.phase hprogress
      exact ⟨u, _, feed_cons hne hc hf, hfed.cons h hp hret⟩

/-- Settles O57, from `feed_spec` for as many `PROC`s as there are samples, nothing being buffered. -/
theorem feedYieldsTheFrames : Obligations.FeedYieldsTheFrames := by
  intro s xs h ha hp hused
  obtain ⟨t, views, hf, hfed⟩ := feed_spec xs.length xs s h ha hp le_rfl
  have hframes := hfed.frames
  rw [show s.regs.inputUsed.toNat = 0 by rw [hused]; rfl, Nat.zero_add] at hframes
  exact ⟨t, views, hf, hframes, hfed.features, hfed.idle, hfed.phase⟩

end Sys2Proof.Machine
end

section
/-! Unit W (41_window.md): what the three micro-operations of the window buffer leave behind (R131 to R135), from what
each can answer and what a loop of writes does to a read. -/

namespace Sys2Proof.Machine

/-! ### The window product -/

/-- A coefficient of at most 1.0 moves the sample towards 0, the floor not past it (R138). -/
theorem windowValue_between {s : State} {i : Nat} (h0 : 0 ≤ (Memory.read s.tables.coef i).toInt)
    (h1 : (Memory.read s.tables.coef i).toInt ≤ 4096) :
    min 0 (Memory.read s.bufs.inp i).toInt ≤ windowValue s i ∧
      windowValue s i ≤ max 0 (Memory.read s.bufs.inp i).toInt := by
  have hfloor : windowValue s i = (Memory.read s.bufs.inp i).toInt * (Memory.read s.tables.coef i).toInt / 4096 := rfl
  rw [hfloor]
  obtain hneg | hpos := le_total (Memory.read s.bufs.inp i).toInt 0
  · have hlo := mul_le_mul_of_nonpos_left h1 hneg
    have hhi := mul_nonpos_of_nonpos_of_nonneg hneg h0
    omega
  · have hlo := mul_nonneg hpos h0
    have hhi := mul_le_mul_of_nonneg_left h1 hpos
    omega

/-- Settles O25, from where the product lies between 0 and the sample. -/
theorem windowProductFits : Obligations.WindowProductFits := by
  intro s i h0 h1
  have hbetween := windowValue_between h0 h1
  have hlo := BitVec.le_toInt (Memory.read s.bufs.inp i)
  have hhi := BitVec.toInt_lt (x := Memory.read s.bufs.inp i)
  rw [fitsSigned_iff]
  norm_num at hlo hhi ⊢
  omega

/-! ### W.APPLY -/

theorem natAbs_windowValue_le_peakOf (s : State) {n i : Nat} (hi : i < n) : (windowValue s i).natAbs ≤ peakOf s n := by
  induction n with
  | zero => exact absurd hi i.not_lt_zero
  | succ n ih =>
    obtain hlt | rfl := Nat.lt_succ_iff_lt_or_eq.1 hi
    · exact (ih hlt).trans (le_max_left _ _)
    · exact le_max_right _ _

theorem peakOf_attained (s : State) (n : Nat) :
    peakOf s n = 0 ∨ ∃ i, i < n ∧ (windowValue s i).natAbs = peakOf s n := by
  induction n with
  | zero => exact .inl rfl
  | succ n ih =>
    obtain hle | hle := le_total (windowValue s n).natAbs (peakOf s n)
    · rw [peakOf, max_eq_left hle]
      exact ih.imp_right fun ⟨i, hi, heq⟩ => ⟨i, hi.trans n.lt_succ_self, heq⟩
    · exact .inr ⟨n, n.lt_succ_self, (max_eq_right hle).symm⟩

/-- Settles O23: every product fits, so OUT holds the window values themselves and PEAK the largest magnitude. -/
theorem wApplyWindowsTheFrame : Obligations.WApplyWindowsTheFrame := by
  intro s hcoef
  have hfits (i : Nat) (hi : i < s.cfg.size.toNat) : fitsSigned 16 (windowValue s i) = true :=
    (windowProductFits s i (hcoef i hi).1 (hcoef i hi).2).1
  obtain ⟨t, hx⟩ : ∃ t, execWApply s = .next t := ⟨_, if_pos (by simpa using hfits)⟩
  obtain ⟨-, rfl⟩ := execWApply_next hx
  have hout (i : Nat) (hi : i < s.cfg.size.toNat) :
      (Memory.read (Memory.writeRange s.bufs.out 0 s.cfg.size.toNat fun j => BitVec.ofInt 16 (windowValue s j)) i).toInt
        = windowValue s i := by
    rw [Memory.read_writeRange, if_pos (by omega)]
    exact toInt_ofInt_of_fits _ (hfits i hi)
  have hpeak : (BitVec.ofNat 16 (peakOf s s.cfg.size.toNat)).toNat = peakOf s s.cfg.size.toNat := by
    have := peakOf_le hfits
    rw [BitVec.toNat_ofNat]
    exact Nat.mod_eq_of_lt (by omega)
  refine ⟨_, hx, fun i hi => ?floor, fun i hi => ?above, fun i hi => ?bound, ?attained, rfl⟩
  case floor =>
    rw [hout i hi, windowValue, windowBits]
    omega
  case above => rw [Memory.read_writeRange, if_neg (by omega)]
  case bound =>
    rw [hout i hi, hpeak]
    exact natAbs_windowValue_le_peakOf s hi
  case attained =>
    rw [hpeak]
    exact (peakOf_attained s _).imp_right fun ⟨i, hi, heq⟩ => ⟨i, hi, by rw [hout i hi, heq]⟩

/-! ### W.SLIDE -/

/-- Settles O26: what moves is read from the old buffer, STEP further on. -/
theorem wSlideDropsTheOldest : Obligations.WSlideDropsTheOldest := by
  refine ⟨rfl, rfl, fun s hsize hused => ?_⟩
  obtain ⟨t, hx⟩ : ∃ t, execWSlide s = .next t := ⟨_, if_neg (by omega)⟩
  obtain ⟨-, -, rfl⟩ := execWSlide_next hx
  refine ⟨_, hx, fun i => ?_, ?_, rfl⟩
  · rw [Memory.read_writeRange]
    exact if_congr (by omega) rfl rfl
  · have := s.regs.inputUsed.isLt
    rw [BitVec.toNat_ofNat, Nat.mod_eq_of_lt (by omega)]
    omega

/-! ### W.FILL -/

/-- A sample the host presented is the one `W.FILL` takes (R106). -/
theorem sampleAt_eq {s : State} {k : Nat} {v : Sample} (h : s.port.samples[k]? = some v) : sampleAt s k = v := by
  rw [sampleAt, h]

/-- The buffer takes no more than it has room for. -/
theorem inputUsed_add_fillCount_le {s : State} (h : s.regs.inputUsed.toNat ≤ s.cfg.size.toNat) :
    s.regs.inputUsed.toNat + fillCount s ≤ s.cfg.size.toNat := by
  have : fillCount s ≤ s.cfg.size.toNat - s.regs.inputUsed.toNat := min_le_right _ _
  omega

theorem toNat_ofNat_of_le_size {s : State} {n : Nat} (h : n ≤ s.cfg.size.toNat) : (BitVec.ofNat 16 n).toNat = n := by
  rw [BitVec.toNat_ofNat]
  exact Nat.mod_eq_of_lt (h.trans_lt s.cfg.size.isLt)

theorem execWFill_answers {s : State} (h : s.regs.inputUsed.toNat ≤ s.cfg.size.toNat) :
    ∃ t, execWFill s = .next t :=
  ⟨_, if_neg (not_lt.2 h)⟩

/-- Settles O22: the two exits differ in `SEQ` and `PHASE` only. -/
theorem wFillAppendsSamples : Obligations.WFillAppendsSamples := by
  intro s hused used size n
  have hroom : used + n ≤ size := inputUsed_add_fillCount_le hused
  have hsamples : ∀ k v, k < n → s.port.samples[k]? = some v →
      Memory.read (Memory.writeRange s.bufs.inp used n (sampleAt s)) (used + k) = v := by
    intro k v hk hv
    rw [Memory.read_writeRange, if_pos (by omega), Nat.add_sub_cancel_left]
    exact sampleAt_eq hv
  have hothers : ∀ i, i < used ∨ used + n ≤ i →
      Memory.read (Memory.writeRange s.bufs.inp used n (sampleAt s)) i = Memory.read s.bufs.inp i := by
    intro i hi
    rw [Memory.read_writeRange, if_neg (by omega)]
  have hconsumed : (BitVec.ofNat 16 n).toNat = n := toNat_ofNat_of_le_size ((Nat.le_add_left n used).trans hroom)
  have hleft : (BitVec.ofNat 16 (used + n)).toNat = used + n := toNat_ofNat_of_le_size hroom
  have hfree : n ≤ s.port.samples.length → s.freeCtr + (n - s.port.samples.length) = s.freeCtr := by omega
  obtain ⟨t, hx⟩ := execWFill_answers hused
  obtain ⟨-, ⟨hready, rfl⟩ | ⟨hshort, rfl⟩⟩ := execWFill_next hx
  · have hfull : ¬ used + n < size := not_lt.2 hready
    exact ⟨_, hx, hsamples, hothers, hconsumed, hleft, (if_neg hfull).symm, (if_neg hfull).symm, hfree, rfl⟩
  · exact ⟨_, hx, hsamples, hothers, hconsumed, hleft, (if_pos hshort).symm, (if_pos hshort).symm, hfree, rfl⟩

end Sys2Proof.Machine
end

section
/-! Chunking invariance (41_window.md R140): a `PROC` either gathers its samples or completes a frame, and both results
depend on the block's signal path and on the samples alone. `FEED` is then a relation between such signal paths in which
neither the cut of the stream into commands nor their number appears, and that relation composes. -/

namespace Sys2Proof.Machine

/-! ### Loops of writes -/

theorem Memory.writeRange_congr {w : Nat} (m : Memory w) (base n : Nat) {f g : Nat → BitVec w}
    (h : ∀ k, k < n → f k = g k) : Memory.writeRange m base n f = Memory.writeRange m base n g := by
  induction n with
  | zero => rfl
  | succ n ih =>
    rw [Memory.writeRange, Memory.writeRange, ih fun k hk => h k (hk.trans n.lt_succ_self), h n n.lt_succ_self]

theorem Memory.writeRange_add {w : Nat} (m : Memory w) (base n k : Nat) (f : Nat → BitVec w) :
    Memory.writeRange m base (n + k) f
      = Memory.writeRange (Memory.writeRange m base n f) (base + n) k fun j => f (n + j) := by
  induction k with
  | zero => rfl
  | succ k ih => rw [← Nat.add_assoc, Memory.writeRange, Memory.writeRange, ih, Nat.add_assoc]

/-! ### What a frame in progress depends on -/

/-- The state with everything forgotten that only `W.FILL` and the host read: the commands, data word, samples, answer
and count on the port, `CONSUMED` and the counter of free values. -/
def State.unsampled (s : State) : State :=
  { s with
    regs := { s.regs with consumed := 0 }
    port := { Port.reset with active := s.port.active.map fun _ => 0 }
    freeCtr := 0 }

theorem peakOf_unsampled (s : State) (n : Nat) : peakOf s.unsampled n = peakOf s n := by
  induction n with
  | zero => rfl
  | succ n ih => exact congrArg (max · _) ih

theorem bandLoop_unsampled (s : State) (b : Nat) (carry : Int) (n : Nat) :
    bandLoop s.unsampled b carry n = bandLoop s b carry n := by
  induction n with
  | zero => rfl
  | succ n ih => rw [bandLoop, ih]; rfl

theorem bandAcc_unsampled (s : State) (b : Nat) : bandAcc s.unsampled b = bandAcc s b := by
  induction b with
  | zero => exact bandLoop_unsampled s 0 0 _
  | succ b ih => rw [bandAcc, ih]; exact bandLoop_unsampled s (b + 1) _ _

/-- After the fill no micro-operation reads or writes what `unsampled` forgets, but for the end of the `PROC`. -/
theorem exec_unsampled {s t : State} {seq : BitVec 4} {i : Instr} (hf : fetchMicro seq = some i) (hseq : seq ≠ 0)
    (hx : exec i s = .next t) : exec i s.unsampled = .next t.unsampled := by
  rcases fetchMicro_cases hf with ⟨rfl, rfl⟩ | ⟨-, rfl⟩ | ⟨-, rfl⟩ | ⟨-, rfl⟩ | ⟨-, rfl⟩ | ⟨-, rfl⟩ | ⟨-, rfl⟩ |
    ⟨-, rfl⟩ | ⟨-, rfl⟩ | ⟨-, rfl⟩ | ⟨-, rfl⟩ | ⟨-, rfl⟩
  · exact absurd rfl hseq
  · cases hx
    by_cases hp : s.regs.phase = .frameReady <;> simp [exec, execSeqEnd, State.unsampled, hp]
  · obtain ⟨hfits, rfl⟩ := execWApply_next hx
    refine (if_pos (List.all_eq_true.2 fun i hi => hfits i (List.mem_range.1 hi))).trans ?_
    rw [peakOf_unsampled]
    rfl
  · obtain ⟨hsize, hused, rfl⟩ := execWSlide_next hx
    exact if_neg (not_or.2 ⟨not_lt.2 hsize, not_lt.2 hused⟩)
  · cases hx; rfl
  · cases hx; rfl
  · cases hx; rfl
  · obtain ⟨hfits, rfl⟩ := execFbAcc_next hx
    have hsum : ∀ b ∈ List.range (s.cfg.nchan.toNat + 1), fitsUnsigned 64 (bandAcc s.unsampled b).1 = true :=
      fun b hb => bandAcc_unsampled s b ▸ hfits b (Nat.lt_succ_iff.1 (List.mem_range.1 hb))
    refine (if_pos (List.all_eq_true.2 hsum)).trans ?_
    simp only [bandAcc_unsampled]
    rfl
  · cases hx; rfl
  · obtain ⟨hlegal, rfl⟩ := execNrApply_next hx
    exact if_pos hlegal
  · by_cases hgc : s.cfg.gcEnable = 1
    · cases (if_pos hgc).symm.trans hx
      exact if_pos hgc
    · cases (if_neg hgc).symm.trans hx
      exact if_neg hgc
  · cases hx; rfl

/-- `SEQ` comes back to 0 with the end of the `PROC` only. -/
theorem seq_ne_zero_of_running {s t : State} {seq : BitVec 4} {i : Instr} (hf : fetchMicro seq = some i)
    (hx : exec i s = .next t) (ha : t.port.active ≠ none) : t.regs.seq ≠ 0 := by
  obtain ⟨-, hnext | hnext⟩ | ⟨rfl, -⟩ | ⟨h1, h10, hnext⟩ := exec_micro_seq hf hx
  · rw [hnext]; decide
  · rw [hnext]; decide
  · cases hf.symm.trans (show fetchMicro 11 = some .seqEnd from rfl)
    cases hx
    exact absurd rfl ha
  · have hval : (seq + 1).toNat = seq.toNat + 1 := by
      rw [BitVec.toNat_add]
      exact Nat.mod_eq_of_lt (by change seq.toNat + 1 < 2 ^ 4; omega)
    intro h0
    rw [← hnext, h0] at hval
    exact absurd hval (Nat.succ_ne_zero _).symm

/-- Everything `runCommand` can answer after a step: that state when no `PROC` runs in it, else what the rest answers. -/
theorem runCommand_succ_next {n : Nat} {s t : State} (h : runCommand (n + 1) s = .next t) :
    ∃ u, step s = .next u ∧ (u.port.active = none ∧ t = u ∨ u.port.active ≠ none ∧ runCommand n u = .next t) := by
  rw [runCommand] at h
  split at h
  case h_1 u hx =>
    refine ⟨u, hx, ?_⟩
    split at h
    · next ha => exact .inr ⟨Option.isSome_iff_ne_none.1 ha, h⟩
    · next ha => exact .inl ⟨by simpa using ha, (Host.Outcome.next.inj h).symm⟩
  case h_2 => cases h
  case h_3 => cases h

/-- The rest of a micro-program gives the same result from a state that forgets what only the fill reads. -/
theorem runCommand_unsampled {n : Nat} {s t : State} (ha : s.port.active ≠ none) (hseq : s.regs.seq ≠ 0)
    (h : runCommand n s = .next t) : runCommand n s.unsampled = .next t.unsampled := by
  induction n generalizing s with
  | zero => cases h; rfl
  | succ n ih =>
    obtain ⟨k, hk⟩ := Option.ne_none_iff_exists'.1 ha
    obtain ⟨u, hx, hcase⟩ := runCommand_succ_next h
    obtain ⟨i, hf⟩ : ∃ i, fetchMicro s.regs.seq = some i := by
      by_contra hnone
      rw [step_noMicroOp s k hk (Option.eq_none_iff_forall_ne_some.2 fun i hi => hnone ⟨i, hi⟩)] at hx
      cases hx
    rw [step_running s k i hk hf] at hx
    have hx' : step s.unsampled = .next u.unsampled :=
      (step_running s.unsampled 0 i (congrArg (Option.map _) hk) hf).trans (exec_unsampled hf hseq hx)
    obtain ⟨hidle, rfl⟩ | ⟨hactive, hrest⟩ := hcase
    · exact runCommand_return n hx' (congrArg (Option.map _) hidle)
    · have hactive' : u.unsampled.port.active ≠ none := mt Option.map_eq_none_iff.1 hactive
      exact (runCommand_continue n hx' hactive').trans (ih hactive (seq_ne_zero_of_running hf hx hactive) hrest)

/-! ### The two results of a PROC -/

/-- What of an idle block waiting for samples a later `PROC` depends on: its configuration, tables and buffers,
`INPUT_USED`, `PEAK` and `SCALE_SHIFT`. -/
def State.signal (s : State) : State :=
  { s with
    regs := { Regs.reset with
      phase := .awaitingFrame
      inputUsed := s.regs.inputUsed
      peak := s.regs.peak
      scaleShift := s.regs.scaleShift }
    port := Port.reset
    freeCtr := 0 }

/-- The signal path with more samples gathered at the tail of IN (R131). -/
def State.gathered (s : State) (xs : List Sample) : State :=
  { s.signal with
    regs := { s.signal.regs with inputUsed := BitVec.ofNat 16 (s.regs.inputUsed.toNat + xs.length) }
    bufs := { s.bufs with
      inp := Memory.writeRange s.bufs.inp s.regs.inputUsed.toNat xs.length fun k => xs.getD k 0 } }

/-- The frame begun once these samples have filled the buffer (R131, R317). -/
def State.filled (s : State) (xs : List Sample) : State :=
  { s.gathered xs with
    regs := { (s.gathered xs).regs with phase := .frameReady, seq := 1 }
    port := { Port.reset with active := some 0 } }

theorem State.gathered_nil (s : State) : s.gathered [] = s.signal := by
  have hused : BitVec.ofNat 16 (s.regs.inputUsed.toNat + 0) = s.regs.inputUsed := by
    rw [Nat.add_zero, BitVec.ofNat_toNat, BitVec.setWidth_eq]
  rw [State.gathered, List.length_nil, hused]
  rfl

/-- Samples gathered in two parts are gathered at once. -/
theorem State.gathered_append {s : State} {xs : List Sample}
    (h : s.regs.inputUsed.toNat + xs.length < s.cfg.size.toNat) (ys : List Sample) :
    (s.gathered xs).gathered ys = s.gathered (xs ++ ys) := by
  have hused : (s.gathered xs).regs.inputUsed.toNat = s.regs.inputUsed.toNat + xs.length :=
    toNat_ofNat_of_le_size h.le
  have hfirst : (s.gathered xs).bufs.inp
      = Memory.writeRange s.bufs.inp s.regs.inputUsed.toNat xs.length fun k => (xs ++ ys).getD k 0 :=
    Memory.writeRange_congr _ _ _ fun k hk => (List.getD_append xs ys 0 k hk).symm
  have hsecond (k : Nat) : ys.getD k 0 = (xs ++ ys).getD (xs.length + k) 0 := by
    rw [List.getD_append_right _ _ _ _ (Nat.le_add_right _ _), Nat.add_sub_cancel_left]
  rw [State.gathered, State.gathered.eq_1 s (xs ++ ys), hused, hfirst, List.length_append, Memory.writeRange_add]
  simp only [hsecond, Nat.add_assoc]
  rfl

theorem State.filled_append {s : State} {xs : List Sample}
    (h : s.regs.inputUsed.toNat + xs.length < s.cfg.size.toNat) (ys : List Sample) :
    (s.gathered xs).filled ys = s.filled (xs ++ ys) := by
  rw [State.filled, State.gathered_append h]
  rfl

/-- The `PROC` started on its samples: the state `W.FILL` runs in (R317). -/
def State.procStarted (s : State) (xs : List Sample) : State :=
  { s with
    regs := { s.regs with featureValid := false, nfeat := 0, err := .ok, seq := 0 }
    port := { s.port with wdata := 0, samples := xs, rdata := 0, active := some xs.length } }

theorem step_procCommand {s : State} {xs : List Sample} (ha : s.port.active = none)
    (hp : s.regs.phase = .awaitingFrame) (hlen : xs.length < 65536) :
    step (s.issue (procCommand xs)) = .next (s.procStarted xs) :=
  (step_command (s.issue (procCommand xs)) _ _ _ ha rfl (decodeHost_procCommand hlen)).trans (if_neg (not_not.2 hp))

/-- `W.FILL` takes the samples the buffer has room for, the first ones presented (R131). -/
theorem fillCount_procStarted (s : State) (xs : List Sample) :
    fillCount (s.procStarted xs) = (xs.take (s.cfg.size.toNat - s.regs.inputUsed.toNat)).length := by
  rw [List.length_take, Nat.min_comm]
  rfl

theorem writeRange_sampleAt_procStarted (s : State) (xs : List Sample) (n : Nat) :
    Memory.writeRange s.bufs.inp s.regs.inputUsed.toNat (xs.take n).length (sampleAt (s.procStarted xs))
      = Memory.writeRange s.bufs.inp s.regs.inputUsed.toNat (xs.take n).length fun k => (xs.take n).getD k 0 := by
  refine Memory.writeRange_congr _ _ _ fun k hk => sampleAt_eq ?_
  rw [List.getD_eq_getElem _ _ hk, List.getElem_take]
  exact List.getElem?_eq_getElem _

/-- After its start and the fill a `PROC` has 11 steps left. -/
theorem command_procCommand {s u : State} {xs : List Sample} (ha : s.port.active = none)
    (hp : s.regs.phase = .awaitingFrame) (hlen : xs.length < 65536) (hx : execWFill (s.procStarted xs) = .next u)
    (hu : u.port.active ≠ none) : command (procCommand xs) s = runCommand 11 u :=
  (runCommand_continue 12 (step_procCommand ha hp hlen) nofun).trans
    (runCommand_continue 11 ((step_running (s.procStarted xs) _ .wFill rfl rfl).trans hx) hu)

/-- The not-ready exit: `SEQ.END` only ends the `PROC` (R319). -/
theorem runCommand_notReady (k : Nat) {s : State} {n : Nat} (hn : s.port.active = some n) (hseq : s.regs.seq = 11)
    (hp : s.regs.phase ≠ .frameReady) :
    runCommand (k + 1) s
      = .next { s with regs := { s.regs with seq := 0 }, port := { s.port with active := none } } := by
  obtain ⟨t, hx⟩ : ∃ t, execSeqEnd s = .next t := ⟨_, rfl⟩
  have hrun := (step_running s n .seqEnd hn (by rw [hseq]; rfl)).trans hx
  obtain ⟨hready, -⟩ | ⟨-, rfl⟩ := execSeqEnd_next hx
  · exact absurd hready hp
  · exact runCommand_return k hrun rfl

/-- Short of a full buffer a `PROC` has only gathered its samples (R132, R321). -/
theorem signal_of_gathered {s t : State} {xs : List Sample} (ha : s.port.active = none)
    (hp : s.regs.phase = .awaitingFrame) (hlen : xs.length < 65536)
    (hshort : s.regs.inputUsed.toNat + xs.length < s.cfg.size.toNat)
    (hc : command (procCommand xs) s = .next t) : t.signal = s.gathered xs := by
  have hall : xs.take (s.cfg.size.toNat - s.regs.inputUsed.toNat) = xs := List.take_of_length_le (by omega)
  have hcount := fillCount_procStarted s xs
  have hwrite := writeRange_sampleAt_procStarted s xs (s.cfg.size.toNat - s.regs.inputUsed.toNat)
  rw [hall] at hcount hwrite
  obtain ⟨u, hx⟩ := execWFill_answers (s := s.procStarted xs) ((Nat.le_add_right _ _).trans hshort.le)
  obtain ⟨-, ⟨hready, rfl⟩ | ⟨-, rfl⟩⟩ := execWFill_next hx
  · rw [hcount] at hready
    exact absurd hready (not_le.2 hshort)
  · rw [command_procCommand ha hp hlen hx nofun] at hc
    have hwaiting : s.regs.phase ≠ .frameReady := by rw [hp]; decide
    cases hc.symm.trans (runCommand_notReady 10 rfl rfl hwaiting)
    rw [State.gathered, ← hwrite, ← hcount]
    rfl

/-- A `PROC` that fills the buffer finishes the frame that begins there (R131, R319). -/
theorem runCommand_filled {s t : State} {xs : List Sample} (ha : s.port.active = none)
    (hp : s.regs.phase = .awaitingFrame) (hlen : xs.length < 65536)
    (hused : s.regs.inputUsed.toNat ≤ s.cfg.size.toNat)
    (hfull : s.cfg.size.toNat ≤ s.regs.inputUsed.toNat + xs.length)
    (hc : command (procCommand xs) s = .next t) :
    runCommand 11 (s.filled (xs.take (s.cfg.size.toNat - s.regs.inputUsed.toNat))) = .next t.unsampled := by
  have hcount := fillCount_procStarted s xs
  have hwrite := writeRange_sampleAt_procStarted s xs (s.cfg.size.toNat - s.regs.inputUsed.toNat)
  obtain ⟨u, hx⟩ := execWFill_answers (s := s.procStarted xs) hused
  obtain ⟨-, ⟨-, rfl⟩ | ⟨hshort, rfl⟩⟩ := execWFill_next hx
  · rw [command_procCommand ha hp hlen hx nofun] at hc
    have hrest := runCommand_unsampled (Option.some_ne_none _) (show (1 : BitVec 4) ≠ 0 by decide) hc
    rw [← hrest, State.filled, State.gathered, ← hwrite, ← hcount]
    rfl
  · rw [hcount, List.length_take] at hshort
    change s.regs.inputUsed.toNat + _ < s.cfg.size.toNat at hshort
    omega

/-! ### FEED as a relation -/

/-- A stream fed from one signal path to another, with the feature vectors of the frames it completes. Each frame takes
the samples the buffer has room for, what is left at the end is gathered (R111, R131); commands are not counted. -/
inductive Streams : State → List Sample → State → List (List (BitVec 16)) → Prop
  | gather {s : State} {xs : List Sample} :
      s.regs.inputUsed.toNat + xs.length < s.cfg.size.toNat → Streams s xs (s.gathered xs) []
  | frame {s t u : State} {xs : List Sample} {views : List (List (BitVec 16))} :
      s.cfg.size.toNat ≤ s.regs.inputUsed.toNat + xs.length →
      runCommand 11 (s.filled (xs.take (s.cfg.size.toNat - s.regs.inputUsed.toNat))) = .next t →
      Streams t.signal (xs.drop (s.cfg.size.toNat - s.regs.inputUsed.toNat)) u views →
      Streams s xs u (featureView t :: views)

/-- Where the stream leads is determined. -/
theorem Streams.unique {s t u : State} {xs : List Sample} {views views' : List (List (BitVec 16))}
    (h : Streams s xs t views) (h' : Streams s xs u views') : t = u ∧ views = views' := by
  induction h generalizing u views' with
  | gather hshort =>
    cases h' with
    | gather _ => exact ⟨rfl, rfl⟩
    | frame hfull _ _ => exact absurd hshort (not_lt.2 hfull)
  | frame hfull hrun _ ih =>
    cases h' with
    | gather hshort => exact absurd hshort (not_lt.2 hfull)
    | frame _ hrun' hrest =>
      cases hrun.symm.trans hrun'
      obtain ⟨rfl, rfl⟩ := ih hrest
      exact ⟨rfl, rfl⟩

/-- Two streams in a row are one: what the first has gathered the second's first frame continues (R140). -/
theorem Streams.append {s t u : State} {xs ys : List Sample} {views views' : List (List (BitVec 16))}
    (h : Streams s xs t views) (h' : Streams t ys u views') : Streams s (xs ++ ys) u (views ++ views') := by
  induction h with
  | @gather s xs hshort =>
    have hused : (s.gathered xs).regs.inputUsed.toNat = s.regs.inputUsed.toNat + xs.length :=
      toNat_ofNat_of_le_size hshort.le
    have hsize : (s.gathered xs).cfg.size = s.cfg.size := rfl
    cases h' with
    | gather hshort' =>
      rw [hused, hsize, Nat.add_assoc, ← List.length_append] at hshort'
      rw [State.gathered_append hshort]
      exact .gather hshort'
    | frame hfull hrun hrest =>
      rw [hused, hsize] at hfull hrun hrest
      rw [State.filled_append hshort, Nat.sub_add_eq] at hrun
      have hall : xs.take (s.cfg.size.toNat - s.regs.inputUsed.toNat) = xs := List.take_of_length_le (by omega)
      have hnone : xs.drop (s.cfg.size.toNat - s.regs.inputUsed.toNat) = [] := List.drop_of_length_le (by omega)
      refine .frame (by rw [List.length_append]; omega) ?_ ?_
      · rwa [List.take_append, hall]
      · rwa [List.drop_append, hnone, List.nil_append, ← Nat.sub_add_eq]
  | @frame s _ _ xs _ hfull hrun _ ih =>
    refine .frame (by rw [List.length_append]; omega) ?_ ?_
    · rwa [List.take_append_of_le_length (by omega)]
    · rw [List.drop_append_of_le_length (by omega)]
      exact ih h'

theorem streams_nil {s : State} (h : Inv s) (hp : s.regs.phase = .awaitingFrame) :
    Streams s.signal [] s.signal [] := by
  have hgather := Streams.gather (s := s.signal) (xs := []) (h.disciplined.waiting hp).1
  rwa [State.gathered_nil] at hgather

theorem ConfigLegal.nchan_ne_zero {g : Cfg} {t : Tables} (h : ConfigLegal g t) : g.nchan ≠ 0 := by
  intro h0
  have hpos := h.nchan_pos
  rw [h0] at hpos
  exact absurd hpos (by decide)

/-- One `PROC` and then the rest of the stream: what the command could not present is more than a frame takes. -/
theorem Streams.of_proc {s t u : State} {xs : List Sample} {views : List (List (BitVec 16))} (h : Inv s)
    (ha : s.port.active = none) (hp : s.regs.phase = .awaitingFrame)
    (hc : command (procCommand (xs.take 65535)) s = .next t) (hret : ProcReturned s t (xs.take 65535).length)
    (hrest : Streams t.signal (xs.drop t.regs.consumed.toNat) u views) :
    Streams s.signal xs u (if t.regs.nfeat = 0 then views else featureView t :: views) := by
  have hroom := (h.disciplined.waiting hp).1
  have hsize : s.cfg.size.toNat < 2 ^ 16 := s.cfg.size.isLt
  have hmost : (xs.take 65535).length = min 65535 xs.length := List.length_take
  have hconsumed := hret.consumed
  by_cases hshort : s.regs.inputUsed.toNat + xs.length < s.cfg.size.toNat
  · have hall : xs.take 65535 = xs := List.take_of_length_le (by omega)
    have hnone : xs.drop t.regs.consumed.toNat = [] := List.drop_of_length_le (by omega)
    obtain ⟨hnfeat, -⟩ := hret.gathered (by omega)
    rw [hnone] at hrest
    rw [hall] at hc
    obtain ⟨rfl, rfl⟩ := hrest.unique (streams_nil hret.inv hret.phase)
    rw [if_pos hnfeat, signal_of_gathered ha hp (by omega) hshort hc]
    exact Streams.gather (s := s.signal) hshort
  · have hcount : t.regs.consumed.toNat = s.cfg.size.toNat - s.regs.inputUsed.toNat := by omega
    obtain ⟨hnfeat, -⟩ := hret.framed (by omega)
    have hnonzero : t.regs.nfeat ≠ 0 := by
      rw [hnfeat]
      exact (h.working (by rw [hp]; rfl)).configLegal.nchan_ne_zero
    have hrun := runCommand_filled ha hp (by omega) hroom.le (by omega) hc
    rw [List.take_take, min_eq_left (by omega)] at hrun
    rw [hcount] at hrest
    rw [if_neg hnonzero]
    exact Streams.frame (s := s.signal) (t := t.unsampled) (not_lt.1 hshort) hrun hrest

theorem feed_cons_next {n : Nat} {xs : List Sample} {s t u : State} {views : List (List (BitVec 16))} (hne : xs ≠ [])
    (hc : command (procCommand (xs.take 65535)) s = .next t) (hf : feed (n + 1) xs s = some (u, views)) :
    ∃ rest, feed n (xs.drop t.regs.consumed.toNat) t = some (u, rest) ∧
      views = if t.regs.nfeat = 0 then rest else featureView t :: rest := by
  cases hrest : feed n (xs.drop t.regs.consumed.toNat) t with
  | none => simp [feed, hne, hc, hrest] at hf
  | some result =>
    obtain ⟨v, rest⟩ := result
    cases hf.symm.trans (feed_cons hne hc hrest)
    exact ⟨rest, rfl, rfl⟩

/-- A `FEED` that answers has carried its whole stream. -/
theorem feed_streams {n : Nat} {xs : List Sample} {s t : State} {views : List (List (BitVec 16))} (h : Inv s)
    (ha : s.port.active = none) (hp : s.regs.phase = .awaitingFrame) (hf : feed n xs s = some (t, views)) :
    Streams s.signal xs t.signal views := by
  induction n generalizing xs s views with
  | zero =>
    obtain rfl : xs = [] := by
      by_contra hne
      simp [feed, hne] at hf
    cases hf
    exact streams_nil h hp
  | succ n ih =>
    by_cases hne : xs = []
    · subst hne
      cases (feed_nil _ s).symm.trans hf
      exact streams_nil h hp
    obtain ⟨t, hc, hret⟩ := command_proc (xs := xs.take 65535) h ha hp (by rw [List.length_take]; omega)
    obtain ⟨rest, hrest, rfl⟩ := feed_cons_next hne hc hf
    exact .of_proc h ha hp hc hret (ih hret.inv hret.idle hret.phase hrest)

/-- Settles O58: the two streams in a row and the whole one lead from the same signal path, so to the same. -/
theorem feedIsChunkingInvariant : Obligations.FeedIsChunkingInvariant := by
  intro s xs ys h ha hp
  obtain ⟨t, views, hxs, hfed⟩ := feed_spec xs.length xs s h ha hp le_rfl
  obtain ⟨u, views', hys, -⟩ := feed_spec ys.length ys t hfed.inv hfed.idle hfed.phase le_rfl
  obtain ⟨w, all, hboth, -⟩ := feed_spec (xs ++ ys).length (xs ++ ys) s h ha hp le_rfl
  have hparts := (feed_streams h ha hp hxs).append (feed_streams hfed.inv hfed.idle hfed.phase hys)
  obtain ⟨hsignal, rfl⟩ := (feed_streams h ha hp hboth).unique hparts
  exact ⟨t, u, w, views, views', hxs, hys, hboth, (congrArg State.bufs hsignal :),
    (congrArg (·.regs.inputUsed) hsignal :), (congrArg (·.regs.peak) hsignal :),
    (congrArg (·.regs.scaleShift) hsignal :)⟩

end Sys2Proof.Machine
end

section
/-! The port to the transform collaborator (42_transform_port.md): the scale shift and the range it uses (R161 to R163),
the spectrum `X.REQ` stores (R164) and the transform size the host chooses (R169). -/

namespace Sys2Proof.Machine

/-! ### The highest set bit as a bound -/

theorem msb1_le_iff (x k : Nat) : msb1 x ≤ k ↔ x < 2 ^ k := by
  unfold msb1
  split
  case isTrue h => simp [h]
  case isFalse h => exact Nat.log2_lt h

/-- `flog2 x` is floor(log2 x) for x ≥ 1. -/
theorem flog2_bounds {x : Nat} (h : x ≠ 0) : 2 ^ flog2 x ≤ x ∧ x < 2 ^ (flog2 x + 1) :=
  ⟨(msb1_bounds x h).1, (msb1_le_iff x _).1 (Nat.sub_le_iff_le_add.1 le_rfl)⟩

theorem flog2_eq {x k : Nat} (hlo : 2 ^ k ≤ x) (hhi : x < 2 ^ (k + 1)) : flog2 x = k := by
  have hx : x ≠ 0 := (k.two_pow_pos.trans_le hlo).ne'
  rw [flog2, msb1_eq x (k + 1) hx hlo hhi, Nat.add_sub_cancel]

/-! ### SH.CALC -/

theorem scaleShiftFor_zero (base : Nat) : scaleShiftFor base 0 = 15 := rfl

theorem scaleShiftFor_of_ne_zero (base : Nat) {peak : Nat} (h : peak ≠ 0) :
    scaleShiftFor base peak = base - flog2 peak :=
  if_neg h

/-- The shift fits the register `SCALE_SHIFT`. -/
theorem toNat_ofNat_scaleShiftFor (peak : Nat) :
    (BitVec.ofNat 5 (scaleShiftFor shiftBase peak)).toNat = scaleShiftFor shiftBase peak := by
  rw [BitVec.toNat_ofNat]
  exact Nat.mod_eq_of_lt ((scaleShiftFor_le peak).trans_lt (by decide))

/-- Settles O27: a peak between 2^k and 2^(k+1) has floor(log2 PEAK) = k, and the shift fits its register. -/
theorem shCalcScalesByThePeak : Obligations.ShCalcScalesByThePeak := by
  refine ⟨rfl, rfl, fun s => ⟨_, rfl, fun hsilent => ?silent, fun k hlo hhi => ?loud, rfl⟩⟩
  case silent =>
    change BitVec.ofNat 5 (scaleShiftFor shiftBase s.regs.peak.toNat) = 15
    rw [hsilent]
    exact congrArg (BitVec.ofNat 5) (scaleShiftFor_zero shiftBase)
  case loud =>
    change (BitVec.ofNat 5 (scaleShiftFor shiftBase s.regs.peak.toNat)).toNat = shiftBase - k
    have hpeak : s.regs.peak.toNat ≠ 0 := (k.two_pow_pos.trans_le hlo).ne'
    rw [toNat_ofNat_scaleShiftFor, scaleShiftFor_of_ne_zero _ hpeak, flog2_eq hlo hhi]

/-! ### The range the shift uses -/

theorem shiftBase_eq : shiftBase = 14 ∨ shiftBase = 15 := by
  unfold shiftBase
  split
  · exact .inr rfl
  · exact .inl rfl

/-- Shifting by the base less floor(log2 p) moves the highest set bit of p to the position of the base. -/
theorem mul_two_pow_scaleShiftFor_bounds {base p : Nat} (hp : p ≠ 0) (hbase : flog2 p ≤ base) :
    2 ^ base ≤ p * 2 ^ scaleShiftFor base p ∧ p * 2 ^ scaleShiftFor base p < 2 ^ (base + 1) := by
  obtain ⟨hlo, hhi⟩ := flog2_bounds hp
  rw [scaleShiftFor_of_ne_zero base hp]
  constructor
  · calc 2 ^ base = 2 ^ flog2 p * 2 ^ (base - flog2 p) := by rw [← Nat.pow_add, Nat.add_sub_cancel' hbase]
      _ ≤ p * 2 ^ (base - flog2 p) := Nat.mul_le_mul_right _ hlo
  · calc p * 2 ^ (base - flog2 p) < 2 ^ (flog2 p + 1) * 2 ^ (base - flog2 p) :=
        Nat.mul_lt_mul_of_pos_right hhi (Nat.two_pow_pos _)
      _ = 2 ^ (base + 1) := by rw [← Nat.pow_add]; congr 1; omega

/-- No larger shift keeps p below the next power of two. -/
theorem le_scaleShiftFor {base p k : Nat} (hp : p ≠ 0) (h : p * 2 ^ k < 2 ^ (base + 1)) :
    k ≤ scaleShiftFor base p := by
  have hpow : 2 ^ (flog2 p + k) < 2 ^ (base + 1) := by
    rw [Nat.pow_add]
    exact (Nat.mul_le_mul_right _ (flog2_bounds hp).1).trans_lt h
  have hsum := (Nat.pow_lt_pow_iff_right (by decide)).1 hpow
  rw [scaleShiftFor_of_ne_zero base hp]
  omega

/-- Settles O28: a peak up to 32767 has its highest set bit at 14 or below, and the shift moves it to the base. -/
theorem scaleShiftUsesTheRange : Obligations.ScaleShiftUsesTheRange := by
  refine ⟨shiftBase_eq, fun p hpos hmax => ?_⟩
  have hp : p ≠ 0 := by omega
  have hlog : flog2 p ≤ 14 := Nat.sub_le_iff_le_add.2 ((msb1_le_iff p 15).2 (by omega))
  obtain ⟨-, hfits⟩ := mul_two_pow_scaleShiftFor_bounds hp hlog
  obtain ⟨hleaves, -⟩ := mul_two_pow_scaleShiftFor_bounds hp (hlog.trans (show 14 ≤ 15 by decide))
  refine ⟨Nat.le_of_lt_succ hfits, fun k hk => le_scaleShiftFor hp (Nat.lt_succ_of_le hk), hleaves, ?_⟩
  rw [scaleShiftFor_of_ne_zero _ hp]
  exact Nat.sub_le _ _

/-! ### X.REQ -/

theorem length_frameOf (s : State) : (frameOf s).length = s.cfg.size.toNat := by
  simp [frameOf]

theorem getElem?_frameOf {s : State} {i : Nat} (h : i < s.cfg.size.toNat) :
    (frameOf s)[i]? = some (Memory.read s.bufs.out i) := by
  simp [frameOf, h]

theorem spectrumElem_even (bins : Nat → BitVec 16 × BitVec 16) (k : Nat) :
    spectrumElem bins (2 * k) = (bins k).1 := by
  rw [spectrumElem, if_pos (by omega), show 2 * k / 2 = k by omega]

theorem spectrumElem_odd (bins : Nat → BitVec 16 × BitVec 16) (k : Nat) :
    spectrumElem bins (2 * k + 1) = (bins k).2 := by
  rw [spectrumElem, if_neg (by omega), show (2 * k + 1) / 2 = k by omega]

/-- What stands at the two places of bin k once n bins are stored (R164). -/
theorem read_writeRange_spectrumElem (m : Memory 16) (bins : Nat → BitVec 16 × BitVec 16) {n k : Nat} (h : k < n) :
    (Memory.read (Memory.writeRange m 0 (2 * n) (spectrumElem bins)) (2 * k),
      Memory.read (Memory.writeRange m 0 (2 * n) (spectrumElem bins)) (2 * k + 1)) = bins k := by
  rw [Memory.read_writeRange, if_pos (by omega), Memory.read_writeRange, if_pos (by omega), Nat.sub_zero, Nat.sub_zero,
    spectrumElem_even, spectrumElem_odd]

/-- Settles O29: the frame handed over is `frameOf s`, and the stores reach the first 2·SPEC_SIZE elements only. -/
theorem xReqStoresTheSpectrum : Obligations.XReqStoresTheSpectrum := by
  refine ⟨rfl, rfl, fun s => ⟨_, frameOf s, rfl, length_frameOf s, fun i hi => getElem?_frameOf hi,
    fun k hk => read_writeRange_spectrumElem _ _ hk, fun j hj => ?others, rfl⟩⟩
  case others => exact (Memory.read_writeRange _ _ _ _ j).trans (if_neg (by omega))

/-! ### The transform size -/

theorem minimalFft_eq_two_pow (size : Nat) : minimalFft size = 2 ^ msb1 (size - 1) := by
  unfold minimalFft
  split
  case isTrue h => rw [Nat.sub_eq_zero_of_le h, msb1_zero, Nat.pow_zero]
  case isFalse h =>
    have hpos : 1 ≤ msb1 (size - 1) := by
      rw [msb1, if_neg (by omega)]
      exact Nat.le_add_left 1 _
    rw [flog2, Nat.sub_add_cancel hpos]

/-- The chosen exponent is the least with which the power reaches `size`. -/
theorem msb1_pred_le_iff {size : Nat} (h : 1 ≤ size) (k : Nat) : msb1 (size - 1) ≤ k ↔ size ≤ 2 ^ k := by
  rw [msb1_le_iff]
  omega

/-- Settles O60, from the exponent of the chosen size. -/
theorem minimalFftIsMinimal : Obligations.MinimalFftIsMinimal := by
  intro size hsize
  rw [minimalFft_eq_two_pow]
  refine ⟨⟨_, rfl⟩, (msb1_pred_le_iff hsize _).1 le_rfl, fun k hk => ?_⟩
  exact Nat.pow_le_pow_right (by decide) ((msb1_pred_le_iff hsize k).2 hk)

end Sys2Proof.Machine
end

section
/-! Unit FB (43_filterbank.md): the energies (R181), the band sums (R185, R188), the rounded root and the channels
(R190, R191, R196), and the layout the host constructs (R214 to R216, R222). -/

namespace Sys2Proof.Machine

/-! ### FB.ENERGY -/

/-- The energy as the sum of the squares of the two signed parts (R181). -/
theorem cast_binEnergy (s : State) (k : Nat) :
    (binEnergy s k : Int) =
      if s.cfg.startIndex.toNat ≤ k ∧ k < s.cfg.endIndex.toNat then
        (Memory.read s.bufs.spec (2 * k)).toInt * (Memory.read s.bufs.spec (2 * k)).toInt
          + (Memory.read s.bufs.spec (2 * k + 1)).toInt * (Memory.read s.bufs.spec (2 * k + 1)).toInt
      else 0 := by
  unfold binEnergy
  split
  · rw [sq, sq, Nat.cast_add, Int.natAbs_mul_self, Int.natAbs_mul_self]
  · rfl

/-- An energy fits its element, since it is at most 2^31 (R35). -/
theorem toNat_ofNat_binEnergy (s : State) (k : Nat) : (BitVec.ofNat 32 (binEnergy s k)).toNat = binEnergy s k := by
  rw [BitVec.toNat_ofNat]
  exact Nat.mod_eq_of_lt ((binEnergy_le s k).trans_lt (by decide))

/-- Settles O30: ENERGY holds the bins' energies themselves, each small enough for its element. -/
theorem fbEnergySquaresTheBins : Obligations.FbEnergySquaresTheBins := by
  intro s
  have hread (k : Nat) (hk : k < s.cfg.specSize.toNat) :
      (Memory.read (Memory.writeRange s.bufs.energy 0 s.cfg.specSize.toNat
        fun j => BitVec.ofNat 32 (binEnergy s j)) k).toNat = binEnergy s k := by
    rw [Memory.read_writeRange, if_pos (by omega)]
    exact toNat_ofNat_binEnergy s k
  refine ⟨_, rfl, fun k hk => ⟨?squares, ?bound⟩, fun k hk => ?others, rfl⟩
  case squares => rw [hread k hk, cast_binEnergy]
  case bound => exact (hread k hk).trans_le (binEnergy_le s k)
  case others => rw [Memory.read_writeRange, if_neg (by omega)]

/-! ### FB.ACC -/

theorem cast_energyAt (s : State) (k : Nat) :
    (energyAt s k : Int) = if k < s.cfg.specSize.toNat then ((Memory.read s.bufs.energy k).toNat : Int) else 0 := by
  unfold energyAt
  split <;> rfl

/-- The first n entries of band b, each table value times the energy of its bin (R185). -/
def bandSum (s : State) (tbl : Memory 16) (b n : Nat) : Int :=
  ∑ j ∈ Finset.range n,
    (Memory.read tbl ((Memory.read s.tables.wstart b).toNat + j)).toInt
      * (energyAt s ((Memory.read s.tables.fstart b).toNat + j) : Int)

/-- The two accumulators of the inner loop are two independent sums (R185). -/
theorem bandLoop_eq (s : State) (b : Nat) (carry : Int) (n : Nat) :
    bandLoop s b carry n = (carry + bandSum s s.tables.weight b n, bandSum s s.tables.unweight b n) := by
  induction n with
  | zero => simp [bandLoop, bandSum]
  | succ n ih => simp only [bandLoop, ih, bandSum, Finset.sum_range_succ, add_assoc]

/-- The carry a band leaves is its own unweighted sum; it does not depend on the one it was given. -/
theorem bandAcc_snd (s : State) (b : Nat) :
    (bandAcc s b).2 = bandSum s s.tables.unweight b (Memory.read s.tables.width b).toNat := by
  cases b <;> rw [bandAcc, bandLoop_eq]

/-- A band's accumulator opens with the unweighted sum of the band before. -/
theorem bandAcc_fst (s : State) (b : Nat) :
    (bandAcc s b).1 = bandSum s s.tables.weight b (Memory.read s.tables.width b).toNat
      + if b = 0 then 0 else bandSum s s.tables.unweight (b - 1) (Memory.read s.tables.width (b - 1)).toNat := by
  cases b with
  | zero => rw [bandAcc, bandLoop_eq, if_pos rfl, add_comm]
  | succ b => rw [bandAcc, bandLoop_eq, bandAcc_snd, if_neg b.succ_ne_zero, Nat.add_sub_cancel, add_comm]

/-- Settles O32, from the bounds of both accumulators. -/
theorem fbAccStaysBelowTwoPow59 : Obligations.FbAccStaysBelowTwoPow59 :=
  fun _ hl he b => (bandAcc_bounds hl he b).1

/-- Settles O31: no accumulator leaves u64, so WORK holds the sums themselves. -/
theorem fbAccSumsTheBands : Obligations.FbAccSumsTheBands := by
  intro s hl he e sum
  have hsum (tbl : Memory 16) (b : Nat) : sum tbl b = bandSum s tbl b (Memory.read s.tables.width b).toNat := by
    simp only [sum, e, bandSum, cast_energyAt]
  have hfits (b : Nat) : fitsUnsigned 64 (bandAcc s b).1 = true := by
    obtain ⟨⟨h0, h1⟩, -⟩ := bandAcc_bounds hl he b
    exact (fitsUnsigned_iff 64 _).2 ⟨h0, h1.trans (by decide)⟩
  obtain ⟨t, hx⟩ : ∃ t, execFbAcc s = .next t := ⟨_, if_pos (List.all_eq_true.2 fun b _ => hfits b)⟩
  obtain ⟨-, rfl⟩ := execFbAcc_next hx
  refine ⟨_, hx, fun b hb => ?sums, fun b hb => ?others, rfl⟩
  case sums =>
    rw [Memory.read_writeRange, if_pos (by omega), Nat.sub_zero, toNat_ofInt_of_fits 64 _ (hfits b), bandAcc_fst, hsum,
      hsum]
  case others => rw [Memory.read_writeRange, if_neg (by omega)]

/-! ### The rounded root and FB.SQRT -/

theorem isqrt_eq_sqrt {n : Nat} (h : n < 2 ^ 64) : isqrt n = Nat.sqrt n := by
  obtain ⟨hle, hlt, -⟩ := isqrt_spec n h
  exact Nat.eq_sqrt.2 ⟨hle, hlt⟩

/-- Settles O33: the bounds on r leave the floor root only. -/
theorem isqrtRoundsToNearest : Obligations.IsqrtRoundsToNearest := by
  intro n r hn hle hlt
  have hr : isqrt n = r := (isqrt_eq_sqrt hn).trans (Nat.eq_sqrt.2 ⟨hle, hlt⟩).symm
  simp only [isqrtRounded, hr]

/-- The cap keeps the rounded root of a u64 number inside 32 bits (R191). -/
theorem isqrtRounded_lt {n : Nat} (h : n < 2 ^ 64) : isqrtRounded n < 2 ^ 32 := by
  obtain ⟨hle, hlt, hroot⟩ := isqrt_spec n h
  rw [isqrtRoundsToNearest n _ h hle hlt]
  by_cases hsmall : n < 2 ^ 32
  · have hhalf : isqrt n < 2 ^ 16 := by
      rw [isqrt_eq_sqrt h]
      exact Nat.sqrt_lt.2 hsmall
    rw [if_pos hsmall]
    split <;> omega
  · rw [if_neg hsmall]
    split <;> omega

theorem channelRoot_lt (s : State) (i : Nat) : channelRoot s i < 2 ^ 32 :=
  (Nat.div_le_self _ _).trans_lt (isqrtRounded_lt (Memory.read s.bufs.work (i + 1)).isLt)

/-- Settles O34: a rounded root fits its channel, and the shift only makes it smaller. -/
theorem fbSqrtRootsThenShifts : Obligations.FbSqrtRootsThenShifts := by
  refine fun s => ⟨_, rfl, fun i hi => ?channels, fun i hi => ?others, rfl⟩
  case channels =>
    rw [Memory.read_writeRange, if_pos (by omega), BitVec.toNat_ofNat]
    exact Nat.mod_eq_of_lt (channelRoot_lt s i)
  case others => rw [Memory.read_writeRange, if_neg (by omega)]

/-! ### The bands' own bins -/

/-- A band whose table entries the pad has moved (R215). -/
def Band.padded (d : Band) : Band :=
  { d with wstart := d.wstart + 4 }

/-- The bands' own bins follow one another from bin `first` up to, not including, bin `last` (R222). -/
def OwnBins : Nat → List Band → Nat → Prop
  | first, [], last => first = last
  | first, d :: ds, last => d.astart = first ∧ OwnBins (first + d.awidth) ds last

theorem OwnBins.concat {first last : Nat} {bands : List Band} (h : OwnBins first bands last) {d : Band}
    (hd : d.astart = last) {last' : Nat} (hend : last + d.awidth = last') : OwnBins first (bands ++ [d]) last' := by
  induction bands generalizing first with
  | nil =>
    cases h
    exact ⟨hd, hend⟩
  | cons x xs ih => exact ⟨h.1, ih h.2⟩

/-- Moving table entries moves no bin. -/
theorem OwnBins.map_padded {first last : Nat} {bands : List Band} (h : OwnBins first bands last) :
    OwnBins first (bands.map Band.padded) last := by
  induction bands generalizing first with
  | nil => exact h
  | cons x xs ih => exact ⟨h.1, ih h.2⟩

theorem OwnBins.astart_head {first last : Nat} {bands : List Band} (h : OwnBins first bands last) {d : Band}
    (hd : bands[0]? = some d) : d.astart = first := by
  cases bands with
  | nil => cases hd
  | cons x xs =>
    cases hd
    exact h.1

theorem OwnBins.astart_next {first last k : Nat} {bands : List Band} (h : OwnBins first bands last) {d d' : Band}
    (hd : bands[k]? = some d) (hd' : bands[k + 1]? = some d') : d'.astart = d.astart + d.awidth := by
  induction bands generalizing first k with
  | nil => cases hd
  | cons x xs ih =>
    obtain ⟨hx, hxs⟩ := h
    cases k with
    | zero =>
      cases hd
      rw [hx]
      exact hxs.astart_head hd'
    | succ k => exact ih hxs hd hd'

/-! ### The constructed layout -/

/-- One band's entries: a positive width in blocks of 4, an even start, a table range below `woff` (R216, R222). -/
structure Band.Aligned (woff : Nat) (d : Band) : Prop where
  width_pos : 0 < d.width
  width_blocks : d.width % 4 = 0
  fstart_even : d.fstart % 2 = 0
  range_le : d.wstart + d.width ≤ woff

theorem Band.Aligned.mono {woff woff' : Nat} {d : Band} (h : d.Aligned woff) (hle : woff ≤ woff') : d.Aligned woff' :=
  { h with range_le := h.range_le.trans hle }

/-- The pad moves a band and the running offset alike (R215). -/
theorem Band.Aligned.pad {woff : Nat} {d : Band} (h : d.Aligned woff) :
    Band.Aligned (woff + 4) d.padded :=
  { h with range_le := (Nat.add_right_comm ..).trans_le (Nat.add_le_add_right h.range_le 4) }

/-- What the construction keeps. The zero block is inside the tables once the pad was applied (R215). -/
structure Layout.Aligned (start : Nat) (l : Layout) : Prop where
  woff_blocks : l.woff % 4 = 0
  zeroBlock : l.patched = true → 4 ≤ l.woff
  bands : ∀ d ∈ l.bands, d.Aligned l.woff
  ownBins : OwnBins start l.bands l.cur

theorem placeEmptyBand_aligned {start : Nat} {l : Layout} (h : l.Aligned start) : (placeEmptyBand l).Aligned start := by
  have hzero {woff : Nat} (hw : 4 ≤ woff) :
      Band.Aligned woff { fstart := 0, wstart := 0, width := 4, astart := l.cur, awidth := 0 } :=
    ⟨Nat.succ_pos 3, Nat.mod_self 4, Nat.zero_mod 2, hw⟩
  unfold placeEmptyBand
  split
  case isTrue hp =>
    exact { h with
      bands := List.forall_mem_append.2 ⟨h.bands, List.forall_mem_singleton.2 (hzero (h.zeroBlock hp))⟩
      ownBins := h.ownBins.concat rfl rfl }
  case isFalse =>
    exact {
      woff_blocks := (Nat.add_mod_right ..).trans h.woff_blocks
      zeroBlock := fun _ => Nat.le_add_left ..
      bands := List.forall_mem_append.2
        ⟨List.forall_mem_map.2 fun d hd => (h.bands d hd).pad, List.forall_mem_singleton.2 (hzero (Nat.le_add_left ..))⟩
      ownBins := h.ownBins.map_padded.concat rfl rfl }

theorem placeFullBand_aligned {start last : Nat} {l : Layout} (h : l.Aligned start) (hlast : l.cur ≤ last) :
    (placeFullBand l last).Aligned start := by
  obtain ⟨hwoff, hzero, hbands, hown⟩ := h
  exact {
    woff_blocks := by simp only [placeFullBand]; omega
    zeroBlock := fun hp => (hzero hp).trans (Nat.le_add_right ..)
    bands := List.forall_mem_append.2 ⟨fun d hd => (hbands d hd).mono (Nat.le_add_right ..),
      List.forall_mem_singleton.2 ⟨Nat.mul_pos (Nat.succ_pos _) (by decide), Nat.mul_mod_left .., Nat.mul_mod_left ..,
        le_rfl⟩⟩
    ownBins := hown.concat rfl (Nat.add_sub_cancel' hlast) }

/-- Whatever the mel scale answers, each band is placed empty or with its end past its start. -/
theorem layoutBands_aligned (below : Nat → Nat → Bool) (fuel start n : Nat) :
    (layoutBands below fuel start n).Aligned start := by
  induction n with
  | zero => exact ⟨rfl, nofun, nofun, rfl⟩
  | succ n ih =>
    rw [layoutBands]
    split
    · exact placeEmptyBand_aligned ih
    · next hlast => exact placeFullBand_aligned ih (not_le.1 hlast).le

theorem length_placeEmptyBand (l : Layout) : (placeEmptyBand l).bands.length = l.bands.length + 1 := by
  unfold placeEmptyBand
  split <;> simp

theorem length_placeFullBand (l : Layout) (last : Nat) : (placeFullBand l last).bands.length = l.bands.length + 1 := by
  simp [placeFullBand]

theorem length_layoutBands (below : Nat → Nat → Bool) (fuel start n : Nat) :
    (layoutBands below fuel start n).bands.length = n := by
  induction n with
  | zero => rfl
  | succ n ih =>
    rw [layoutBands]
    split
    · rw [length_placeEmptyBand, ih]
    · rw [length_placeFullBand, ih]

/-- Settles O59, from what placing a band keeps. -/
theorem constructedLayoutIsAligned : Obligations.ConstructedLayoutIsAligned := by
  intro below fuel start n
  obtain ⟨hwoff, -, hbands, hown⟩ := layoutBands_aligned below fuel start n
  refine ⟨length_layoutBands below fuel start n, hwoff, fun d hd => ?_, fun k d d' => hown.astart_next,
    fun d => hown.astart_head⟩
  obtain ⟨hpos, hblocks, heven, hrange⟩ := hbands d hd
  exact ⟨hpos, hblocks, heven, hrange⟩

end Sys2Proof.Machine
end

section
/-! Unit NR (44_noise_reduction.md): with fractions up to 1.0 no value leaves its width (R236), so `NR.APPLY` stores the
blend and the larger of subtraction and floor themselves (R231 to R234), with the bounds of R235. -/

namespace Sys2Proof.Machine

/-! ### Values with the fractions up to 1.0 -/

/-- A fraction of at most 1.0 of a value (R236). -/
theorem mul_div_one_le (v : Nat) {m one : Nat} (h : m ≤ one) : v * m / one ≤ v :=
  Nat.div_le_of_le_mul ((Nat.mul_le_mul_left v h).trans_eq (mul_comm v one))

/-- Weights that add to 1.0 keep a blend of two values below any bound of both (R236). -/
theorem blend_lt {a b bound w one : Nat} (hw : w ≤ one) (ha : a < bound) (hb : b < bound) :
    (a * w + b * (one - w)) / one < bound := by
  have hsum : a * w + b * (one - w) ≤ (bound - 1) * one :=
    calc a * w + b * (one - w)
      _ ≤ (bound - 1) * w + (bound - 1) * (one - w) := by gcongr <;> omega
      _ = (bound - 1) * one := by rw [← Nat.mul_add, Nat.add_sub_cancel' hw]
  have hle := (Nat.div_le_div_right hsum).trans (mul_div_one_le (bound - 1) le_rfl)
  omega

theorem scaledUp_lt (s : State) (i : Nat) : scaledUp s i < 2 ^ 32 :=
  Nat.mod_lt _ (Nat.two_pow_pos 32)

/-- R237: nothing is lost of a signal that stays inside 32 bits. -/
theorem scaledUp_of_lt {s : State} {i : Nat}
    (h : (Memory.read s.bufs.sig i).toNat * 2 ^ s.cfg.smoothBits.toNat < 2 ^ 32) :
    scaledUp s i = (Memory.read s.bufs.sig i).toNat * 2 ^ s.cfg.smoothBits.toNat :=
  Nat.mod_eq_of_lt h

theorem smoothingOf_le {g : Cfg} (h : fractionsLegal g = true) (i : Nat) : smoothingOf g i ≤ 16384 := by
  obtain ⟨heven, hodd, -⟩ := (fractionsLegal_iff g).1 h
  unfold smoothingOf
  split
  · exact heven
  · exact hodd

/-- 1.0 is 16384 = 2^14 (R231). -/
theorem blended_eq (s : State) (i : Nat) :
    blended s i = (scaledUp s i * smoothingOf s.cfg i
      + (Memory.read s.bufs.est i).toNat * (16384 - smoothingOf s.cfg i)) / 16384 :=
  rfl

theorem blended_lt {s : State} (h : fractionsLegal s.cfg = true) (i : Nat) : blended s i < 2 ^ 32 := by
  rw [blended_eq]
  exact blend_lt (smoothingOf_le h i) (scaledUp_lt s i) (Memory.read s.bufs.est i).isLt

theorem noiseFloor_le {s : State} (h : fractionsLegal s.cfg = true) (i : Nat) :
    noiseFloor s i ≤ (Memory.read s.bufs.sig i).toNat := by
  obtain ⟨-, -, hmin⟩ := (fractionsLegal_iff s.cfg).1 h
  exact mul_div_one_le _ hmin

/-- The clamp (R234) read as the comparison of R231. -/
theorem subtracted_eq (s : State) (i : Nat) :
    subtracted s i = (scaledUp s i - if scaledUp s i < blended s i then scaledUp s i else blended s i)
      / 2 ^ s.cfg.smoothBits.toNat := by
  rw [subtracted, min_comm, min_def_lt]

theorem subtracted_le (s : State) (i : Nat) : subtracted s i ≤ scaledUp s i / 2 ^ s.cfg.smoothBits.toNat :=
  Nat.div_le_div_right (Nat.sub_le _ _)

/-- The output of a channel: the larger of subtraction and floor (R231). -/
def nrOutput (s : State) (i : Nat) : Nat :=
  max (subtracted s i) (noiseFloor s i)

theorem nrOutput_lt {s : State} (h : fractionsLegal s.cfg = true) (i : Nat) : nrOutput s i < 2 ^ 32 :=
  max_lt (((subtracted_le s i).trans (Nat.div_le_self _ _)).trans_lt (scaledUp_lt s i))
    ((noiseFloor_le h i).trans_lt (Memory.read s.bufs.sig i).isLt)

/-- R235 (c): without a wrap neither the subtraction nor the floor exceeds the signal. -/
theorem nrOutput_le {s : State} (h : fractionsLegal s.cfg = true) {i : Nat}
    (hwrap : (Memory.read s.bufs.sig i).toNat * 2 ^ s.cfg.smoothBits.toNat < 2 ^ 32) :
    nrOutput s i ≤ (Memory.read s.bufs.sig i).toNat := by
  have hsub := subtracted_le s i
  rw [scaledUp_of_lt hwrap, Nat.mul_div_cancel _ (Nat.two_pow_pos _)] at hsub
  exact max_le hsub (noiseFloor_le h i)

/-- R235 (d): the estimate of a silent channel decays by 1 − sm. -/
theorem blended_of_silent {s : State} {i : Nat} (h : (Memory.read s.bufs.sig i).toNat = 0) :
    blended s i = (Memory.read s.bufs.est i).toNat * (16384 - smoothingOf s.cfg i) / 16384 := by
  rw [blended_eq, scaledUp_of_lt (by simp [h]), h, Nat.zero_mul, Nat.zero_mul, Nat.zero_add]

/-! ### NR.APPLY -/

/-- Everything `NR.APPLY` leaves behind: no stored value is cut to its element (R236). -/
theorem execNrApply_answers {s : State} (h : fractionsLegal s.cfg = true) :
    ∃ t, execNrApply s = .next t ∧
      (∀ i, i < s.cfg.nchan.toNat →
        (Memory.read t.bufs.est i).toNat = blended s i ∧ (Memory.read t.bufs.sig i).toNat = nrOutput s i) ∧
      (∀ i, s.cfg.nchan.toNat ≤ i → Memory.read t.bufs.sig i = Memory.read s.bufs.sig i ∧
        Memory.read t.bufs.est i = Memory.read s.bufs.est i) ∧
      t = { s with bufs := { s.bufs with sig := t.bufs.sig, est := t.bufs.est }, regs := { s.regs with seq := 9 } } := by
  obtain ⟨t, hx⟩ : ∃ t, execNrApply s = .next t := ⟨_, if_pos h⟩
  obtain ⟨-, rfl⟩ := execNrApply_next hx
  refine ⟨_, hx, fun i hi => ⟨?est, ?sig⟩, fun i hi => ⟨?sigOthers, ?estOthers⟩, rfl⟩
  case est =>
    rw [Memory.read_writeRange, if_pos (by omega), BitVec.toNat_ofNat]
    exact Nat.mod_eq_of_lt (blended_lt h i)
  case sig =>
    rw [Memory.read_writeRange, if_pos (by omega), BitVec.toNat_ofNat]
    exact Nat.mod_eq_of_lt (nrOutput_lt h i)
  case sigOthers => rw [Memory.read_writeRange, if_neg (by omega)]
  case estOthers => rw [Memory.read_writeRange, if_neg (by omega)]

/-- Settles O35: the clamp of the subtraction is the comparison the rule writes. -/
theorem nrApplyBlendsAndSubtracts : Obligations.NrApplyBlendsAndSubtracts := by
  intro s heven hodd hmin
  obtain ⟨t, hx, hchannels, hothers, hframe⟩ :=
    execNrApply_answers ((fractionsLegal_iff s.cfg).2 ⟨heven, hodd, hmin⟩)
  refine ⟨t, hx, fun i hi => ?_, hothers, hframe⟩
  obtain ⟨hest, hsig⟩ := hchannels i hi
  rw [nrOutput, subtracted_eq] at hsig
  exact ⟨hest, hsig⟩

/-- Settles O36: the floor is one of the two values the output is the larger of, and a zero signal cannot wrap. -/
theorem nrApplyOutputBounds : Obligations.NrApplyOutputBounds := by
  intro s i hi heven hodd hmin sig sm
  have hlegal := (fractionsLegal_iff s.cfg).2 ⟨heven, hodd, hmin⟩
  obtain ⟨t, hx, hchannels, -, -⟩ := execNrApply_answers hlegal
  obtain ⟨hest, hsig⟩ := hchannels i hi
  refine ⟨t, hx, ?floor, fun hwrap => ?signal, fun hsilent => ⟨?output, ?decay⟩⟩
  case floor => exact (le_max_right _ _).trans_eq hsig.symm
  case signal => exact hsig.trans_le (nrOutput_le hlegal hwrap)
  case output =>
    have hle := nrOutput_le (i := i) hlegal (by simp [show (Memory.read s.bufs.sig i).toNat = 0 from hsilent])
    exact BitVec.eq_of_toNat_eq (hsig.trans (Nat.le_zero.1 (hle.trans_eq hsilent)))
  case decay => exact hest.trans (blended_of_silent hsilent)

end Sys2Proof.Machine
end

section
/-! Unit GC (45_gain_control.md): the lookup of the gain (R256, R258, R259), `Shrink` (R262, R263), and both answers of
`GC.APPLY` (R251 to R254). -/

namespace Sys2Proof.Machine

/-! ### The gain lookup -/

theorem wdf_of_le (t : Tables) {x : Nat} (h : x ≤ 2) : wdf t x = Memory.read t.glut x :=
  if_pos h

theorem wdf_of_two_lt (t : Tables) {x : Nat} (h : 2 < x) :
    wdf t x = BitVec.ofInt 16 (interpolated t (4 * msb1 x - 6) (gainFraction x)) :=
  if_neg (by omega)

theorem gainFraction_lt (x : Nat) : gainFraction x < 1024 :=
  Nat.mod_lt _ (by decide)

theorem msb1_two_pow (k : Nat) : msb1 (2 ^ k) = k + 1 :=
  msb1_eq _ _ k.two_pow_pos.ne' le_rfl (Nat.pow_lt_pow_right (by decide) k.lt_succ_self)

/-- A power of two has nothing below its leading one: aligned to bit 10 it is 1024. -/
theorem gainFraction_two_pow (k : Nat) : gainFraction (2 ^ k) = 0 := by
  have haligned : (if k + 1 < 11 then 2 ^ k * 2 ^ (11 - (k + 1)) else 2 ^ k / 2 ^ (k + 1 - 11)) = 2 ^ 10 := by
    split
    · rw [← Nat.pow_add]; congr 1; omega
    · rw [Nat.pow_div (by omega) (by decide)]; congr 1; omega
  rw [gainFraction, msb1_two_pow, haligned]
  exact Nat.mod_self (2 ^ 10)

/-- At the lower end of an interval both correction terms vanish and 16384 rounds to nothing. -/
theorem interpolated_zero (t : Tables) (base : Nat) : interpolated t base 0 = glutAt t base := by
  simp [interpolated]

/-- Settles O39: the lower end of an interval has fraction 0, and that of the first interval is the entry GLUT[2]. -/
theorem wdfAtIntervalEnds : Obligations.WdfAtIntervalEnds := by
  refine fun t => ⟨fun x hx => wdf_of_le t hx, fun v hv _ => ?_⟩
  obtain ⟨k, rfl⟩ : ∃ k, v = k + 1 := ⟨v - 1, by omega⟩
  rw [Nat.add_sub_cancel]
  obtain rfl | hk : k = 1 ∨ 2 ≤ k := by omega
  · exact wdf_of_le t le_rfl
  · have hx : 2 < 2 ^ k := (show 2 < 2 ^ 2 by decide).trans_le (Nat.pow_le_pow_right (by decide) hk)
    rw [wdf_of_two_lt t hx, msb1_two_pow, gainFraction_two_pow, interpolated_zero]
    exact BitVec.ofInt_toInt

/-! ### The widths of the interpolation -/

/-- The factor of the second product of R258: 32 times the slope a1 + a2 · frac / 1024, truncated. -/
def gainSlope (a1 a2 frac : Int) : Int :=
  a2 * frac / 32 + a1 * 32

theorem interpolated_eq (t : Tables) (base frac : Nat) :
    interpolated t base frac
      = (gainSlope (glutAt t (base + 1)) (glutAt t (base + 2)) frac * frac + 16384) / 32768 + glutAt t base :=
  rfl

theorem glutAt_bounds (t : Tables) (i : Nat) : -32768 ≤ glutAt t i ∧ glutAt t i ≤ 32768 :=
  ⟨BitVec.le_toInt _, (BitVec.toInt_lt (x := Memory.read t.glut i)).le⟩

/-- A factor of magnitude at most m, times a fraction. -/
theorem mul_fraction_bounds {a m frac : Int} (ha : -m ≤ a ∧ a ≤ m) (h0 : 0 ≤ frac) (h1 : frac ≤ 1023) :
    -(m * 1023) ≤ a * frac ∧ a * frac ≤ m * 1023 := by
  have habs : |frac| ≤ 1023 := (abs_of_nonneg h0).trans_le h1
  exact abs_le.1 ((abs_mul a frac).trans_le (mul_le_mul (abs_le.2 ha) habs (abs_nonneg _) (by omega)))

theorem gainSlope_bounds {a1 a2 frac : Int} (ha1 : -32768 ≤ a1 ∧ a1 ≤ 32768) (ha2 : -32768 ≤ a2 ∧ a2 ≤ 32768)
    (h0 : 0 ≤ frac) (h1 : frac ≤ 1023) : -2096128 ≤ gainSlope a1 a2 frac ∧ gainSlope a1 a2 frac ≤ 2096128 := by
  have hprod := mul_fraction_bounds ha2 h0 h1
  unfold gainSlope
  omega

/-- Settles O40: the slope is at most 2096128 in magnitude, so its product with the fraction stays below 2^31. -/
theorem wdfStaysInThirtyTwoBits : Obligations.WdfStaysInThirtyTwoBits := by
  intro t x v hx _ hlo hhi base frac a1 a2 t1 t2 t3
  have hv : msb1 x = v := msb1_eq x v (by omega) hlo hhi
  have hfrac : gainFraction x = frac := by rw [gainFraction, hv]
  have h0 : (0 : Int) ≤ frac := Int.natCast_nonneg frac
  have h1 : (frac : Int) ≤ 1023 := by
    have hlt := gainFraction_lt x
    omega
  have hfirst : -(32768 * 1023) ≤ a2 * frac ∧ a2 * frac ≤ 32768 * 1023 :=
    mul_fraction_bounds (glutAt_bounds t (base + 2)) h0 h1
  have hslope : -2096128 ≤ t2 ∧ t2 ≤ 2096128 :=
    gainSlope_bounds (glutAt_bounds t (base + 1)) (glutAt_bounds t (base + 2)) h0 h1
  have hsecond : -(2096128 * 1023) ≤ t2 * frac ∧ t2 * frac ≤ 2096128 * 1023 := mul_fraction_bounds hslope h0 h1
  have hround : t3 = t2 * frac + 16384 := rfl
  have hfits {n : Int} (h : -2147483648 ≤ n ∧ n < 2147483648) : fitsSigned 32 n = true := (fitsSigned_iff 32 n).2 h
  refine ⟨hfits (by omega), hfits (by omega), hfits (by omega), hfits (by omega), by omega, by omega, ?answer⟩
  case answer => rw [wdf_of_two_lt t hx, hv, hfrac, interpolated_eq]; rfl

/-! ### Shrink -/

theorem shrink_of_lt {x : Nat} (h : x < 8192) : shrink x = x * x / 2 ^ 20 :=
  if_pos h

theorem shrink_of_le {x : Nat} (h : 8192 ≤ x) : shrink x = x / 64 - 64 :=
  if_neg (by omega)

/-- Below the knee the square stays under 2^26 (R263). -/
theorem mul_self_lt_of_lt_knee {x : Nat} (h : x < 8192) : x * x < 2 ^ 26 :=
  Nat.mul_self_lt_mul_self h

theorem shrink_mono {x y : Nat} (h : x ≤ y) : shrink x ≤ shrink y := by
  obtain hy | hy := Nat.lt_or_ge y 8192
  · rw [shrink_of_lt (h.trans_lt hy), shrink_of_lt hy]
    exact Nat.div_le_div_right (Nat.mul_self_le_mul_self h)
  obtain hx | hx := Nat.lt_or_ge x 8192
  · have hsq := mul_self_lt_of_lt_knee hx
    rw [shrink_of_lt hx, shrink_of_le hy]
    omega
  · rw [shrink_of_le hx, shrink_of_le hy]
    omega

/-- The largest u32 number gives the largest output. -/
theorem shrink_le {x : Nat} (h : x < 2 ^ 32) : shrink x ≤ 2 ^ 26 - 65 :=
  (shrink_mono (Nat.le_pred_of_lt h)).trans (by decide)

/-- Settles O41: the two branches are monotone and meet at the knee, so u32 inputs are bounded by the value at the last. -/
theorem shrinkIsMonotone : Obligations.ShrinkIsMonotone :=
  ⟨fun _ _ => shrink_mono, by decide, by decide,
    fun _ hx => ⟨shrink_le hx, mul_self_lt_of_lt_knee, fun hknee => (Nat.le_div_iff_mul_le (by decide)).2 hknee⟩,
    by decide⟩

/-! ### GC.APPLY -/

theorem execGcApply_of_disabled {s : State} (h : s.cfg.gcEnable = 0) : execGcApply s = .next (goSeq 10 s) :=
  if_neg (by simp [h])

theorem execGcApply_of_enabled {s : State} (h : s.cfg.gcEnable = 1) :
    execGcApply s = .next (goSeq 10 { s with
      bufs := { s.bufs with
        sig := Memory.writeRange s.bufs.sig 0 s.cfg.nchan.toNat
          (fun i => BitVec.ofNat 32 (shrink (signalToNoise s i))) } }) :=
  if_pos h

/-- The 32-bit pattern of a gain as an unsigned number (R253). -/
theorem toNat_signExtend_gain (g : BitVec 16) :
    (g.signExtend 32).toNat = (if g.toInt < 0 then 2 ^ 32 + g.toInt else g.toInt).toNat := by
  have hlo := BitVec.le_toInt g
  have hhi := BitVec.toInt_lt (x := g)
  norm_num at hlo hhi
  rw [BitVec.signExtend, BitVec.toNat_ofInt]
  split <;> omega

theorem signalToNoise_lt (s : State) (i : Nat) : signalToNoise s i < 2 ^ 32 :=
  Nat.mod_lt _ (by decide)

/-- A shrunk value fits its element. -/
theorem toNat_ofNat_shrink {x : Nat} (h : x < 2 ^ 32) : (BitVec.ofNat 32 (shrink x)).toNat = shrink x := by
  rw [BitVec.toNat_ofNat]
  exact Nat.mod_eq_of_lt ((shrink_le h).trans_lt (by decide))

/-- Settles O37: the disabled branch only moves `SEQ`. -/
theorem gcApplyDisabledPassesThrough : Obligations.GcApplyDisabledPassesThrough :=
  fun _ h => execGcApply_of_disabled h

/-- Settles O38: SIG holds the shrunk values themselves, since no shrunk value is cut to its element. -/
theorem gcApplyCompresses : Obligations.GcApplyCompresses := by
  refine fun s henable => ⟨_, execGcApply_of_enabled henable, fun i hi => ?channels, fun i hi => ?others, rfl⟩
  case channels =>
    intro gain g snr
    have hsnr : signalToNoise s i = snr := by rw [signalToNoise, gainOf, toNat_signExtend_gain, wrap32]
    rw [goSeq_bufs, Memory.read_writeRange, if_pos (by omega), Nat.sub_zero, toNat_ofNat_shrink (signalToNoise_lt s i),
      hsnr]
    rfl
  case others => rw [goSeq_bufs, Memory.read_writeRange, if_neg (by omega)]

end Sys2Proof.Machine
end

section
/-! Unit LS (46_log_scale.md): `Log2Frac` as a mantissa plus a blend of two table entries, the widths of `LogScaled`
(R284, R285, R292), and the features `LS.APPLY` stores (R281 to R283, R293). -/

namespace Sys2Proof.Machine

/-! ### Log2Frac -/

theorem logInterpShift_eq : logInterpShift = 16 ∨ logInterpShift = 9 := by
  unfold logInterpShift
  split
  · exact .inr rfl
  · exact .inl rfl

/-- The mantissa of a number with highest set bit n is a fraction of 16 bits (R285). -/
theorem mantissaFraction_lt {v n : Nat} (h : v < 2 ^ (n + 1)) : mantissaFraction v n < 2 ^ 16 := by
  have hm : v - 2 ^ n < 2 ^ n := by
    rw [Nat.pow_succ] at h
    omega
  unfold mantissaFraction
  split
  case isTrue hn =>
    calc (v - 2 ^ n) * 2 ^ (16 - n)
      _ < 2 ^ n * 2 ^ (16 - n) := Nat.mul_lt_mul_of_pos_right hm (Nat.two_pow_pos _)
      _ = 2 ^ 16 := by rw [← Nat.pow_add, Nat.add_sub_cancel' hn.le]
  case isFalse hn =>
    rw [Nat.div_lt_iff_lt_mul (Nat.two_pow_pos _), ← Nat.pow_add, Nat.add_sub_cancel' (not_lt.1 hn)]
    exact hm

/-- A value plus a floored part of the way to another is the floored blend of the two, whichever is larger. -/
theorem add_mul_ediv_eq_blend (c0 c1 : Nat) {r one : Nat} (hr : r ≤ one) (hone : 0 < one) :
    (c0 : Int) + ((c1 : Int) - c0) * r / one = ((c1 * r + c0 * (one - r)) / one : Nat) := by
  have hne : (one : Int) ≠ 0 := by omega
  rw [add_comm, ← Int.add_mul_ediv_right _ _ hne]
  push_cast [hr]
  congr 1
  ring

/-- The two table entries of a fraction's segment, weighted by its offset in the segment over 2^`LOG_INTERP_SHIFT`. -/
def llutBlend (interp frac : Nat) : Nat :=
  (llut (frac / 2 ^ 9 + 1) * (frac % 2 ^ 9) + llut (frac / 2 ^ 9) * (2 ^ interp - frac % 2 ^ 9)) / 2 ^ interp

/-- The offset inside a segment is below 512, so either shift makes it a weight of at most 1.0 (R285). -/
theorem offset_le_two_pow (frac : Nat) {interp : Nat} (hinterp : 9 ≤ interp) : frac % 2 ^ 9 ≤ 2 ^ interp :=
  calc frac % 2 ^ 9
    _ ≤ 2 ^ 9 := (Nat.mod_lt frac (by decide)).le
    _ ≤ 2 ^ interp := Nat.pow_le_pow_right (by decide) hinterp

theorem llutBlend_lt (frac : Nat) {interp : Nat} (hinterp : 9 ≤ interp) : llutBlend interp frac < 2 ^ 16 :=
  blend_lt (offset_le_two_pow frac hinterp) (llut_lt _) (llut_lt _)

/-- `Log2Frac` without its signed product: the mantissa plus a blend of table entries. -/
theorem log2Frac_eq {interp : Nat} (v n : Nat) (hinterp : 9 ≤ interp) :
    log2Frac interp v n = (mantissaFraction v n + llutBlend interp (mantissaFraction v n) : Nat) := by
  simp only [log2Frac]
  generalize mantissaFraction v n = frac
  have hoffset : (frac : Int) - 512 * (frac / 2 ^ 9 : Nat) = (frac % 2 ^ 9 : Nat) := by omega
  have hblend := add_mul_ediv_eq_blend (llut (frac / 2 ^ 9)) (llut (frac / 2 ^ 9 + 1))
    (offset_le_two_pow frac hinterp) (Nat.two_pow_pos interp)
  rw [Nat.cast_pow, Nat.cast_ofNat] at hblend
  rw [hoffset, add_assoc, hblend, Nat.cast_add, llutBlend]

theorem log2Frac_bounds {interp v n : Nat} (hv : v < 2 ^ (n + 1)) (hinterp : 9 ≤ interp) :
    0 ≤ log2Frac interp v n ∧ log2Frac interp v n < 2 ^ 17 := by
  have hfrac := mantissaFraction_lt hv
  have hblend := llutBlend_lt (mantissaFraction v n) hinterp
  rw [log2Frac_eq v n hinterp]
  omega

/-! ### LogScaled -/

/-- The base-2 logarithm of v in 16 fraction bits (R284), for v with highest set bit n. -/
theorem log2_bounds {interp v n : Nat} (hhi : v < 2 ^ 32) (hn : 2 ^ n ≤ v) (hv : v < 2 ^ (n + 1))
    (hinterp : 9 ≤ interp) :
    0 ≤ (n : Int) * 65536 + log2Frac interp v n ∧ (n : Int) * 65536 + log2Frac interp v n < 33 * 65536 := by
  have hn31 : n < 32 := (Nat.pow_lt_pow_iff_right (by decide)).1 (hn.trans_lt hhi)
  have hfrac := log2Frac_bounds hv hinterp
  omega

/-- R284 over the integers, where the logarithm is not negative. -/
theorem cast_logScaled {interp v n : Nat} (sh : Nat) (hn : 2 ^ n ≤ v) (hv : v < 2 ^ (n + 1))
    (h0 : 0 ≤ (n : Int) * 65536 + log2Frac interp v n) :
    (logScaled interp sh v : Int) =
      ((45426 * ((n : Int) * 65536 + log2Frac interp v n) + 32768) / 65536 * 2 ^ sh + 32768) / 65536 := by
  have hmsb : msb1 v - 1 = n := flog2_eq hn hv
  simp only [logScaled, hmsb, logCoeff]
  push_cast [Int.toNat_of_nonneg h0]
  norm_num

/-- Settles O43: with the logarithm below 33 · 65536 the product before the last shift is far enough from 2^32. -/
theorem logScaledStaysBelowTheClamp : Obligations.LogScaledStaysBelowTheClamp := by
  refine ⟨logInterpShift_eq, fun v n sh interp _ hhi hn hv hsh hinterp => ?_⟩
  intro m frac seg c0 c1 fr l2 le
  have hinterp9 : 9 ≤ interp := by omega
  have hfrac : frac < 2 ^ 16 := mantissaFraction_lt hv
  have hl2 : 0 ≤ l2 ∧ l2 < 33 * 65536 := log2_bounds hhi hn hv hinterp9
  have hle : 0 ≤ le ∧ le ≤ 1499058 := by omega
  have hpow : (2 : Int) ^ sh ≤ 2 ^ 11 := pow_le_pow_right₀ (by decide) hsh
  have hprod : le * 2 ^ sh ≤ 1499058 * 2 ^ 11 := mul_le_mul hle.2 hpow (by positivity) (by decide)
  have hcast : (logScaled interp sh v : Int) = (le * 2 ^ sh + 32768) / 65536 := cast_logScaled sh hn hv hl2.1
  exact ⟨by omega, rfl, hl2.1, by omega, by omega, by omega, hcast, by omega⟩

/-! ### LS.APPLY -/

/-- The magnitude of the shift count in each direction (R282). -/
theorem corrected_eq (c : Int) (v : Nat) :
    corrected c v = if c < 0 then v / 2 ^ (-c).toNat else v * 2 ^ c.toNat % 2 ^ 32 := by
  unfold corrected
  split
  · rw [show c.natAbs = (-c).toNat by omega]
  · rw [show c.natAbs = c.toNat by omega, wrap32]

theorem featureValue_of_disabled (interp : Nat) {g : Cfg} (h : g.logEnable = 0) (sig : Nat) :
    featureValue interp g sig = sig :=
  if_neg (by simp [h])

theorem featureValue_of_le_one (interp : Nat) {g : Cfg} {sig : Nat} (h : g.logEnable = 1)
    (hv : corrected g.corrBits.toInt sig ≤ 1) : featureValue interp g sig = 0 :=
  (if_pos h).trans (if_neg (by omega))

theorem featureValue_of_two_le (interp : Nat) {g : Cfg} {sig : Nat} (h : g.logEnable = 1)
    (hv : 2 ≤ corrected g.corrBits.toInt sig) :
    featureValue interp g sig = logScaled interp g.logShift.toNat (corrected g.corrBits.toInt sig) :=
  (if_pos h).trans (if_pos hv)

/-- A saturated feature fits its element, so FEAT holds the number itself (R292). -/
theorem toNat_read_feat_lsApplyWith (interp : Nat) (s : State) {i : Nat} (hi : i < s.cfg.nchan.toNat) :
    (Memory.read (lsApplyWith interp s).bufs.feat i).toNat =
      min (featureValue interp s.cfg (Memory.read s.bufs.sig i).toNat) 65535 := by
  rw [lsApplyWith, Memory.read_writeRange, if_pos (by omega), BitVec.toNat_ofNat]
  exact Nat.mod_eq_of_lt (Nat.lt_succ_of_le (min_le_right _ _))

/-- Settles O42: the three values of a feature before it is saturated. -/
theorem lsApplyScalesAndSaturates : Obligations.LsApplyScalesAndSaturates := by
  refine ⟨rfl, rfl, fun s => ⟨lsApplyWith logInterpShift s, rfl, fun i hi => ?channels, fun i hi => ?others, rfl⟩⟩
  case channels =>
    intro sig c v
    have hv : corrected c sig = v := corrected_eq c sig
    rw [toNat_read_feat_lsApplyWith _ _ hi]
    refine ⟨fun hoff => ?disabled, fun hon hle => ?clamped, fun hon hge => ?scaled⟩
    case disabled => rw [featureValue_of_disabled _ hoff]
    case clamped => rw [featureValue_of_le_one _ hon (hv.trans_le hle), Nat.zero_min]
    case scaled => rw [featureValue_of_two_le _ hon (hge.trans_eq hv.symm), hv]
  case others => rw [lsApplyWith, Memory.read_writeRange, if_neg (by omega)]

end Sys2Proof.Machine
end

section
/-! The host commands one step each (47_frontend_commands.md R310 to R335): what each answers in the phase that allows
it, its refusals, and what it leaves unchanged. -/

namespace Sys2Proof.Machine

/-! ### The step -/

theorem fetchMicro_of_rom {seq : BitVec 4} {b : MicroCode} {i : Instr} (hb : microRom[seq.toNat]? = some b)
    (hd : decodeMicro b = .ok i) : fetchMicro seq = some i := by
  simp [fetchMicro, hb, hd, Except.toOption]

/-- Settles O6, from the step's own cases; a byte of the ROM is fetched as what it decodes to. -/
theorem stepRunsTheDecodedInstruction : Obligations.StepRunsTheDecodedInstruction :=
  ⟨fun s n _ i ha hb hd => step_running s n i ha (fetchMicro_of_rom hb hd), fun s c rest i => step_command s c rest i,
    step_idle⟩

/-! ### Refusals -/

/-- A refusal changes `ERR` and the answer only (R354, R355). -/
theorem sameButResult_raise_refusal (s : State) {e : ErrCode} (h : e.isConstruction = false) :
    sameButResult s (raise e s) := by
  rw [raise_refusal e s h]
  exact ⟨rfl, rfl, rfl, rfl, rfl, rfl⟩

theorem execCfgwr_refused {s : State} (index : Nat) (h : s.regs.phase ≠ .unconfigured) :
    execCfgwr index s = .next (raise .state s) :=
  if_pos h

theorem tblwrWith_refused (c : Config.Caps) {s : State} (space index : Nat) (h : s.regs.phase ≠ .unconfigured) :
    tblwrWith c space index s = raise .state s :=
  if_pos h

theorem commitWith_refused (c : Config.Caps) (init : Nat → Bool) {s : State} (h : s.regs.phase ≠ .unconfigured) :
    commitWith c init s = raise .state s :=
  if_pos h

theorem execProc_refused {s : State} (count : Nat) (h : s.regs.phase ≠ .awaitingFrame) :
    execProc count s = .next (raise .state s) :=
  if_pos h

theorem execRst_refused {s : State} (h : s.regs.phase ≠ .awaitingFrame) : execRst s = .next (raise .state s) :=
  if_pos h

/-- Settles O21: each of the five commands checks its phase first and raises `E_STATE`. -/
theorem phaseRefusals : Obligations.PhaseRefusals := by
  intro s i h
  refine ⟨raise .state s, ?_, rfl, rfl, sameButResult_raise_refusal s rfl⟩
  obtain ⟨hp, rfl | ⟨k, rfl⟩ | ⟨sp, k, rfl⟩⟩ | ⟨hp, rfl | ⟨n, rfl⟩⟩ := h
  · exact congrArg _ (commitWith_refused _ _ hp)
  · exact execCfgwr_refused k hp
  · exact congrArg _ (tblwrWith_refused _ sp k hp)
  · exact execRst_refused hp
  · exact execProc_refused n hp

/-! ### Words with a field their command does not have -/

/-- A word with a non-zero field that its command does not have is no command (R107 (b)). -/
theorem decodeHost_nop_error {w : HostWord} (hop : field w 31 24 = 0) (h : field w 23 16 ≠ 0 ∨ field w 15 0 ≠ 0) :
    ∃ e, decodeHost w = .error e := by
  simp only [decodeHost, hop, bareCommand]
  split
  · exact ⟨_, rfl⟩
  · next hspace => exact ⟨_, if_pos (h.resolve_left hspace)⟩

theorem decodeHost_cfgwr_error {w : HostWord} (hop : field w 31 24 = 1) (h : field w 23 16 ≠ 0) :
    ∃ e, decodeHost w = .error e := by
  simp only [decodeHost, hop, argCommand]
  exact ⟨_, if_pos h⟩

/-! ### NOP -/

/-- Settles O7: `NOP` is `finish` with the answer 0, and a word with `OP` = 0 is `NOP` or illegal. -/
theorem nopSetsErrOnly : Obligations.NopSetsErrOnly := by
  refine ⟨fun s => ⟨finish 0 s, rfl, rfl, rfl, rfl, rfl, rfl, rfl, rfl, rfl⟩, rfl, fun s c rest ha hq hop hfields => ?_⟩
  obtain ⟨e, he⟩ := decodeHost_nop_error hop hfields
  rw [step_illegal s c rest e ha hq he, raise_refusal _ _ rfl]
  rfl

/-! ### PROC, SEQ.END -/

/-- Settles O13, on the one condition `PROC` checks. -/
theorem procStartsTheMicroProgram : Obligations.ProcStartsTheMicroProgram := by
  refine fun s n => ⟨fun hp => if_neg (not_not.2 hp), fun hp => ?_⟩
  exact (execProc_refused n hp).trans (congrArg _ (raise_refusal .state s rfl))

/-- Settles O44, on the two exits. -/
theorem seqEndReturns : Obligations.SeqEndReturns := by
  refine ⟨rfl, rfl, fun s => ?_⟩
  obtain ⟨t, hx⟩ : ∃ t, execSeqEnd s = .next t := ⟨_, rfl⟩
  obtain ⟨hp, rfl⟩ | ⟨hp, rfl⟩ := execSeqEnd_next hx
  · exact ⟨fun _ => hx, fun hne => absurd hp hne⟩
  · exact ⟨fun h => absurd h hp, fun _ => hx⟩

/-! ### RST -/

theorem execRst_answers {s : State} (h : s.regs.phase = .awaitingFrame) :
    execRst s = .next (finish 0 (historyCleared s)) :=
  if_neg (not_not.2 h)

/-- Settles O14: the cleared buffers list no element, the others are not written. -/
theorem rstClearsHistory : Obligations.RstClearsHistory := by
  refine fun s => ⟨fun hp => ⟨_, execRst_answers hp, ?cleared, rfl, rfl, rfl, rfl, rfl, rfl, rfl, rfl⟩, fun hp => ?_⟩
  case cleared => rintro _ i (rfl | rfl | rfl | rfl | rfl) <;> rfl
  · exact (execRst_refused hp).trans (congrArg _ (raise_refusal .state s rfl))

/-- Settles O15: what is cleared twice is cleared, and a refusal keeps the phase that caused it. -/
theorem rstIsIdempotent : Obligations.RstIsIdempotent := by
  intro s
  by_cases hp : s.regs.phase = .awaitingFrame
  · exact ⟨_, execRst_answers hp, execRst_answers (s := finish 0 (historyCleared s)) hp⟩
  · exact ⟨_, execRst_refused hp, execRst_refused (s := raise .state s) hp⟩

/-! ### CLR -/

theorem Regs.read_reset (i : Nat) : Regs.reset.read i = 0 := by
  unfold Regs.read
  split <;> rfl

theorem Cfg.read_reset (i : Nat) : Cfg.reset.read i = 0 := by
  unfold Cfg.read
  split <;> rfl

/-- A block at its power-on values, whatever its port, reads 0 in every space but the ROM LLUT (R380). -/
theorem memRead_powerOn (p : Port) (f : Nat) {sp : Space} (h : sp ≠ .llut) (i : Nat) :
    memRead { State.reset with port := p, freeCtr := f } sp i = 0 := by
  cases sp with
  | llut => exact absurd rfl h
  | cfg => exact Cfg.read_reset i
  | reg => exact Regs.read_reset i
  | coef | inp | out | spec | energy | fstart | wstart | width | weight | unweight | work | sig | est | glut
  | feat => rfl

/-- Settles O18: `CLR` leaves the block at power-on with its port kept. -/
theorem clrPowersOn : Obligations.ClrPowersOn :=
  ⟨rfl, fun s => ⟨{ State.reset with port := { s.port with rdata := 0 }, freeCtr := s.freeCtr }, rfl,
    fun _ i h => memRead_powerOn _ _ h i, fun _ => rfl, rfl, rfl, rfl, rfl, rfl, rfl⟩⟩

/-! ### RD -/

theorem hostWord_eq (op space arg : Nat) :
    hostWord op space arg = BitVec.ofNat 32 (0x1000000 * op + 0x10000 * space + arg) := by
  have hsum : op * 2 ^ 24 + space * 2 ^ 16 + arg = 0x1000000 * op + 0x10000 * space + arg := by omega
  exact congrArg (BitVec.ofNat 32) hsum

/-- The spaces in the order of their ids (R30). -/
theorem ofId_eq_getElem? (id : Nat) :
    Space.ofId id =
      ([.cfg, .reg, .coef, .inp, .out, .spec, .energy, .fstart, .wstart, .width, .weight, .unweight, .work, .sig, .est,
        .glut, .llut, .feat] : List Space)[id]? := by
  by_cases h : id < 18
  · interval_cases id <;> rfl
  · rw [List.getElem?_eq_none (by simpa using h)]
    unfold Space.ofId
    split
    case h_19 => rfl
    all_goals exact absurd (by decide) h

theorem ofId_reserved {id : Nat} (h : 0x11 < id) : Space.ofId id = none := by
  rw [ofId_eq_getElem?]
  exact List.getElem?_eq_none h

theorem rdWith_answers (c : Config.Caps) {id i : Nat} {sp : Space} (s : State) (hsp : Space.ofId id = some sp)
    (hi : i < sp.capacity c) : rdWith c id i s = finish (memRead s sp i) s := by
  simp [rdWith, hsp, hi]

/-- Without a space or past its capacity there is no element (R330, R355). -/
theorem rdWith_refused (c : Config.Caps) {id i : Nat} (s : State)
    (h : ∀ sp, Space.ofId id = some sp → sp.capacity c ≤ i) : rdWith c id i s = raise .range s := by
  obtain e | ⟨sp, hsp, hi, -⟩ := rdWith_cases c id i s
  · exact e
  · exact absurd (h sp hsp) (not_le.2 hi)

/-- Settles O16: a reserved id names no space, and past a capacity there is no element. -/
theorem rdAnswersTheElement : Obligations.RdAnswersTheElement := by
  refine ⟨fun id i _ _ => ?code, ofId_eq_getElem?, ?capacities,
    fun s id i => ⟨fun sp hsp hi => ?element, fun h => ?refused⟩⟩
  case code => exact congrArg Code.host (hostWord_eq 6 id i)
  case capacities => exact ⟨rfl, rfl, rfl, rfl, rfl, rfl, rfl, rfl, rfl, rfl, rfl, rfl, rfl, rfl, rfl, rfl, rfl, rfl⟩
  case element => exact congrArg _ (rdWith_answers _ s hsp hi)
  case refused =>
    refine (congrArg _ (rdWith_refused _ s fun sp hsp => ?_)).trans (congrArg _ (raise_refusal .range s rfl))
    obtain hid | ⟨sp', hsp', hi⟩ := h
    · rw [ofId_reserved hid] at hsp
      cases hsp
    · cases hsp.symm.trans hsp'
      exact hi

/-! ### The value CFGWR and TBLWR write -/

/-- A data word in the range of `uN`, stored in n bits and zero-extended, is the data word again (R78, R106). -/
theorem setWidth_ofInt_of_fits {n : Nat} {x : DataWord} (hn : n ≤ 64) (h : fitsUnsigned n x.toInt = true) :
    (BitVec.ofInt n x.toInt).setWidth 64 = x := by
  have hstored := toNat_ofInt_of_fits n x.toInt h
  have hnonneg := ((fitsUnsigned_iff n _).1 h).1
  have hnum : x.toInt = (x.toNat : Int) := by
    have hcond := BitVec.toInt_eq_toNat_cond x
    split at hcond <;> omega
  refine BitVec.eq_of_toNat_eq ?_
  rw [BitVec.toNat_setWidth_of_le hn]
  omega

/-- A data word in the range of s16, stored in 16 bits and sign-extended, is the data word again (R78, R106). -/
theorem signExtend_ofInt_of_fits {x : DataWord} (h : fitsSigned 16 x.toInt = true) :
    (BitVec.ofInt 16 x.toInt).signExtend 64 = x := by
  refine BitVec.eq_of_toInt_eq ?_
  rw [BitVec.toInt_signExtend_of_le (by decide), toInt_ofInt_of_fits _ h]

/-! ### CFGWR -/

theorem Cfg.read_eq_zero (g : Cfg) {j : Nat} (h : 18 ≤ j) : g.read j = 0 := by
  unfold Cfg.read
  split
  case h_19 => rfl
  all_goals exact absurd h (by decide)

/-- The register written reads the value (R312). -/
theorem Cfg.read_write_same (g : Cfg) {i : Nat} {x : DataWord} (hi : i ≤ 15)
    (hx : fitsUnsigned (cfgTypeBits i) x.toInt = true) : (g.write i x.toInt).read i = x := by
  interval_cases i <;> exact setWidth_ofInt_of_fits (by decide) hx

/-- Every other register reads as before. -/
theorem Cfg.read_write_other (g : Cfg) {i j : Nat} (v : Int) (h : j ≠ i) : (g.write i v).read j = g.read j := by
  by_cases hj : j < 18
  · unfold Cfg.write
    split <;> interval_cases j <;> try rfl
    all_goals exact absurd rfl h
  · rw [Cfg.read_eq_zero _ (not_lt.1 hj), Cfg.read_eq_zero _ (not_lt.1 hj)]

/-- The largest number of the register's type: u8, u1 or u16 (R40). -/
theorem two_pow_cfgTypeBits (i : Nat) :
    (2 : Int) ^ cfgTypeBits i =
      (if i = 7 ∨ i = 8 ∨ i = 13 ∨ i = 15 then 255 else if i = 12 ∨ i = 14 then 1 else 65535) + 1 := by
  unfold cfgTypeBits
  split
  case h_7 => simp_all
  all_goals rfl

/-- What `CFGWR` demands of the operands, in an unconfigured block (R312). -/
theorem execCfgwr_answers {s : State} {i : Nat} (hp : s.regs.phase = .unconfigured) (hi : i ≤ 15)
    (hv : fitsUnsigned (cfgTypeBits i) s.port.value = true) :
    execCfgwr i s = .next (finish 0 { s with cfg := s.cfg.write i s.port.value }) := by
  simp [execCfgwr, hp, not_lt.2 hi, hv]

theorem execCfgwr_outOfRange {s : State} {i : Nat} (hp : s.regs.phase = .unconfigured)
    (h : 15 < i ∨ ¬ fitsUnsigned (cfgTypeBits i) s.port.value = true) :
    execCfgwr i s = .next (raise .range s) := by
  obtain hi | hv := h
  · simp [execCfgwr, hp, hi]
  · simp [execCfgwr, hp, hv]

/-- Settles O8: the type's range is what `fitsUnsigned` checks, and a stored value reads back as the data word. -/
theorem cfgwrWritesOneRegister : Obligations.CfgwrWritesOneRegister := by
  refine ⟨fun i _ => ?code, fun w => decodeHost_cfgwr_error, fun s i => ?_⟩
  case code => exact congrArg Code.host (hostWord_eq 1 0 i)
  intro top refused
  have htop : (2 : Int) ^ cfgTypeBits i = top + 1 := two_pow_cfgTypeBits i
  have hrefused (e : ErrCode) (he : e.isConstruction = false) : raise e s = refused e := raise_refusal e s he
  refine ⟨fun hp hi h0 h1 => ?writes, fun hp => ?state, fun hp h => ?range⟩
  case writes =>
    have hfits : fitsUnsigned (cfgTypeBits i) s.port.value = true :=
      (fitsUnsigned_iff _ _).2 ⟨h0, by rw [htop]; exact Int.lt_add_one_of_le h1⟩
    exact ⟨_, execCfgwr_answers hp hi hfits, Cfg.read_write_same s.cfg hi hfits,
      fun j hj => Cfg.read_write_other s.cfg _ hj, rfl⟩
  case state => exact (execCfgwr_refused i hp).trans (congrArg _ (hrefused .state rfl))
  case range =>
    refine (execCfgwr_outOfRange hp (h.imp_right fun hv hfits => ?_)).trans (congrArg _ (hrefused .range rfl))
    obtain ⟨h0, h1⟩ := (fitsUnsigned_iff _ _).1 hfits
    rw [htop] at h1
    exact hv.elim (not_lt.2 h0) (not_lt.2 (Int.le_of_lt_add_one h1))

/-! ### TBLWR -/

theorem signExtend_read_write (m : Memory 16) (i j : Nat) {x : DataWord} (h : fitsSigned 16 x.toInt = true) :
    (Memory.read (Memory.write m i (BitVec.ofInt 16 x.toInt)) j).signExtend 64
      = if j = i then x else (Memory.read m j).signExtend 64 := by
  rw [Memory.read_write, apply_ite (BitVec.signExtend 64), signExtend_ofInt_of_fits h]

theorem setWidth_read_write (m : Memory 16) (i j : Nat) {x : DataWord} (h : fitsUnsigned 16 x.toInt = true) :
    (Memory.read (Memory.write m i (BitVec.ofInt 16 x.toInt)) j).setWidth 64
      = if j = i then x else (Memory.read m j).setWidth 64 := by
  rw [Memory.read_write, apply_ite (BitVec.setWidth 64), setWidth_ofInt_of_fits (by decide) h]

/-- Inside the written space the element reads the value, the others as before: every table range fits the space's
type, s16 or u16 (R30, R313). -/
theorem memRead_write_same (s : State) {sp : Space} {lo hi : Int} (hr : sp.tableRange = some (lo, hi)) (i j : Nat)
    {x : DataWord} (hlo : lo ≤ x.toInt) (hhi : x.toInt ≤ hi) :
    memRead { s with tables := s.tables.write sp i x.toInt } sp j = if j = i then x else memRead s sp j := by
  cases sp with
  | cfg | reg | inp | out | spec | energy | work | sig | est | llut | feat => cases hr
  | coef | weight | unweight | glut =>
    cases hr
    exact signExtend_read_write _ i j ((fitsSigned_iff 16 _).2 (by norm_num; omega))
  | fstart | wstart | width =>
    cases hr
    exact setWidth_read_write _ i j ((fitsUnsigned_iff 16 _).2 (by norm_num; omega))

theorem memRead_write_other (s : State) {sp sp' : Space} (h : sp' ≠ sp) (i j : Nat) (v : Int) :
    memRead { s with tables := s.tables.write sp i v } sp' j = memRead s sp' j := by
  cases sp with
  | cfg | reg | inp | out | spec | energy | work | sig | est | llut | feat => rfl
  | coef | weight | unweight | glut | fstart | wstart | width =>
    cases sp' <;> try rfl
    exact absurd rfl h

/-- No space but REG shows the result of a command. -/
theorem memRead_finish (a : DataWord) (s : State) {sp : Space} (h : sp ≠ .reg) (j : Nat) :
    memRead (finish a s) sp j = memRead s sp j := by
  cases sp with
  | reg => exact absurd rfl h
  | cfg | coef | inp | out | spec | energy | fstart | wstart | width | weight | unweight | work | sig | est | glut
  | llut | feat => rfl

theorem tblwrWith_answers (c : Config.Caps) {s : State} {id i : Nat} {sp : Space} {lo hi : Int}
    (hp : s.regs.phase = .unconfigured) (hsp : Space.ofId id = some sp) (hr : sp.tableRange = some (lo, hi))
    (hi' : i < sp.capacity c) (hlo : lo ≤ s.port.value) (hhi : s.port.value ≤ hi) :
    tblwrWith c id i s = finish 0 { s with tables := s.tables.write sp i s.port.value } := by
  simp [tblwrWith, hp, hsp, hr, not_le.2 hi', hlo, hhi]

/-- Settles O9: the seven table spaces with their ranges are those of `tableRange`. -/
theorem tblwrWritesOneElement : Obligations.TblwrWritesOneElement := by
  intro s id i sp lo hi hp hsp htable hi' hlo hhi
  have hr : sp.tableRange = some (lo, hi) := by
    obtain ⟨rfl, rfl, rfl⟩ | ⟨rfl, rfl, rfl⟩ | ⟨rfl, rfl, rfl⟩ | ⟨rfl, rfl, rfl⟩ | ⟨rfl, rfl, rfl⟩ | ⟨rfl, rfl, rfl⟩ |
      ⟨rfl, rfl, rfl⟩ := htable <;> rfl
  refine ⟨_, congrArg Host.Outcome.next (tblwrWith_answers _ hp hsp hr hi' hlo hhi), fun sp' j hreg => ?_, rfl⟩
  rw [memRead_finish _ _ hreg]
  by_cases hsame : sp' = sp
  · subst hsame
    exact (memRead_write_same s hr i j hlo hhi).trans (if_congr (and_iff_right rfl).symm rfl rfl)
  · rw [if_neg fun h => hsame h.1]
    exact memRead_write_other s hsame i j _

/-- The ids of the table spaces and the range of each (R30, R313). -/
theorem tableRange_of_ofId {id : Nat} {sp : Space} {lo hi : Int} (hsp : Space.ofId id = some sp)
    (hr : sp.tableRange = some (lo, hi)) :
    ((id = 0x02 ∨ id = 0x0A ∨ id = 0x0B) ∧ lo = 0 ∧ hi = 4096) ∨
      ((id = 0x07 ∨ id = 0x08 ∨ id = 0x09) ∧ lo = 0 ∧ hi = 32767) ∨ (id = 0x0F ∧ lo = -32768 ∧ hi = 32767) := by
  unfold Space.ofId at hsp
  split at hsp <;> cases hsp <;> cases hr <;> decide

/-- In an unconfigured block everything but an accepted write is `E_RANGE` (R313). -/
theorem tblwrWith_outOfRange (c : Config.Caps) {s : State} {id i : Nat} (hp : s.regs.phase = .unconfigured)
    (h : ∀ sp lo hi, Space.ofId id = some sp → sp.tableRange = some (lo, hi) → i < sp.capacity c →
      lo ≤ s.port.value → s.port.value ≤ hi → False) : tblwrWith c id i s = raise .range s := by
  obtain ⟨hne, -⟩ | ⟨-, e⟩ | ⟨sp, lo, hi, -, hsp, hr, hi', hlo, hhi, -⟩ := tblwrWith_cases c id i s
  · exact absurd hp hne
  · exact e
  · exact (h sp lo hi hsp hr hi' hlo hhi).elim

/-- Settles O10: each `E_RANGE` clause contradicts what an accepted write needs. -/
theorem tblwrRefusals : Obligations.TblwrRefusals := by
  intro s id i refused
  have range (hp : s.regs.phase = .unconfigured)
      (h : ∀ sp lo hi, Space.ofId id = some sp → sp.tableRange = some (lo, hi) → i < sp.capacity Config.caps →
        lo ≤ s.port.wdata.toInt → s.port.wdata.toInt ≤ hi → False) :
      exec (.tblwr id i) s = .next (refused .range) :=
    congrArg _ ((tblwrWith_outOfRange _ hp h).trans (raise_refusal .range s rfl))
  refine ⟨fun hp => ?state, fun hp hid => range hp ?space, fun sp hp hsp hi => range hp ?index,
    fun hp hid hv => range hp ?unit, fun hp hid hv => range hp ?offset, fun hp hid hv => range hp ?gain⟩
  case state => exact congrArg _ ((tblwrWith_refused _ id i hp).trans (raise_refusal .state s rfl))
  case index =>
    intro sp' _ _ hsp' _ hi' _ _
    cases hsp.symm.trans hsp'
    exact absurd hi' (not_lt.2 hi)
  all_goals
    intro sp lo hi hsp hr _ hlo hhi
    have htable := tableRange_of_ofId hsp hr
    omega

/-! ### COMMIT: the checks -/

theorem bandsFit_iff (g : Cfg) (t : Tables) :
    bandsFit g t = true ↔ ∀ b < g.nchan.toNat + 1,
      (Memory.read t.wstart b).toNat + (Memory.read t.width b).toNat ≤ g.nweight.toNat := by
  simp [bandsFit]

/-- Check 1 whole (R314). -/
theorem fftCheck_iff (n : Nat) : (decide (2 ≤ n) && isPowerOfTwo n) = true ↔ 2 ≤ n ∧ n = 2 ^ Nat.log2 n := by
  rw [Bool.and_eq_true, decide_eq_true_eq]
  exact and_congr_right (isPowerOfTwo_iff n)

/-- `COMMIT` at s, going through these checks, leaves t: a construction failure with the code of the first that fails,
else a block that waits for samples (R314, R356). -/
def Reports (s t : State) (checks : List (Bool × ErrCode)) : Prop :=
  match firstFailure checks with
  | some e => t = { s with regs := { s.regs with err := e, phase := .failed }, port := { s.port with rdata := 0 } }
  | none => t.regs.err = .ok ∧ t.regs.phase = .awaitingFrame

/-- One check read off: `c` is its failure in words. -/
theorem Reports.cons {s t : State} {passed : Bool} {e : ErrCode} {rest : List (Bool × ErrCode)} {c P : Prop}
    [Decidable c] (h : Reports s t ((passed, e) :: rest)) (hc : passed = true ↔ ¬ c) (hrest : Reports s t rest → P) :
    if c then t = { s with regs := { s.regs with err := e, phase := .failed }, port := { s.port with rdata := 0 } }
    else P := by
  unfold Reports at h hrest
  by_cases hfail : c
  · have hp : passed = false := Bool.eq_false_iff.2 fun hp => hc.1 hp hfail
    rw [if_pos hfail]
    simpa [firstFailure, hp] using h
  · rw [if_neg hfail]
    exact hrest (by simpa [firstFailure, hc.2 hfail] using h)

/-- The codes of the 16 checks are the construction failures (R351 (a)). -/
theorem isConstruction_of_commitChecks {c : Config.Caps} {init : Nat → Bool} {g : Cfg} {t : Tables} {e : ErrCode}
    (h : firstFailure (commitChecks c init g t) = some e) : e.isConstruction = true := by
  obtain ⟨before, after, hl, -⟩ := firstFailure_some _ e h
  have hall : ((commitChecks c init g t).map Prod.snd).all ErrCode.isConstruction = true := rfl
  have hmem : (false, e) ∈ commitChecks c init g t := by rw [hl]; exact List.mem_append_right _ List.mem_cons_self
  exact List.all_eq_true.1 hall e (List.mem_map_of_mem (f := Prod.snd) hmem)

theorem reports_commitWith (c : Config.Caps) (init : Nat → Bool) {s : State} (hp : s.regs.phase = .unconfigured) :
    Reports s (commitWith c init s) (commitChecks c init s.cfg s.tables) := by
  obtain ⟨hne, -⟩ | ⟨e, -, hfail, heq⟩ | ⟨-, hpass, heq⟩ := commitWith_cases c init s
  · exact absurd hp hne
  · rw [Reports, hfail, heq]
    exact raise_construction e s (isConstruction_of_commitChecks hfail)
  · rw [Reports, hpass, heq]
    exact ⟨rfl, rfl⟩

/-- Settles O11: the cascade is the list of checks read off one by one. -/
theorem commitReportsTheFirstFailingCheck : Obligations.CommitReportsTheFirstFailingCheck := by
  intro s hp g fft
  refine ⟨_, rfl, ?_⟩
  intro failed
  have le {a b : Nat} : decide (a ≤ b) = true ↔ ¬ b < a := by simp
  have lt {a b : Nat} : decide (a < b) = true ↔ ¬ b ≤ a := by simp
  have both {a b c d : Nat} : (decide (a ≤ b) && decide (c ≤ d)) = true ↔ ¬¬(a ≤ b ∧ c ≤ d) := by simp
  have allThree {a b c d : Nat} :
      (decide (a ≤ d) && decide (b ≤ d) && decide (c ≤ d)) = true ↔ ¬¬(a ≤ d ∧ b ≤ d ∧ c ≤ d) := by
    simp [and_assoc]
  exact (reports_commitWith Config.caps Config.xfmInit hp).cons ((fftCheck_iff _).trans not_not.symm)
    fun h => h.cons le fun h => h.cons le fun h => h.cons le fun h => h.cons le fun h => h.cons both
    fun h => h.cons le fun h => h.cons le fun h => h.cons le fun h => h.cons lt
    fun h => h.cons ((bandsFit_iff _ _).trans not_not.symm) fun h => h.cons le fun h => h.cons allThree
    fun h => h.cons le fun h => h.cons le fun h => h.cons (Bool.not_eq_false _).symm.to_iff id

/-! ### COMMIT: the construction -/

theorem firstFailure_append {l l' : List (Bool × ErrCode)} (h : ∀ p ∈ l, p.1 = true) :
    firstFailure (l ++ l') = firstFailure l' := by
  induction l with
  | nil => rfl
  | cons p l ih =>
    obtain ⟨hp, hl⟩ := List.forall_mem_cons.1 h
    rw [List.cons_append, ← ih hl]
    exact if_pos hp

/-- With checks 1 to 15 passing, check 16 decides (R314). -/
theorem firstFailure_of_configLegal {g : Cfg} {t : Tables} (h : ConfigLegal g t) (init : Nat → Bool) :
    firstFailure (commitChecks Config.caps init g t) = if init g.fftSize.toNat then none else some .xform := by
  have hbefore : ∀ p ∈ (commitChecks Config.caps (fun _ => true) g t).take 15, p.1 = true :=
    fun p hp => (firstFailure_none_iff _).1 h p (List.mem_of_mem_take hp)
  exact firstFailure_append (l' := [(init g.fftSize.toNat, ErrCode.xform)]) hbefore

theorem commitWith_constructs {s : State} {init : Nat → Bool} (hp : s.regs.phase = .unconfigured)
    (h : ConfigLegal s.cfg s.tables) (hinit : init s.cfg.fftSize.toNat = true) :
    commitWith Config.caps init s = constructed s := by
  have hpass := firstFailure_of_configLegal h init
  rw [hinit] at hpass
  simp [commitWith, hp, hpass]

theorem commitWith_unprepared {s : State} {init : Nat → Bool} (hp : s.regs.phase = .unconfigured)
    (h : ConfigLegal s.cfg s.tables) (hinit : init s.cfg.fftSize.toNat = false) :
    commitWith Config.caps init s = raise .xform s := by
  have hfail := firstFailure_of_configLegal h init
  rw [hinit] at hfail
  simp [commitWith, hp, hfail]

theorem ConfigLegal.fftSize_eq {g : Cfg} {t : Tables} (h : ConfigLegal g t) :
    g.fftSize.toNat = 2 ^ flog2 g.fftSize.toNat := by
  rw [ConfigLegal, firstFailure_none_iff] at h
  simp only [commitChecks, List.forall_mem_cons, Bool.and_eq_true] at h
  obtain ⟨⟨-, hpow⟩, -⟩ := h
  exact of_decide_eq_true hpow

/-- log2 of the transform size less 6 (R316). -/
theorem corrBitsOf_eq {n : Nat} (h : n ≠ 0) : corrBitsOf n = (flog2 n : Int) - 6 := by
  have hpos : 1 ≤ msb1 n := by
    rw [msb1, if_neg h]
    exact Nat.le_add_left 1 _
  rw [corrBitsOf, flog2, Nat.cast_sub hpos, fbHalfBits]
  rfl

theorem memRead_of_reset_bufs {s : State} (h : s.bufs = Bufs.reset) {sp : Space} (i : Nat)
    (hsp : sp = .inp ∨ sp = .out ∨ sp = .spec ∨ sp = .energy ∨ sp = .work ∨ sp = .sig ∨ sp = .est ∨ sp = .feat) :
    memRead s sp i = 0 := by
  obtain rfl | rfl | rfl | rfl | rfl | rfl | rfl | rfl := hsp <;> simp only [memRead, h] <;> rfl

/-- Settles O12: check 16 decides between the construction and `E_XFORM`. -/
theorem commitConstructs : Obligations.CommitConstructs := by
  intro s hp hlegal
  refine ⟨_, rfl, fun hinit => ?_, fun hinit => ?_⟩
  · rw [commitWith_constructs hp hlegal hinit]
    have hpow := hlegal.fftSize_eq
    have hne : s.cfg.fftSize.toNat ≠ 0 := hpow ▸ (Nat.two_pow_pos _).ne'
    obtain ⟨hspec, hcorr⟩ := s.cfg.withDerived_derivedLegal
    exact ⟨⟨_, hpow, hcorr.trans (corrBitsOf_eq hne)⟩, hspec, rfl, rfl, fun _ i => memRead_of_reset_bufs rfl i, rfl,
      rfl, rfl⟩
  · rw [commitWith_unprepared hp hlegal hinit]
    exact raise_construction .xform s rfl

end Sys2Proof.Machine
end

section
/-! The phases (47_frontend_commands.md R310, R335): from a state with the invariant every step answers, and the events
that change `PHASE` are four. -/

namespace Sys2Proof.Machine

/-! ### No step stops -/

/-- Every host command answers, in any state (R335, R351). -/
theorem exec_host_answers {i : Instr} {w : HostWord} (hi : encode i = .host w) (s : State) :
    ∃ t, exec i s = .next t := by
  cases i with
  | wFill | wApply | wSlide | shCalc | xReq | fbEnergy | fbAcc | fbSqrt | nrApply | gcApply | lsApply | seqEnd =>
    cases hi
  | nop | tblwr _ _ | commit | rd _ _ | clr => exact ⟨_, rfl⟩
  | cfgwr index =>
    by_cases hp : s.regs.phase = .unconfigured
    · by_cases hv : index ≤ 15 ∧ fitsUnsigned (cfgTypeBits index) s.port.value = true
      · exact ⟨_, execCfgwr_answers hp hv.1 hv.2⟩
      · exact ⟨_, execCfgwr_outOfRange hp (by simpa only [not_le] using not_and_or.1 hv)⟩
    · exact ⟨_, execCfgwr_refused index hp⟩
  | proc count =>
    by_cases hp : s.regs.phase = .awaitingFrame
    · exact ⟨_, if_neg (not_not.2 hp)⟩
    · exact ⟨_, execProc_refused count hp⟩
  | rst =>
    by_cases hp : s.regs.phase = .awaitingFrame
    · exact ⟨_, execRst_answers hp⟩
    · exact ⟨_, execRst_refused hp⟩

/-- Inside a `PROC` the invariant keeps `SEQ` inside the ROM (R22, R318). -/
theorem Inv.seq_lt {s : State} (h : Inv s) (ha : s.port.active ≠ none) : s.regs.seq.toNat < 12 := by
  obtain hp | hp := s.regs.phase.configured_iff.1 (h.disciplined.activePhase ha)
  · obtain ⟨-, hseq | hseq⟩ := h.disciplined.waiting hp <;> rw [hseq] <;> decide
  · obtain ⟨-, hseq, -⟩ := h.disciplined.inFrame hp
    exact Nat.lt_succ_of_le hseq

/-- Settles O51, by what a step can be. -/
theorem stepNeverStops : Obligations.StepNeverStops := by
  intro s h
  rcases step_cases s with ⟨n, i, ha, hf, e⟩ | ⟨n, ha, hf, -⟩ | ⟨c, rest, i, -, -, hd, e⟩ | ⟨c, rest, -, -, e⟩ |
    ⟨-, -, e⟩
  · rw [e]
    exact exec_micro_answers h (by rw [ha]; nofun) hf
  · have hsome := fetchMicro_isSome _ (h.seq_lt (by rw [ha]; nofun))
    rw [hf] at hsome
    cases hsome
  · obtain ⟨w, hw⟩ := encode_host_of_decodeHost hd
    rw [e]
    exact exec_host_answers hw _
  · exact ⟨_, e⟩
  · exact ⟨_, e⟩

/-! ### The transitions of PHASE -/

/-- Of the host commands only `COMMIT` and `CLR` write `PHASE` (R310). -/
theorem hostCommand_phase {s t : State} {i : Instr} {w : HostWord} (hi : encode i = .host w)
    (hx : exec i s = .next t) :
    t.regs.phase = s.regs.phase ∨
    (i = .commit ∧ s.regs.phase = .unconfigured ∧ (t.regs.phase = .awaitingFrame ∨ t.regs.phase = .failed)) ∨
    (i = .clr ∧ t.regs.phase = .unconfigured) := by
  cases i with
  | wFill | wApply | wSlide | shCalc | xReq | fbEnergy | fbAcc | fbSqrt | nrApply | gcApply | lsApply | seqEnd =>
    cases hi
  | nop => cases hx; exact .inl rfl
  | cfgwr index => obtain ⟨-, rfl⟩ | ⟨-, -, rfl⟩ | ⟨-, -, -, rfl⟩ := execCfgwr_next hx <;> exact .inl rfl
  | tblwr space index =>
    cases hx
    obtain ⟨-, e⟩ | ⟨-, e⟩ | ⟨_, _, _, -, -, -, -, -, -, e⟩ := tblwrWith_cases Config.caps space index s <;> rw [e] <;>
      exact .inl rfl
  | commit =>
    cases hx
    obtain ⟨-, e⟩ | ⟨_, hp, hfail, e⟩ | ⟨hp, -, e⟩ := commitWith_cases Config.caps Config.xfmInit s <;> rw [e]
    · exact .inl rfl
    · rw [raise_construction _ s (isConstruction_of_commitChecks hfail)]
      exact .inr (.inl ⟨rfl, hp, .inr rfl⟩)
    · exact .inr (.inl ⟨rfl, hp, .inl rfl⟩)
  | proc count => obtain ⟨-, rfl⟩ | ⟨-, rfl⟩ := execProc_next hx <;> exact .inl rfl
  | rst => obtain ⟨-, rfl⟩ | ⟨-, rfl⟩ := execRst_next hx <;> exact .inl rfl
  | rd space index =>
    cases hx
    obtain e | ⟨_, -, -, e⟩ := rdWith_cases Config.caps space index s <;> rw [e] <;> exact .inl rfl
  | clr => cases hx; exact .inr (.inr ⟨rfl, rfl⟩)

/-- Of the micro-operations only `W.FILL` that fills the buffer and `SEQ.END` after a frame write `PHASE` (R310, R317,
R319). -/
theorem micro_phase {s t : State} {i : Instr} (hf : fetchMicro s.regs.seq = some i)
    (hx : exec i s = .next t) :
    t.regs.phase = s.regs.phase ∨
    (s.regs.seq = 0 ∧ t.regs.phase = .frameReady ∧ t.regs.inputUsed = s.cfg.size) ∨
    (s.regs.seq = 11 ∧ s.regs.phase = .frameReady ∧ t.regs.phase = .awaitingFrame) := by
  obtain ⟨hs, -⟩ | ⟨hs, -⟩ | ⟨h1, h10, -⟩ := exec_micro_seq hf hx
  · rw [hs] at hf
    obtain rfl : .wFill = i := Option.some.inj hf
    obtain ⟨hused, ⟨hready, rfl⟩ | ⟨-, rfl⟩⟩ := execWFill_next hx
    · have hfull := le_antisymm (inputUsed_add_fillCount_le hused) hready
      exact .inr (.inl ⟨hs, rfl, BitVec.eq_of_toNat_eq ((toNat_ofNat_of_le_size hfull.le).trans hfull)⟩)
    · exact .inl rfl
  · rw [hs] at hf
    obtain rfl : .seqEnd = i := Option.some.inj hf
    obtain ⟨hp, rfl⟩ | ⟨-, rfl⟩ := execSeqEnd_next hx
    · exact .inr (.inr ⟨hs, hp, rfl⟩)
    · exact .inl rfl
  · exact .inl (exec_frame_keeps hf ⟨h1, h10⟩ hx).1

/-- Settles O54, by what a step can be. -/
theorem phaseTransitions : Obligations.PhaseTransitions := by
  intro s t h hx takes
  rcases step_cases s with ⟨n, i, ha, hf, e⟩ | ⟨n, -, -, e⟩ | ⟨c, rest, i, ha, hq, hd, e⟩ | ⟨c, rest, -, -, e⟩ |
    ⟨-, -, e⟩ <;> rw [e] at hx
  · have ha' : s.port.active ≠ none := by rw [ha]; nofun
    obtain hkeep | ⟨hs, ht, hfull⟩ | ⟨hs, hp, ht⟩ := micro_phase hf hx
    · exact .inl hkeep
    · exact .inr (.inr (.inr (.inl ⟨h.awaitingFrame_of_seq ha' hs, ht, ha', hs, hfull⟩)))
    · exact .inr (.inr (.inr (.inr (.inl ⟨hp, ht, ha', hs⟩))))
  · cases hx
  · obtain ⟨w, hw⟩ := encode_host_of_decodeHost hd
    have htakes : takes i := ⟨ha, c, rest, hq, hd⟩
    obtain hkeep | ⟨rfl, hp, ht | ht⟩ | ⟨rfl, ht⟩ := hostCommand_phase hw hx
    · exact .inl hkeep
    · exact .inr (.inl ⟨hp, ht, htakes⟩)
    · exact .inr (.inr (.inl ⟨hp, ht, htakes⟩))
    · exact .inr (.inr (.inr (.inr (.inr ⟨ht, htakes⟩))))
  · cases hx; exact .inl rfl
  · cases hx; exact .inl rfl

end Sys2Proof.Machine
end

section
/-! One `PROC` as the host sees it (47_frontend_commands.md R317 to R321): what every micro-operation leaves alone is
left alone by the whole command, and of IN a finished frame keeps the overlap (R135). -/

namespace Sys2Proof.Machine

/-! ### Along a micro-program -/

/-- Everything a micro-program that answers has done first: the micro-operation at `SEQ`, then its end or the rest. -/
theorem runCommand_micro_next {n k : Nat} {s t : State} (hk : s.port.active = some k)
    (hrun : runCommand (n + 1) s = .next t) :
    ∃ i u, fetchMicro s.regs.seq = some i ∧ exec i s = .next u ∧
      (u.port.active = none ∧ t = u ∨ u.port.active ≠ none ∧ runCommand n u = .next t) := by
  obtain ⟨u, hx, hcase⟩ := runCommand_succ_next hrun
  cases hf : fetchMicro s.regs.seq with
  | none =>
    rw [step_noMicroOp s k hk hf] at hx
    cases hx
  | some i =>
    rw [step_running s k i hk hf] at hx
    exact ⟨i, u, rfl, hx, hcase⟩

/-- What holds when the micro-program goes on and is kept by each micro-operation holds where it ends. -/
theorem runCommand_induction {P : State → Prop}
    (hstep : ∀ s t i, P s → s.port.active ≠ none → fetchMicro s.regs.seq = some i → exec i s = .next t → P t)
    {n : Nat} {s t : State} (h : P s) (ha : s.port.active ≠ none) (hrun : runCommand n s = .next t) : P t := by
  induction n generalizing s with
  | zero => cases hrun; exact h
  | succ n ih =>
    obtain ⟨k, hk⟩ := Option.ne_none_iff_exists'.1 ha
    obtain ⟨i, u, hf, hx, hcase⟩ := runCommand_micro_next hk hrun
    have hu := hstep s u i h ha hf hx
    obtain ⟨-, rfl⟩ | ⟨hactive, hrest⟩ := hcase
    · exact hu
    · exact ih hu hactive hrest

/-- IN after `W.SLIDE` (R135). -/
def State.slidInput (s : State) : Memory 16 :=
  Memory.writeRange s.bufs.inp 0 (s.cfg.size.toNat - s.cfg.step.toNat)
    fun i => Memory.read s.bufs.inp (i + s.cfg.step.toNat)

/-- After the fill no micro-operation asks for a free value, and only `W.SLIDE`, at index 2, writes IN. -/
theorem exec_afterFill {s t : State} {seq : BitVec 4} {i : Instr} (hf : fetchMicro seq = some i) (hseq : seq ≠ 0)
    (hx : exec i s = .next t) :
    t.freeCtr = s.freeCtr ∧ t.bufs.inp = if seq = 2 then s.slidInput else s.bufs.inp := by
  rcases fetchMicro_cases hf with ⟨hs, -⟩ | ⟨rfl, rfl⟩ | ⟨rfl, rfl⟩ | ⟨rfl, rfl⟩ | ⟨rfl, rfl⟩ | ⟨rfl, rfl⟩ |
    ⟨rfl, rfl⟩ | ⟨rfl, rfl⟩ | ⟨rfl, rfl⟩ | ⟨rfl, rfl⟩ | ⟨rfl, rfl⟩ | ⟨rfl, rfl⟩
  · exact absurd hs hseq
  · obtain ⟨-, rfl⟩ | ⟨-, rfl⟩ := execSeqEnd_next hx <;> exact ⟨rfl, rfl⟩
  · obtain ⟨-, rfl⟩ := execWApply_next hx; exact ⟨rfl, rfl⟩
  · obtain ⟨-, -, rfl⟩ := execWSlide_next hx; exact ⟨rfl, rfl⟩
  · cases hx; exact ⟨rfl, rfl⟩
  · cases hx; exact ⟨rfl, rfl⟩
  · cases hx; exact ⟨rfl, rfl⟩
  · obtain ⟨-, rfl⟩ := execFbAcc_next hx; exact ⟨rfl, rfl⟩
  · cases hx; exact ⟨rfl, rfl⟩
  · obtain ⟨-, rfl⟩ := execNrApply_next hx; exact ⟨rfl, rfl⟩
  · obtain rfl | rfl := execGcApply_next hx <;> exact ⟨rfl, rfl⟩
  · cases hx; exact ⟨rfl, rfl⟩

/-! ### What a PROC leaves alone -/

/-- The fill takes no more than the count, so it asks for no free value while the host presents what it counts
(R387 (a)). -/
theorem execWFill_freeCtr {s t : State} (hcount : s.port.count ≤ s.port.samples.length) (hx : execWFill s = .next t) :
    t.freeCtr = s.freeCtr := by
  have hfill : fillCount s - s.port.samples.length = 0 :=
    Nat.sub_eq_zero_of_le ((min_le_left _ _).trans hcount)
  obtain ⟨-, ⟨-, rfl⟩ | ⟨-, rfl⟩⟩ := execWFill_next hx <;> exact congrArg (s.freeCtr + ·) hfill

theorem exec_micro_freeCtr {s t : State} {i : Instr} (hf : fetchMicro s.regs.seq = some i)
    (hcount : s.port.count ≤ s.port.samples.length) (hx : exec i s = .next t) : t.freeCtr = s.freeCtr := by
  by_cases hseq : s.regs.seq = 0
  · rw [hseq] at hf
    obtain rfl : .wFill = i := Option.some.inj hf
    exact execWFill_freeCtr hcount hx
  · exact (exec_afterFill hf hseq hx).1

/-- No micro-operation changes the count of the running `PROC`; `SEQ.END` ends it (R317, R319). -/
theorem exec_micro_active {s t : State} {i : Instr} (hf : fetchMicro s.regs.seq = some i)
    (hx : exec i s = .next t) : t.port.active = none ∨ t.port.active = s.port.active := by
  obtain ⟨hs, -⟩ | ⟨hs, -⟩ | ⟨h1, h10, -⟩ := exec_micro_seq hf hx
  · rw [hs] at hf
    obtain rfl : .wFill = i := Option.some.inj hf
    obtain ⟨-, ⟨-, rfl⟩ | ⟨-, rfl⟩⟩ := execWFill_next hx <;> exact .inr rfl
  · rw [hs] at hf
    obtain rfl : .seqEnd = i := Option.some.inj hf
    obtain ⟨-, rfl⟩ | ⟨-, rfl⟩ := execSeqEnd_next hx <;> exact .inl rfl
  · exact .inr (congrArg Port.active (exec_frame_keeps hf ⟨h1, h10⟩ hx).2.2)

/-- What a micro-program started in u leaves alone up to s, and on the port all but the record of the running `PROC`. -/
structure Proceeds (u s : State) : Prop where
  tables  : s.tables = u.tables
  err     : s.regs.err = u.regs.err
  freeCtr : s.freeCtr = u.freeCtr
  port    : s.port = { u.port with active := s.port.active }
  active  : s.port.active = none ∨ s.port.active = u.port.active

theorem Proceeds.exec_micro {u s t : State} {i : Instr} (h : Proceeds u s) (ha : s.port.active ≠ none)
    (hcount : u.port.count ≤ u.port.samples.length) (hf : fetchMicro s.regs.seq = some i)
    (hx : exec i s = .next t) : Proceeds u t := by
  have hsame : s.port = u.port := by rw [h.port, h.active.resolve_left ha]
  obtain ⟨c, hc⟩ := encode_micro_of_fetchMicro hf
  obtain ⟨-, htables, herr, hport⟩ := microOpsKeepTheConfiguration s t i c hc hx
  rw [hsame] at hport
  exact
    { tables := htables.trans h.tables
      err := herr.trans h.err
      freeCtr := (exec_micro_freeCtr hf (hsame ▸ hcount) hx).trans h.freeCtr
      port := hport
      active := hsame ▸ exec_micro_active hf hx }

/-- What a `PROC` leaves of tables, port and counter, when it returns at all (R20, R71). -/
theorem proceeds_of_command {s t : State} {xs : List Sample} (ha : s.port.active = none)
    (hp : s.regs.phase = .awaitingFrame) (hlen : xs.length < 65536) (hc : command (procCommand xs) s = .next t) :
    Proceeds (s.procStarted xs) t := by
  have hrun : runCommand 12 (s.procStarted xs) = .next t :=
    (runCommand_continue 12 (step_procCommand ha hp hlen) nofun).symm.trans hc
  exact runCommand_induction (fun _ _ _ h ha hf hx => h.exec_micro ha le_rfl hf hx)
    ⟨rfl, rfl, rfl, rfl, .inr rfl⟩ nofun hrun

/-! ### IN along a frame -/

/-- How far the frame begun in u has come in s: the configuration as it was, IN as it was until `W.SLIDE` has moved it,
a view once the `PROC` has ended (R135, R319). -/
structure FrameFrom (u s : State) : Prop where
  cfg     : s.cfg = u.cfg
  input   : s.bufs.inp = if s.regs.seq = 1 ∨ s.regs.seq = 2 then u.bufs.inp else u.slidInput
  running : s.port.active ≠ none → s.regs.phase = .frameReady ∧ s.regs.seq ≠ 0
  ended   : s.port.active = none → s.regs.featureValid = true ∧ s.regs.seq = 0

theorem FrameFrom.exec_micro {u s t : State} {i : Instr} (h : FrameFrom u s) (ha : s.port.active ≠ none)
    (hf : fetchMicro s.regs.seq = some i) (hx : exec i s = .next t) : FrameFrom u t := by
  obtain ⟨hp, hseq⟩ := h.running ha
  obtain ⟨c, hc⟩ := encode_micro_of_fetchMicro hf
  obtain ⟨hcfg, -⟩ := microOpsKeepTheConfiguration s t i c hc hx
  obtain ⟨-, hinp⟩ := exec_afterFill hf hseq hx
  have hinput := h.input
  obtain ⟨hs, -⟩ | ⟨hs, ht⟩ | ⟨h1, h10, ht⟩ := exec_micro_seq hf hx
  · exact absurd hs hseq
  · rw [hs] at hf hinp hinput
    obtain rfl : .seqEnd = i := Option.some.inj hf
    obtain ⟨-, rfl⟩ | ⟨hne, -⟩ := execSeqEnd_next hx
    · exact ⟨h.cfg, hinput, fun hne => absurd rfl hne, fun _ => ⟨rfl, rfl⟩⟩
    · exact absurd hp hne
  · obtain ⟨hphase, -, hport⟩ := exec_frame_keeps hf ⟨h1, h10⟩ hx
    refine ⟨hcfg.trans h.cfg, ?_, fun hat => ⟨hphase.trans hp, seq_ne_zero_of_running hf hx hat⟩,
      fun hn => absurd (hport ▸ hn) ha⟩
    by_cases h2 : s.regs.seq = 2
    · rw [hinp, if_pos h2, if_neg (by rw [ht, h2]; decide), State.slidInput, hinput, if_pos (.inr h2), h.cfg]
      rfl
    · rw [hinp, if_neg h2, hinput]
      exact if_congr (by rw [ht]; bv_omega) rfl rfl

/-- A frame that completes has slid IN and published a view (R135, R319). -/
theorem frameFrom_of_runCommand {n : Nat} {s t : State} {xs : List Sample}
    (hrun : runCommand n (s.filled xs) = .next t) : FrameFrom (s.filled xs) t :=
  runCommand_induction (fun _ _ _ h ha hf hx => h.exec_micro ha hf hx)
    ⟨rfl, rfl, fun _ => ⟨rfl, show (1 : BitVec 4) ≠ 0 by decide⟩, nofun⟩ nofun hrun

/-- What the overlap is made of: the samples buffered before, then the first ones presented (R131, R135). -/
theorem read_slidInput_filled (s : State) (xs : List Sample) {i : Nat}
    (hi : i < s.cfg.size.toNat - s.cfg.step.toNat) (hfull : s.cfg.size.toNat = s.regs.inputUsed.toNat + xs.length) :
    Memory.read (s.filled xs).slidInput i =
      if i + s.cfg.step.toNat < s.regs.inputUsed.toNat then Memory.read s.bufs.inp (i + s.cfg.step.toNat)
      else xs.getD (i + s.cfg.step.toNat - s.regs.inputUsed.toNat) 0 := by
  have hslid : Memory.read (s.filled xs).slidInput i = Memory.read (s.filled xs).bufs.inp (i + s.cfg.step.toNat) :=
    (Memory.read_writeRange _ _ _ _ i).trans (if_pos ⟨Nat.zero_le i, by rwa [Nat.zero_add]⟩)
  rw [hslid]
  refine (Memory.read_writeRange _ _ _ _ _).trans ?_
  by_cases hold : i + s.cfg.step.toNat < s.regs.inputUsed.toNat
  · rw [if_pos hold, if_neg (by omega)]
  · rw [if_neg hold, if_pos (by omega)]

/-! ### The obligation -/

theorem featureValid_of_nfeat_zero {s : State} (h : Inv s) (hp : s.regs.phase = .awaitingFrame)
    (hn : s.regs.nfeat = 0) : s.regs.featureValid = false := by
  by_contra hv
  have hview := (h.disciplined.view (Bool.eq_true_of_not_eq_false hv)).2
  exact (h.working (by rw [hp]; rfl)).configLegal.nchan_ne_zero (hview.symm.trans hn)

/-- Settles O47: what a `PROC` leaves alone holds on both exits; short of a full buffer only IN has grown, else IN is
the slid buffer of the frame. -/
theorem procAsTheHostSeesIt : Obligations.ProcAsTheHostSeesIt := by
  intro s xs h ha hp hlen used size step
  have hroom := (h.disciplined.waiting hp).1
  obtain ⟨t, hc, hret⟩ := command_proc h ha hp hlen
  have hkept := proceeds_of_command ha hp hlen hc
  have hport : t.port = { (s.procStarted xs).port with active := none } := by rw [hkept.port, hret.idle]
  refine ⟨t, hc, hret.consumed, hret.cfg, hkept.tables, hkept.freeCtr, hret.idle, by rw [hport]; rfl,
    by rw [hport]; rfl, hret.phase, hret.inv.disciplined.idleSeq hret.idle, hkept.err, fun hshort => ?gathers,
    fun hfull => ?frame⟩
  case gathers =>
    obtain ⟨hnfeat, hused⟩ := hret.gathered hshort
    have hsignal := signal_of_gathered ha hp hlen hshort hc
    have hbufs : t.bufs = (s.gathered xs).bufs := (congrArg State.bufs hsignal :)
    refine ⟨hnfeat, featureValid_of_nfeat_zero hret.inv hret.phase hnfeat, hused, (congrArg (·.regs.peak) hsignal :),
      (congrArg (·.regs.scaleShift) hsignal :), by rw [hbufs]; rfl, fun i => ?_⟩
    rw [hbufs]
    exact Memory.read_writeRange _ _ _ _ i
  case frame =>
    obtain ⟨hnfeat, hused⟩ := hret.framed hfull
    have hframe := frameFrom_of_runCommand (runCommand_filled ha hp hlen hroom.le hfull hc)
    obtain ⟨hview, hseq⟩ := hframe.ended (congrArg (Option.map _) hret.idle)
    have hinput := hframe.input
    rw [hseq, if_neg (by decide)] at hinput
    refine ⟨hnfeat, hview, hused, fun i hi => ?_⟩
    have htake : (xs.take (s.cfg.size.toNat - s.regs.inputUsed.toNat)).length
        = s.cfg.size.toNat - s.regs.inputUsed.toNat := by
      rw [List.length_take]
      omega
    refine (congrArg (Memory.read · i) hinput).trans ((read_slidInput_filled s _ hi (by omega)).trans ?_)
    refine if_congr Iff.rfl rfl ?_
    rw [List.getD_eq_getElem?_getD, List.getD_eq_getElem?_getD, List.getElem?_take_of_lt (by omega)]

end Sys2Proof.Machine
end

section
/-! `RST` and `COMMIT` (47_frontend_commands.md R315, R322, R323): `RST` leaves `SCALE_SHIFT`, ENERGY, SIG and FEAT,
which `COMMIT` zeroes. The micro-program of a frame writes each of them before it reads it, so the two blocks give the
same features and keep the same history. -/

namespace Sys2Proof.Machine

/-! ### What a frame writes before it reads it -/

/-- What `RST` leaves and `COMMIT` zeroes of the signal path (R315, R322). -/
structure Leftover where
  scaleShift : BitVec 5
  energy     : Memory 32
  sig        : Memory 32
  feat       : Memory 16

def State.withLeftover (s : State) (l : Leftover) : State :=
  { s with
    regs := { s.regs with scaleShift := l.scaleShift }
    bufs := { s.bufs with energy := l.energy, sig := l.sig, feat := l.feat } }

/-- The first n elements read the same. -/
def Memory.AgreesBelow {w : Nat} (n : Nat) (m m' : Memory w) : Prop :=
  ∀ i, i < n → Memory.read m i = Memory.read m' i

theorem Memory.agreesBelow_writeRange {w n : Nat} (m m' : Memory w) {f g : Nat → BitVec w}
    (h : ∀ k, k < n → f k = g k) :
    Memory.AgreesBelow n (Memory.writeRange m 0 n f) (Memory.writeRange m' 0 n g) := by
  intro i hi
  rw [Memory.read_writeRange, Memory.read_writeRange, if_pos (by omega), if_pos (by omega), h _ (by omega)]

/-- What the frame in s has replaced of a leftover when the micro-program stands at index k: `SH.CALC`, `FB.ENERGY`,
`FB.SQRT` and `LS.APPLY` are at 3, 5, 7 and 10 (R105). What a numeral k does not reach needs no proof. -/
structure Replaced (k : Nat) (s : State) (l : Leftover) : Prop where
  scaleShift : 4 ≤ k → l.scaleShift = s.regs.scaleShift := by exact fun h => absurd h (by decide)
  energy     : 6 ≤ k → Memory.AgreesBelow s.cfg.specSize.toNat l.energy s.bufs.energy := by
    exact fun h => absurd h (by decide)
  sig        : 8 ≤ k → Memory.AgreesBelow s.cfg.nchan.toNat l.sig s.bufs.sig := by exact fun h => absurd h (by decide)
  feat       : 11 ≤ k → Memory.AgreesBelow s.cfg.nchan.toNat l.feat s.bufs.feat := by
    exact fun h => absurd h (by decide)

theorem peakOf_withLeftover (s : State) (l : Leftover) (n : Nat) : peakOf (s.withLeftover l) n = peakOf s n := by
  induction n with
  | zero => rfl
  | succ n ih => exact congrArg (max · _) ih

/-- `FB.ACC` reads no energy at or past `SPEC_SIZE` (R186). -/
theorem energyAt_withLeftover {s : State} {l : Leftover}
    (h : Memory.AgreesBelow s.cfg.specSize.toNat l.energy s.bufs.energy) (k : Nat) :
    energyAt (s.withLeftover l) k = energyAt s k := by
  unfold energyAt
  split
  · next hk => exact (congrArg BitVec.toNat (h k hk)).trans (if_pos hk).symm
  · next hk => exact (if_neg hk).symm

theorem bandLoop_withLeftover {s : State} {l : Leftover}
    (h : Memory.AgreesBelow s.cfg.specSize.toNat l.energy s.bufs.energy) (b : Nat) (carry : Int) (n : Nat) :
    bandLoop (s.withLeftover l) b carry n = bandLoop s b carry n := by
  induction n with
  | zero => rfl
  | succ n ih =>
    rw [bandLoop, ih]
    simp only [energyAt_withLeftover h]
    rfl

theorem bandAcc_withLeftover {s : State} {l : Leftover}
    (h : Memory.AgreesBelow s.cfg.specSize.toNat l.energy s.bufs.energy) (b : Nat) :
    bandAcc (s.withLeftover l) b = bandAcc s b := by
  induction b with
  | zero => exact bandLoop_withLeftover h 0 0 _
  | succ b ih => rw [bandAcc, ih]; exact bandLoop_withLeftover h (b + 1) _ _

theorem channelRoot_withLeftover {s : State} {l : Leftover} (h : l.scaleShift = s.regs.scaleShift) (i : Nat) :
    channelRoot (s.withLeftover l) i = channelRoot s i := by
  simp only [channelRoot, State.withLeftover, h]

/-- The values `NR.APPLY` and `GC.APPLY` compute for a channel read SIG at that channel only. -/
theorem channelValues_withLeftover {s : State} {l : Leftover} {i : Nat}
    (h : Memory.read l.sig i = Memory.read s.bufs.sig i) :
    blended (s.withLeftover l) i = blended s i ∧ subtracted (s.withLeftover l) i = subtracted s i ∧
      noiseFloor (s.withLeftover l) i = noiseFloor s i ∧ signalToNoise (s.withLeftover l) i = signalToNoise s i := by
  refine ⟨?_, ?_, ?_, ?_⟩
  · simp only [blended, scaledUp, State.withLeftover, h]
  · simp only [subtracted, blended, scaledUp, State.withLeftover, h]
  · simp only [noiseFloor, State.withLeftover, h]
  · simp only [signalToNoise, gainOf, State.withLeftover, h]

/-! ### The micro-operations on a leftover -/

theorem execSeqEnd_withLeftover {s t : State} (l : Leftover) (hx : execSeqEnd s = .next t) :
    execSeqEnd (s.withLeftover l) = .next (t.withLeftover l) := by
  obtain ⟨hp, rfl⟩ | ⟨hp, rfl⟩ := execSeqEnd_next hx <;> simp [execSeqEnd, State.withLeftover, hp]

theorem execWApply_withLeftover {s t : State} (l : Leftover) (hx : execWApply s = .next t) :
    execWApply (s.withLeftover l) = .next (t.withLeftover l) := by
  obtain ⟨hfits, rfl⟩ := execWApply_next hx
  refine (if_pos (List.all_eq_true.2 fun i hi => hfits i (List.mem_range.1 hi))).trans ?_
  rw [peakOf_withLeftover]
  rfl

theorem execXReq_withLeftover {s : State} {l : Leftover} (h : l.scaleShift = s.regs.scaleShift) :
    execXReq (s.withLeftover l) = .next ((xReqWith Config.xfm s).withLeftover l) := by
  simp only [execXReq, xReqWith, State.withLeftover, h]
  rfl

theorem execFbAcc_withLeftover {s t : State} {l : Leftover}
    (h : Memory.AgreesBelow s.cfg.specSize.toNat l.energy s.bufs.energy) (hx : execFbAcc s = .next t) :
    execFbAcc (s.withLeftover l) = .next (t.withLeftover l) := by
  obtain ⟨hfits, rfl⟩ := execFbAcc_next hx
  have hsum : ∀ b ∈ List.range (s.cfg.nchan.toNat + 1), fitsUnsigned 64 (bandAcc (s.withLeftover l) b).1 = true :=
    fun b hb => bandAcc_withLeftover h b ▸ hfits b (Nat.lt_succ_iff.1 (List.mem_range.1 hb))
  refine (if_pos (List.all_eq_true.2 hsum)).trans ?_
  simp only [bandAcc_withLeftover h]
  rfl

/-- `NR.APPLY` updates the same estimates, and SIG from the leftover as it does its own. -/
theorem execNrApply_withLeftover {s t : State} {l : Leftover}
    (h : Memory.AgreesBelow s.cfg.nchan.toNat l.sig s.bufs.sig) (hx : execNrApply s = .next t) :
    ∃ sig, execNrApply (s.withLeftover l) = .next (t.withLeftover { l with sig := sig }) ∧
      Memory.AgreesBelow s.cfg.nchan.toNat sig t.bufs.sig := by
  obtain ⟨hlegal, rfl⟩ := execNrApply_next hx
  have hest : Memory.writeRange s.bufs.est 0 s.cfg.nchan.toNat (fun i => BitVec.ofNat 32 (blended s i))
      = Memory.writeRange s.bufs.est 0 s.cfg.nchan.toNat fun i => BitVec.ofNat 32 (blended (s.withLeftover l) i) :=
    Memory.writeRange_congr _ _ _ fun i hi => by rw [(channelValues_withLeftover (h i hi)).1]
  rw [hest]
  refine ⟨_, if_pos hlegal, Memory.agreesBelow_writeRange _ _ fun i hi => ?_⟩
  obtain ⟨-, hsub, hfloor, -⟩ := channelValues_withLeftover (h i hi)
  rw [hsub, hfloor]

theorem execGcApply_withLeftover {s t : State} {l : Leftover}
    (h : Memory.AgreesBelow s.cfg.nchan.toNat l.sig s.bufs.sig) (hx : execGcApply s = .next t) :
    ∃ sig, execGcApply (s.withLeftover l) = .next (t.withLeftover { l with sig := sig }) ∧
      Memory.AgreesBelow s.cfg.nchan.toNat sig t.bufs.sig := by
  by_cases hgc : s.cfg.gcEnable = 1
  · cases (if_pos hgc).symm.trans hx
    refine ⟨_, if_pos hgc, Memory.agreesBelow_writeRange _ _ fun i hi => ?_⟩
    obtain ⟨-, -, -, hsnr⟩ := channelValues_withLeftover (h i hi)
    rw [hsnr]
  · cases (if_neg hgc).symm.trans hx
    exact ⟨l.sig, if_neg hgc, h⟩

theorem execLsApply_withLeftover {s : State} {l : Leftover}
    (h : Memory.AgreesBelow s.cfg.nchan.toNat l.sig s.bufs.sig) :
    ∃ feat, execLsApply (s.withLeftover l)
        = .next ((lsApplyWith logInterpShift s).withLeftover { l with feat := feat }) ∧
      Memory.AgreesBelow s.cfg.nchan.toNat feat (lsApplyWith logInterpShift s).bufs.feat := by
  refine ⟨_, rfl, Memory.agreesBelow_writeRange _ _ fun i hi => ?_⟩
  simp only [State.withLeftover, h i hi]

/-- After the fill each micro-operation does to the block with the leftover what it does to the block, but for what is
not yet replaced of the leftover. -/
theorem exec_withLeftover {s t : State} {l : Leftover} {seq : BitVec 4} {i : Instr} (hf : fetchMicro seq = some i)
    (hseq : seq ≠ 0) (hl : Replaced seq.toNat s l) (hx : exec i s = .next t) :
    ∃ l', exec i (s.withLeftover l) = .next (t.withLeftover l') ∧ Replaced (seq.toNat + 1) t l' := by
  rcases fetchMicro_cases hf with ⟨rfl, rfl⟩ | ⟨rfl, rfl⟩ | ⟨rfl, rfl⟩ | ⟨rfl, rfl⟩ | ⟨rfl, rfl⟩ | ⟨rfl, rfl⟩ |
    ⟨rfl, rfl⟩ | ⟨rfl, rfl⟩ | ⟨rfl, rfl⟩ | ⟨rfl, rfl⟩ | ⟨rfl, rfl⟩ | ⟨rfl, rfl⟩
  · exact absurd rfl hseq
  · refine ⟨l, execSeqEnd_withLeftover l hx, ?_⟩
    have hall : Replaced 12 s l := ⟨fun _ => hl.scaleShift (by decide), fun _ => hl.energy (by decide),
      fun _ => hl.sig (by decide), fun _ => hl.feat (by decide)⟩
    obtain ⟨-, rfl⟩ | ⟨-, rfl⟩ := execSeqEnd_next hx <;> exact { hall with }
  · exact ⟨l, execWApply_withLeftover l hx, {}⟩
  · obtain ⟨hsize, hused, rfl⟩ := execWSlide_next hx
    exact ⟨l, if_neg (not_or.2 ⟨not_lt.2 hsize, not_lt.2 hused⟩), {}⟩
  · cases hx
    exact ⟨{ l with scaleShift := BitVec.ofNat 5 (scaleShiftFor shiftBase s.regs.peak.toNat) }, rfl,
      { scaleShift := fun _ => rfl }⟩
  all_goals have hshift := hl.scaleShift (by decide)
  · cases hx
    exact ⟨l, execXReq_withLeftover hshift, { scaleShift := fun _ => hshift }⟩
  · cases hx
    exact ⟨{ l with energy := _ }, rfl,
      { scaleShift := fun _ => hshift, energy := fun _ => Memory.agreesBelow_writeRange _ _ fun _ _ => rfl }⟩
  all_goals have henergy := hl.energy (by decide)
  · refine ⟨l, execFbAcc_withLeftover henergy hx, ?_⟩
    obtain ⟨-, rfl⟩ := execFbAcc_next hx
    exact { scaleShift := fun _ => hshift, energy := fun _ => henergy }
  · cases hx
    exact ⟨{ l with sig := _ }, rfl,
      { scaleShift := fun _ => hshift
        energy := fun _ => henergy
        sig := fun _ => Memory.agreesBelow_writeRange _ _ fun i _ => congrArg _ (channelRoot_withLeftover hshift i) }⟩
  all_goals have hsig := hl.sig (by decide)
  · obtain ⟨sig, hx', hagree⟩ := execNrApply_withLeftover hsig hx
    refine ⟨_, hx', ?_⟩
    obtain ⟨-, rfl⟩ := execNrApply_next hx
    exact { scaleShift := fun _ => hshift, energy := fun _ => henergy, sig := fun _ => hagree }
  · obtain ⟨sig, hx', hagree⟩ := execGcApply_withLeftover hsig hx
    refine ⟨_, hx', ?_⟩
    obtain rfl | rfl := execGcApply_next hx <;>
      exact { scaleShift := fun _ => hshift, energy := fun _ => henergy, sig := fun _ => hagree }
  · cases hx
    obtain ⟨feat, hx', hagree⟩ := execLsApply_withLeftover hsig
    exact ⟨_, hx',
      { scaleShift := fun _ => hshift
        energy := fun _ => henergy
        sig := fun _ => hsig
        feat := fun _ => hagree }⟩

/-! ### A frame on a leftover -/

/-- After the fill `SEQ` goes up by one until the `PROC` ends. -/
theorem seq_of_continuing {s t : State} {i : Instr} (hf : fetchMicro s.regs.seq = some i) (hseq : s.regs.seq ≠ 0)
    (hx : exec i s = .next t) (ha : t.port.active ≠ none) : t.regs.seq.toNat = s.regs.seq.toNat + 1 := by
  have hne := seq_ne_zero_of_running hf hx ha
  obtain ⟨hs, -⟩ | ⟨-, ht⟩ | ⟨-, h10, ht⟩ := exec_micro_seq hf hx
  · exact absurd hs hseq
  · exact absurd ht hne
  · rw [ht, BitVec.toNat_add]
    exact Nat.mod_eq_of_lt (by change s.regs.seq.toNat + 1 < 2 ^ 4; omega)

/-- After the fill only `SEQ.END` ends the `PROC`. -/
theorem seq_of_ending {s t : State} {i : Instr} (hf : fetchMicro s.regs.seq = some i) (hseq : s.regs.seq ≠ 0)
    (hx : exec i s = .next t) (ha : s.port.active ≠ none) (hidle : t.port.active = none) : s.regs.seq = 11 := by
  obtain ⟨hs, -⟩ | ⟨hs, -⟩ | ⟨h1, h10, -⟩ := exec_micro_seq hf hx
  · exact absurd hs hseq
  · exact hs
  · obtain ⟨-, -, hport⟩ := exec_frame_keeps hf ⟨h1, h10⟩ hx
    exact absurd (hport ▸ hidle) ha

/-- The rest of a micro-program gives the same with the leftover, and the same features once the `PROC` has ended. -/
theorem runCommand_withLeftover {n : Nat} {s t : State} {l : Leftover} (ha : s.port.active ≠ none)
    (hseq : s.regs.seq ≠ 0) (hl : Replaced s.regs.seq.toNat s l) (hrun : runCommand n s = .next t) :
    ∃ l', runCommand n (s.withLeftover l) = .next (t.withLeftover l') ∧
      (t.port.active = none → Memory.AgreesBelow t.cfg.nchan.toNat l'.feat t.bufs.feat) := by
  induction n generalizing s l with
  | zero => cases hrun; exact ⟨l, rfl, fun hn => absurd hn ha⟩
  | succ n ih =>
    obtain ⟨k, hk⟩ := Option.ne_none_iff_exists'.1 ha
    obtain ⟨i, u, hf, hx, hcase⟩ := runCommand_micro_next hk hrun
    obtain ⟨l', hx', hl'⟩ := exec_withLeftover hf hseq hl hx
    have hstep := (step_running (s.withLeftover l) k i hk hf).trans hx'
    obtain ⟨hidle, rfl⟩ | ⟨hactive, hrest⟩ := hcase
    · refine ⟨l', runCommand_return n hstep hidle, fun _ => hl'.feat ?_⟩
      rw [seq_of_ending hf hseq hx ha hidle]
      decide
    · have hnext := seq_of_continuing hf hseq hx hactive
      obtain ⟨l'', hrun', hfeat⟩ := ih hactive (seq_ne_zero_of_running hf hx hactive) (hnext ▸ hl') hrest
      exact ⟨l'', (runCommand_continue n hstep hactive).trans hrun', hfeat⟩

/-! ### Blocks that later PROCs cannot tell apart -/

/-- Two idle blocks waiting for samples whose signal paths differ in a leftover. -/
structure SameFuture (a b : State) : Prop where
  inv    : Inv a ∧ Inv b
  idle   : a.port.active = none ∧ b.port.active = none
  phase  : a.regs.phase = .awaitingFrame ∧ b.regs.phase = .awaitingFrame
  signal : ∃ l, b.signal = a.signal.withLeftover l

theorem SameFuture.cfg {a b : State} (h : SameFuture a b) : b.cfg = a.cfg := by
  obtain ⟨l, hl⟩ := h.signal
  exact (congrArg State.cfg hl :)

theorem SameFuture.inputUsed {a b : State} (h : SameFuture a b) : b.regs.inputUsed = a.regs.inputUsed := by
  obtain ⟨l, hl⟩ := h.signal
  exact (congrArg (·.regs.inputUsed) hl :)

/-- Short of a full buffer both gather the same samples. -/
theorem SameFuture.signal_of_gathered {a b t u : State} {xs : List Sample} (h : SameFuture a b)
    (hlen : xs.length < 65536) (hshort : a.regs.inputUsed.toNat + xs.length < a.cfg.size.toNat)
    (hct : command (procCommand xs) a = .next t) (hcu : command (procCommand xs) b = .next u) :
    ∃ l, u.signal = t.signal.withLeftover l := by
  obtain ⟨l, hl⟩ := h.signal
  have hshort' : b.regs.inputUsed.toNat + xs.length < b.cfg.size.toNat := by rwa [h.cfg, h.inputUsed]
  refine ⟨l, ?_⟩
  rw [Machine.signal_of_gathered h.idle.1 h.phase.1 hlen hshort hct,
    Machine.signal_of_gathered h.idle.2 h.phase.2 hlen hshort' hcu]
  exact congrArg (State.gathered · xs) hl

/-- A frame begins with nothing replaced. -/
theorem replaced_filled (s : State) (xs : List Sample) (l : Leftover) :
    Replaced (s.filled xs).regs.seq.toNat (s.filled xs) l :=
  show Replaced 1 _ l from {}

/-- A full buffer begins the same frame in both but for the leftover, and the frame replaces what it shows of it. -/
theorem SameFuture.unsampled_of_framed {a b t u : State} {xs : List Sample} (h : SameFuture a b)
    (hlen : xs.length < 65536) (hfull : a.cfg.size.toNat ≤ a.regs.inputUsed.toNat + xs.length)
    (hct : command (procCommand xs) a = .next t) (hcu : command (procCommand xs) b = .next u)
    (hidle : t.port.active = none) :
    ∃ l, u.unsampled = t.unsampled.withLeftover l ∧ Memory.AgreesBelow t.cfg.nchan.toNat l.feat t.bufs.feat := by
  obtain ⟨l, hl⟩ := h.signal
  have hroom := (h.inv.1.disciplined.waiting h.phase.1).1.le
  have hrunt := runCommand_filled h.idle.1 h.phase.1 hlen hroom hfull hct
  have hrunu := runCommand_filled h.idle.2 h.phase.2 hlen (by rwa [h.cfg, h.inputUsed])
    (by rwa [h.cfg, h.inputUsed]) hcu
  have hfilled : b.filled (xs.take (b.cfg.size.toNat - b.regs.inputUsed.toNat))
      = (a.filled (xs.take (a.cfg.size.toNat - a.regs.inputUsed.toNat))).withLeftover l := by
    rw [h.cfg, h.inputUsed]
    exact congrArg (State.filled · _) hl
  obtain ⟨l', hrun, hfeat⟩ := runCommand_withLeftover (Option.some_ne_none _)
    (show (1 : BitVec 4) ≠ 0 by decide) (replaced_filled _ _ l) hrunt
  rw [hfilled, hrun] at hrunu
  exact ⟨l', (Host.Outcome.next.inj hrunu).symm, hfeat (congrArg (Option.map _) hidle)⟩

theorem featureView_of_nfeat_zero {s : State} (h : s.regs.nfeat = 0) : featureView s = [] := by
  simp [featureView, h]

theorem featureView_withLeftover {s : State} {l : Leftover}
    (h : Memory.AgreesBelow s.regs.nfeat.toNat l.feat s.bufs.feat) : featureView (s.withLeftover l) = featureView s :=
  List.map_congr_left fun i hi => h i (List.mem_range.1 hi)

/-- A `PROC` on both consumes the same, shows the same features and leaves them alike. -/
theorem SameFuture.proc {a b : State} {xs : List Sample} (h : SameFuture a b) (hlen : xs.length < 65536) :
    ∃ t u, command (procCommand xs) a = .next t ∧ command (procCommand xs) b = .next u ∧ SameFuture t u ∧
      t.regs.consumed.toNat = u.regs.consumed.toNat ∧ featureView t = featureView u := by
  obtain ⟨t, hct, hrett⟩ := command_proc h.inv.1 h.idle.1 h.phase.1 hlen
  obtain ⟨u, hcu, hretu⟩ := command_proc h.inv.2 h.idle.2 h.phase.2 hlen
  have hconsumed : t.regs.consumed.toNat = u.regs.consumed.toNat := by
    rw [hrett.consumed, hretu.consumed, h.cfg, h.inputUsed]
  have hgathered := hretu.gathered
  rw [h.cfg, h.inputUsed] at hgathered
  have alike (hs : ∃ l, u.signal = t.signal.withLeftover l) : SameFuture t u :=
    ⟨⟨hrett.inv, hretu.inv⟩, ⟨hrett.idle, hretu.idle⟩, ⟨hrett.phase, hretu.phase⟩, hs⟩
  refine ⟨t, u, hct, hcu, ?_⟩
  by_cases hshort : a.regs.inputUsed.toNat + xs.length < a.cfg.size.toNat
  · refine ⟨alike (h.signal_of_gathered hlen hshort hct hcu), hconsumed, ?_⟩
    rw [featureView_of_nfeat_zero (hrett.gathered hshort).1, featureView_of_nfeat_zero (hgathered hshort).1]
  · obtain ⟨l, hend, hfeat⟩ := h.unsampled_of_framed hlen (not_lt.1 hshort) hct hcu hrett.idle
    refine ⟨alike ⟨l, congrArg State.signal hend⟩, hconsumed, ?_⟩
    have hnfeat : t.regs.nfeat = t.cfg.nchan := by rw [(hrett.framed (not_lt.1 hshort)).1, hrett.cfg]
    have hview := featureView_withLeftover (s := t.unsampled) (l := l) (hnfeat ▸ hfeat)
    exact ((congrArg featureView hend).trans hview).symm

theorem procs_cons {xs : List Sample} {rest : List (List Sample)} {s t u : State}
    {seen : List (Nat × List (BitVec 16))} (hc : command (procCommand xs) s = .next t)
    (hr : procs rest t = some (u, seen)) :
    procs (xs :: rest) s = some (u, (t.regs.consumed.toNat, featureView t) :: seen) := by
  simp [procs, hc, hr]

/-- By the sequence of `PROC`s. -/
theorem SameFuture.procs {chunks : List (List Sample)} (hlen : ∀ xs ∈ chunks, xs.length < 65536) {a b : State}
    (h : SameFuture a b) :
    ∃ t u seen, procs chunks a = some (t, seen) ∧ procs chunks b = some (u, seen) ∧ seen.length = chunks.length ∧
      SameFuture t u := by
  induction chunks generalizing a b with
  | nil => exact ⟨a, b, [], rfl, rfl, rfl, h⟩
  | cons xs rest ih =>
    obtain ⟨hxs, hrest⟩ := List.forall_mem_cons.1 hlen
    obtain ⟨t, u, hct, hcu, hsame, hconsumed, hview⟩ := h.proc hxs
    obtain ⟨v, w, seen, hv, hw, hcount, hend⟩ := ih hrest hsame
    refine ⟨v, w, _, procs_cons hct hv, ?_, congrArg Nat.succ hcount, hend⟩
    rw [hconsumed, hview]
    exact procs_cons hcu hw

/-! ### RST and COMMIT -/

/-- The derived registers are computed from the others (R315, R316). -/
theorem Cfg.withDerived_of_derivedLegal {g : Cfg} (h : DerivedLegal g) :
    { g with corrBits := 0, specSize := 0 }.withDerived = g := by
  obtain ⟨hspec, hcorr⟩ := h
  have hspec' : BitVec.ofNat 16 (g.fftSize.toNat / 2 + 1) = g.specSize := by
    rw [← hspec, BitVec.ofNat_toNat, BitVec.setWidth_eq]
  have hcorr' : BitVec.ofInt 8 (corrBitsOf g.fftSize.toNat) = g.corrBits := by rw [← hcorr, BitVec.ofInt_toInt]
  rw [Cfg.withDerived, hspec', hcorr']

/-- The block with the same configuration and tables loaded and not yet committed. -/
def State.bare (s : State) : State :=
  { s with regs := Regs.reset, cfg := { s.cfg with corrBits := 0, specSize := 0 }, bufs := Bufs.reset }

theorem inv_bare {s : State} (h : Inv s) (ha : s.port.active = none) : Inv s.bare :=
  Unbuilt.inv ⟨rfl, ha, rfl, rfl, rfl, rfl⟩ h.tablesFit h.tablesLegal

/-- Settles O56: what `RST` leaves of s is a leftover on what `COMMIT` leaves of the bare block. -/
theorem rstIsAsGoodAsCommit : Obligations.RstIsAsGoodAsCommit := by
  intro s chunks h ha hp hlen bare c
  have hw := h.working (by rw [hp]; rfl)
  have hlegal : ConfigLegal s.bare.cfg s.bare.tables := hw.configLegal
  have hc : c = constructed s.bare := commitWith_constructs rfl hlegal rfl
  have hcfg : c.cfg = s.cfg := by rw [hc]; exact Cfg.withDerived_of_derivedLegal hw.derivedLegal
  have hinvc : Inv c := inv_commit (inv_bare h ha) _
  have hrst := execRst_answers hp
  have hsame : SameFuture c (finish 0 (historyCleared s)) :=
    { inv := ⟨hinvc, inv_execRst h hrst⟩
      idle := ⟨by rw [hc]; exact ha, ha⟩
      phase := ⟨by rw [hc]; rfl, hp⟩
      signal := ⟨⟨s.regs.scaleShift, s.bufs.energy, s.bufs.sig, s.bufs.feat⟩, by
        rw [State.signal.eq_1 c, hcfg, hc]
        rfl⟩ }
  obtain ⟨u, t, seen, hu, ht, hcount, hend⟩ := hsame.procs hlen
  obtain ⟨l, hsignal⟩ := hend.signal
  refine ⟨fun hinit => ?_, hsame.phase.1, hcfg, by rw [hc]; rfl, _, t, u, seen, hrst, ht, hu, hcount,
    (congrArg (·.regs.inputUsed) hsignal :), (congrArg (·.bufs.inp) hsignal :), (congrArg (·.bufs.est) hsignal :)⟩
  exact congrArg _ ((commitWith_constructs rfl hlegal hinit).trans hc.symm)

end Sys2Proof.Machine
end

section
/-! Refusals and returns (60_exceptions.md): an illegal word only reports itself (R107, R353), a failed block answers every
command but `CLR` with a refusal or a result (R356), and every command an idle block is given returns (R361). -/

namespace Sys2Proof.Machine

/-! ### Illegal words -/

/-- What the decoder returns is an instruction or an error, never both. -/
theorem exists_error_iff_not_ok {ε α : Type} (x : Except ε α) : (∃ e, x = .error e) ↔ ¬ ∃ a, x = .ok a := by
  cases x with
  | error e => exact ⟨fun _ => nofun, fun _ => ⟨e, rfl⟩⟩
  | ok a => exact ⟨nofun, fun h => absurd ⟨a, rfl⟩ h⟩

theorem bareCommand_error_iff (space arg : Nat) (i : Instr) :
    (∃ e, bareCommand space arg i = .error e) ↔ space ≠ 0 ∨ arg ≠ 0 := by
  simp only [exists_error_iff_not_ok, Laws.bareCommand_ok_iff, exists_and_left, exists_eq', and_true, ← not_and_or]

theorem argCommand_error_iff (space : Nat) (i : Instr) : (∃ e, argCommand space i = .error e) ↔ space ≠ 0 := by
  simp only [exists_error_iff_not_ok, Laws.argCommand_ok_iff, exists_and_left, exists_eq', and_true, ne_eq]

/-- A reserved `OP`, or a must-be-zero field that is not 0, `OP` by `OP` (R101, R107). -/
theorem decodeHost_error_iff (w : HostWord) :
    (∃ e, decodeHost w = .error e) ↔
      (8 ≤ field w 31 24 ∨ (field w 23 16 ≠ 0 ∧ field w 31 24 ≠ 2 ∧ field w 31 24 ≠ 6) ∨
        (field w 15 0 ≠ 0 ∧
          (field w 31 24 = 0 ∨ field w 31 24 = 3 ∨ field w 31 24 = 5 ∨ field w 31 24 = 7))) := by
  simp only [decodeHost]
  split
  case h_1 hop | h_4 hop | h_6 hop | h_8 hop => simp [bareCommand_error_iff, hop]
  case h_2 hop | h_5 hop => simp [argCommand_error_iff, hop]
  case h_3 hop | h_7 hop => simp [hop]
  case h_9 h0 h1 h2 h3 h4 h5 h6 h7 =>
    have hreserved : 8 ≤ field w 31 24 := by
      simp only [imp_false] at h0 h1 h2 h3 h4 h5 h6 h7
      omega
    exact ⟨fun _ => .inl hreserved, fun _ => ⟨_, rfl⟩⟩

/-- The ROM holds the codes of the micro-operations, all of them and nothing else (R104, R105). -/
theorem mem_microRom_iff (c : MicroCode) : c ∈ microRom ↔ ∃ i, decodeMicro c = .ok i := by
  constructor
  · have hdecodes : ∀ c ∈ microRom, (decodeMicro c).isOk = true := by decide
    intro hc
    cases hd : decodeMicro c with
    | ok i => exact ⟨i, rfl⟩
    | error e => exact absurd (hdecodes c hc) (by rw [hd]; exact Bool.false_ne_true)
  · rintro ⟨i, hd⟩
    have hcode := (Laws.encodeOfDecode.2 c i hd).1
    cases i <;> cases hcode <;> decide

/-- Settles O4: an illegal word raises `E_ILLEGAL`, which is a refusal and no construction failure. -/
theorem illegalWordsAreRefused : Obligations.IllegalWordsAreRefused := by
  refine ⟨decodeHost_error_iff, fun s c rest e ha hq hd => ?_, fun c => ?_⟩
  · rw [step_illegal s c rest e ha hq hd, raise_refusal _ _ rfl]
    rfl
  · rw [exists_error_iff_not_ok, mem_microRom_iff]

/-! ### A failed block -/

theorem sameButResult_refl (s : State) : sameButResult s s := ⟨rfl, rfl, rfl, rfl, rfl, rfl⟩

/-- A command carried out changes of its own accord `ERR` and the answer only (R350). -/
theorem sameButResult_finish (a : DataWord) (s : State) : sameButResult s (finish a s) :=
  ⟨rfl, rfl, rfl, rfl, rfl, rfl⟩

/-- In `FAILED` five of the commands are refused for the phase, and `NOP` and `RD` have no effect but their result
(R311, R330, R335). -/
theorem hostCommand_of_failed {s t : State} {i : Instr} {w : HostWord} (hp : s.regs.phase = .failed)
    (hi : encode i = .host w) (hclr : i ≠ .clr) (hx : exec i s = .next t) : sameButResult s t := by
  have hbuilt : s.regs.phase ≠ .unconfigured := by rw [hp]; decide
  have hwaiting : s.regs.phase ≠ .awaitingFrame := by rw [hp]; decide
  have hrefused : sameButResult s (raise .state s) := sameButResult_raise_refusal s rfl
  cases i with
  | wFill | wApply | wSlide | shCalc | xReq | fbEnergy | fbAcc | fbSqrt | nrApply | gcApply | lsApply | seqEnd =>
    cases hi
  | cfgwr index => cases hx.symm.trans (execCfgwr_refused index hbuilt); exact hrefused
  | tblwr space index => cases hx; rwa [tblwrWith_refused _ space index hbuilt]
  | commit => cases hx; rwa [commitWith_refused _ _ hbuilt]
  | proc count => cases hx.symm.trans (execProc_refused count hwaiting); exact hrefused
  | rst => cases hx.symm.trans (execRst_refused hwaiting); exact hrefused
  | nop => cases hx; exact sameButResult_finish 0 s
  | rd space index =>
    cases hx
    obtain e | ⟨sp, -, -, e⟩ := rdWith_cases Config.caps space index s <;> rw [e]
    · exact sameButResult_raise_refusal s rfl
    · exact sameButResult_finish _ s
  | clr => exact absurd rfl hclr

theorem sameButResult.failed {s t : State} (h : sameButResult s t) (hp : s.regs.phase = .failed) :
    t.regs.phase = .failed ∧ t.cfg = s.cfg ∧ t.tables = s.tables ∧ t.bufs = s.bufs ∧
      t.regs = { s.regs with err := t.regs.err } := by
  obtain ⟨hcfg, htables, hbufs, -, hregs, -⟩ := h
  exact ⟨by rw [hregs]; exact hp, hcfg, htables, hbufs, hregs⟩

/-- Settles O55: taking a command off the port is nothing the block holds, and what is not `CLR` only has a result. -/
theorem failedUntilClr : Obligations.FailedUntilClr := by
  intro s t hp ha hx
  rcases step_cases s with ⟨n, i, hn, -⟩ | ⟨n, hn, -⟩ | ⟨c, rest, i, -, hq, hd, e⟩ | ⟨c, rest, -, -, e⟩ | ⟨-, -, e⟩
  · cases ha.symm.trans hn
  · cases ha.symm.trans hn
  · rw [e] at hx
    by_cases hclr : i = .clr
    · exact .inl ⟨c, rest, hq, hclr ▸ hd⟩
    · obtain ⟨w, hw⟩ := encode_host_of_decodeHost hd
      exact .inr ((hostCommand_of_failed (s := takeCommand c rest s) hp hw hclr hx).failed hp)
  · rw [e] at hx
    cases hx
    exact .inr ((sameButResult_raise_refusal (takeCommand c rest s) rfl).failed hp)
  · rw [e] at hx
    cases hx
    exact .inr ((sameButResult_refl s).failed hp)

/-! ### Every command returns -/

/-- A host command leaves the host's later commands, and only a `PROC` leaves one running, at the start of the
micro-program with no view (R317). -/
theorem hostCommand_port {s t : State} {i : Instr} {w : HostWord} (ha : s.port.active = none)
    (hi : encode i = .host w) (hx : exec i s = .next t) :
    t.port.queue = s.port.queue ∧
      (t.port.active = none ∨ ∃ n, t.port.active = some n ∧ t.regs.seq = 0 ∧ t.regs.nfeat = 0) := by
  cases i with
  | wFill | wApply | wSlide | shCalc | xReq | fbEnergy | fbAcc | fbSqrt | nrApply | gcApply | lsApply | seqEnd =>
    cases hi
  | nop | clr => cases hx; exact ⟨rfl, .inl ha⟩
  | cfgwr index => obtain ⟨-, rfl⟩ | ⟨-, -, rfl⟩ | ⟨-, -, -, rfl⟩ := execCfgwr_next hx <;> exact ⟨rfl, .inl ha⟩
  | tblwr space index =>
    cases hx
    obtain ⟨-, e⟩ | ⟨-, e⟩ | ⟨_, _, _, -, -, -, -, -, -, e⟩ := tblwrWith_cases Config.caps space index s <;> rw [e] <;>
      exact ⟨rfl, .inl ha⟩
  | commit =>
    cases hx
    obtain ⟨-, e⟩ | ⟨_, -, -, e⟩ | ⟨-, -, e⟩ := commitWith_cases Config.caps Config.xfmInit s <;> rw [e] <;>
      exact ⟨rfl, .inl ha⟩
  | proc count =>
    obtain ⟨-, rfl⟩ | ⟨-, rfl⟩ := execProc_next hx
    · exact ⟨rfl, .inl ha⟩
    · exact ⟨rfl, .inr ⟨count, rfl, rfl, rfl⟩⟩
  | rst => obtain ⟨-, rfl⟩ | ⟨-, rfl⟩ := execRst_next hx <;> exact ⟨rfl, .inl ha⟩
  | rd space index =>
    cases hx
    obtain e | ⟨_, -, -, e⟩ := rdWith_cases Config.caps space index s <;> rw [e] <;> exact ⟨rfl, .inl ha⟩

/-- The first step of an issued command: it has returned, or it is a `PROC` at the start of its micro-program. -/
theorem step_issue {s t : State} {c : HostCmd} (ha : s.port.active = none) (hx : step (s.issue c) = .next t) :
    t.port.queue = s.port.queue ∧
      (t.port.active = none ∨ ∃ n, t.port.active = some n ∧ t.regs.seq = 0 ∧ t.regs.nfeat = 0) := by
  cases hd : decodeHost c.word with
  | error e =>
    rw [step_illegal (s.issue c) c s.port.queue e ha rfl hd] at hx
    cases hx
    exact ⟨rfl, .inl ha⟩
  | ok i =>
    rw [step_command (s.issue c) c s.port.queue i ha rfl hd] at hx
    obtain ⟨w, hw⟩ := encode_host_of_decodeHost hd
    exact hostCommand_port (s := takeCommand c s.port.queue (s.issue c)) ha hw hx

/-- A micro-program never looks at the host's later commands. -/
theorem runCommand_queue {n : Nat} {s t : State} (ha : s.port.active ≠ none) (hrun : runCommand n s = .next t) :
    t.port.queue = s.port.queue := by
  refine runCommand_induction (P := fun u => u.port.queue = s.port.queue) (fun u v i hu _ hf hx => ?_) rfl ha hrun
  obtain ⟨c, hc⟩ := encode_micro_of_fetchMicro hf
  obtain ⟨-, -, -, hport⟩ := microOpsKeepTheConfiguration u v i c hc hx
  exact (congrArg Port.queue hport :).trans hu

/-- Settles O52: one step for the command, and for a `PROC` that starts the 12 its micro-program can take. -/
theorem everyCommandReturns : Obligations.EveryCommandReturns := by
  intro s c h ha
  have hissued : Inv (s.issue c) := h.of_err_port s.regs.err _ s.freeCtr rfl
  obtain ⟨u, hx⟩ := stepNeverStops _ hissued
  have hinv := stepKeepsTheInvariant _ u hissued hx
  obtain ⟨hqueue, hidle | ⟨n, hn, hseq, hnfeat⟩⟩ := step_issue ha hx
  · exact ⟨u, runCommand_return 12 hx hidle, hidle, hqueue, hinv⟩
  · have hactive : u.port.active ≠ none := by rw [hn]; nofun
    obtain ⟨t, ht, hret⟩ := runCommand_microProgram hinv hn hseq hnfeat
    exact ⟨t, (runCommand_continue 12 hx hactive).trans ht, hret.idle, (runCommand_queue hactive ht).trans hqueue,
      hret.inv⟩

end Sys2Proof.Machine
end

section
/-! Power-on (70_reset_and_hazards.md R380): the reset state is a block at its power-on values whose port holds nothing,
so what is known of every such block holds of it. -/

namespace Sys2Proof.Machine

/-- LLUT holds the printed table, element by element (R286). -/
theorem map_llut_range : (List.range llutTable.length).map llut = llutTable :=
  List.ext_getElem (by rw [List.length_map, List.length_range]) fun k hk hk' => by
    rw [List.getElem_map, List.getElem_range, llut, List.getD_eq_getElem _ _ hk']

/-- Settles O19: the spaces by the law of the power-on values, LLUT by its table. -/
theorem resetIsPowerOn : Obligations.ResetIsPowerOn := by
  refine ⟨fun sp i h => memRead_powerOn Port.reset 0 h i, ?_, rfl, rfl, rfl⟩
  simp only [memRead_llut]
  exact map_llut_range

/-- Settles O48. -/
theorem resetHasTheInvariant : Obligations.ResetHasTheInvariant :=
  inv_powerOn (p := Port.reset) rfl 0

end Sys2Proof.Machine
end
